-- ==== Sys2Proof/Word.lean ====
section
/-! DEFINITION. The word types of the HUFF block (spec 00_scope.md R7, R9, R10): every quantity is unsigned, bit 0 is the
least significant bit, and a digit is 0 or 1. -/

namespace Sys2Proof

/-- A Symbol of the alphabet, or one byte of a header string (R7 `SYMW` = 8, R10). -/
abbrev Byte := BitVec 8

/-- One binary digit of a code word or of the bit stream (R10): `false` is 0 and `true` is 1. -/
abbrev Digit := Bool

/-- An occurrence count or a priority, unsigned (R7 `CW` = 32). -/
abbrev Count := BitVec 32

/-- A node id of the node memory, also the payload of a queue entry (R7 `NIDW` = `PAYW` = 9). -/
abbrev NodeId := BitVec 9

/-- A command word (R7 `CMDW` = 64, R70). -/
abbrev CmdWord := BitVec 64

/-- A response word (R7 `RSPW` = 64, R75). -/
abbrev RspWord := BitVec 64

/-- An array with one element for each of the 256 symbols (R7 `NSYM`, R50 arrays `FT` and `CT`). -/
abbrev SymTable (α : Type) := Vector α 256

end Sys2Proof
end

