-- ==== Sys2Proof/Config.lean ====
section
/-! DEFINITION. The implementation parameters of the block (spec 00_scope.md R7), all fixed by the spec for this hardware.
The block has no free value (49_properties.md R254) and so no opaque constant. The one open parameter, `PACK`, belongs to the
sinks outside the block and no rule reads it (R4 a, D25). -/

namespace Sys2Proof.Config

/-- `CMAX`, the largest count or priority (R7). -/
@[simp] abbrev cmax : Nat := 4294967295

/-- `NNODE`, entries of the node memory `TM` (R7). -/
@[simp] abbrev nnode : Nat := 511

/-- `PQCAP`, entries of the priority queue (R7). -/
@[simp] abbrev pqcap : Nat := 256

/-- `HBMAX`, bytes of the header buffer (R7). -/
@[simp] abbrev hbmax : Nat := 1022

/-- `CLMAX`, the longest code word in digits (R7, R8). -/
@[simp] abbrev clmax : Nat := 255

/-- The byte of the leaf token `.` (43_header_codec.md R151). -/
@[simp] abbrev dot : Byte := 0x2E#8

/-- The byte of `(`, which opens an internal node (R151). -/
@[simp] abbrev lpar : Byte := 0x28#8

/-- The byte of `)`, which closes an internal node (R151). -/
@[simp] abbrev rpar : Byte := 0x29#8

end Sys2Proof.Config
end

