-- ==== Sys2Proof/Syntax.lean ====
section
/-! DEFINITION. The command set HUFF-CMD 1: one constructor per row of spec/opcode_table.json (30_encoding.md R74), the four
formats (R71), and the raw fields of a command word (R70). -/

namespace Sys2Proof

/-- The four command formats: which bits of `A` and `D` carry an operand (R71). -/
inductive Format where
  | n | s | b | p
  deriving DecidableEq, Repr

/-- The 20 commands with their operands (R74, R72). -/
inductive Instr where
  | rst
  | stat
  | ftClr
  | ftInc (x : Byte)
  | ftRd (x : Byte)
  | pqClr
  | pqPush (pay : NodeId) (prio : Count)
  | pqPop
  | pqLen
  | tbBuild
  | hdClr
  | hdWr (x : Byte)
  | hdParse
  | hdSer
  | hdLen
  | ctBuild
  | ctLen (x : Byte)
  | encSym (x : Byte)
  | decBit (b : Digit)
  | decEos
  deriving DecidableEq, Repr

/-- The mnemonic of a command, as spec/opcode_table.json spells it (R74). -/
def Instr.mnemonic : Instr → String
  | .rst => "RST"
  | .stat => "STAT"
  | .ftClr => "FT_CLR"
  | .ftInc _ => "FT_INC"
  | .ftRd _ => "FT_RD"
  | .pqClr => "PQ_CLR"
  | .pqPush _ _ => "PQ_PUSH"
  | .pqPop => "PQ_POP"
  | .pqLen => "PQ_LEN"
  | .tbBuild => "TB_BUILD"
  | .hdClr => "HD_CLR"
  | .hdWr _ => "HD_WR"
  | .hdParse => "HD_PARSE"
  | .hdSer => "HD_SER"
  | .hdLen => "HD_LEN"
  | .ctBuild => "CT_BUILD"
  | .ctLen _ => "CT_LEN"
  | .encSym _ => "ENC_SYM"
  | .decBit _ => "DEC_BIT"
  | .decEos => "DEC_EOS"

/-- One line of assembler text: the mnemonic, then the operands as numbers, separated by a comma and a space (R83). -/
def Instr.assembly (i : Instr) : String :=
  match i with
  | .ftInc x | .ftRd x | .hdWr x | .ctLen x | .encSym x => i.mnemonic ++ " " ++ toString x.toNat
  | .pqPush pay prio => i.mnemonic ++ " " ++ toString pay.toNat ++ ", " ++ toString prio.toNat
  | .decBit b => i.mnemonic ++ " " ++ (if b then "1" else "0")
  | .rst | .stat | .ftClr | .pqClr | .pqPop | .pqLen | .tbBuild | .hdClr | .hdParse | .hdSer | .hdLen | .ctBuild | .decEos => i.mnemonic

/-- The four fields of a 64-bit command word, before anything is checked (R70). -/
structure RawCmd where
  op  : BitVec 8
  rsv : BitVec 8
  a   : BitVec 16
  d   : BitVec 32
  deriving DecidableEq, Repr

end Sys2Proof
end

