-- ==== Sys2Proof/Machine/Operands.lean ====
section
/-! DEFINITION. Operand forms. Where a command carries its operands (30_encoding.md R70, R71, R72), and how a datum of the
block is put into the `A` and `D` fields of a response (R75, R77). Every field is unsigned and taken as it stands. -/

namespace Sys2Proof.Machine

/-- `OP` = cmd[63:56] (R70). -/
def opField (w : CmdWord) : BitVec 8 := w.extractLsb' 56 8

/-- `RSV` = cmd[55:48] (R70). -/
def rsvField (w : CmdWord) : BitVec 8 := w.extractLsb' 48 8

/-- `A` = cmd[47:32] (R70). -/
def aField (w : CmdWord) : BitVec 16 := w.extractLsb' 32 16

/-- `D` = cmd[31:0] (R70). -/
def dField (w : CmdWord) : BitVec 32 := w.extractLsb' 0 32

/-- Format `N`: no operand, so `A` and `D` must be 0 (R71). -/
def formN (a : BitVec 16) (d : BitVec 32) (i : Instr) : Option Instr :=
  if a = 0#16 ∧ d = 0#32 then some i else none

/-- Format `S`: the symbol `s` = cmd[39:32]; `A[15:8]` and `D` must be 0 (R71, R72). -/
def formS (a : BitVec 16) (d : BitVec 32) (mk : Byte → Instr) : Option Instr :=
  if a.extractLsb' 8 8 = 0#8 ∧ d = 0#32 then some (mk (a.extractLsb' 0 8)) else none

/-- Format `B`: the digit `b` = cmd[32]; `A[15:1]` and `D` must be 0 (R71, R72). -/
def formB (a : BitVec 16) (d : BitVec 32) (mk : Digit → Instr) : Option Instr :=
  if a.extractLsb' 1 15 = 0#15 ∧ d = 0#32 then some (mk (a.getLsbD 0)) else none

/-- Format `P`: `pay` = cmd[40:32] and `prio` = cmd[31:0]; `A[15:9]` must be 0 (R71, R72). -/
def formP (a : BitVec 16) (d : BitVec 32) (mk : NodeId → Count → Instr) : Option Instr :=
  if a.extractLsb' 9 7 = 0#7 then some (mk (a.extractLsb' 0 9) d) else none

/-- A command word from its four fields; `RSV` is 0 in every legal word (R70, R73). -/
def cmdWord (op : BitVec 8) (a : BitVec 16) (d : BitVec 32) : CmdWord := op ++ 0#8 ++ a ++ d

/-- A response word from its status and its two result fields; rsp[55:48] is always 0 (R75). -/
def rspWord (st : BitVec 8) (a : BitVec 16) (d : BitVec 32) : RspWord := st ++ 0#8 ++ a ++ d

/-- `ST` = rsp[63:56] (R75). -/
def statusField (r : RspWord) : BitVec 8 := r.extractLsb' 56 8

/-- `zext_16(pay)`: the payload that `PQ_POP` returns in `A[8:0]` (R77, R115). -/
def payResult (pay : NodeId) : BitVec 16 := 0#7 ++ pay

/-- A length register in `D`, zero extended (R77: `PQLEN`, `NCNT`, `HLEN`, a code length, a number of symbols). -/
def lenResult (n : Nat) : BitVec 32 := BitVec.ofNat 32 n

/-- `0x0100 | sym`: the `A` field of a `DEC_BIT` that emitted the symbol `x` (R77, 46_decoder.md R204). -/
def symResult (x : Byte) : BitVec 16 := 0x01#8 ++ x

/-- The `D` field of a refused command: `zext_32(ERR)` (R76, 60_exceptions.md R280). -/
def errResult (e : BitVec 8) : BitVec 32 := 0#24 ++ e

end Sys2Proof.Machine
end

