-- ==== Sys2Proof/Decode.lean ====
section
/-! DEFINITION. The decoder and the encoder of command words (30_encoding.md R70 to R74, R80). Both are written from the
opcode map of R74. Decoding is total: a word is one legal command with its operands, or it is illegal (R73). -/

namespace Sys2Proof

open Machine

/-- The command that the opcode and the operand fields stand for, when they are legal (R74, R80). -/
def decodeFields (op : BitVec 8) (a : BitVec 16) (d : BitVec 32) : Option Instr :=
  if op = 0x01#8 then formN a d .rst
  else if op = 0x02#8 then formN a d .stat
  else if op = 0x10#8 then formN a d .ftClr
  else if op = 0x11#8 then formS a d .ftInc
  else if op = 0x12#8 then formS a d .ftRd
  else if op = 0x20#8 then formN a d .pqClr
  else if op = 0x21#8 then formP a d .pqPush
  else if op = 0x22#8 then formN a d .pqPop
  else if op = 0x23#8 then formN a d .pqLen
  else if op = 0x30#8 then formN a d .tbBuild
  else if op = 0x40#8 then formN a d .hdClr
  else if op = 0x41#8 then formS a d .hdWr
  else if op = 0x42#8 then formN a d .hdParse
  else if op = 0x43#8 then formN a d .hdSer
  else if op = 0x44#8 then formN a d .hdLen
  else if op = 0x50#8 then formN a d .ctBuild
  else if op = 0x51#8 then formS a d .ctLen
  else if op = 0x60#8 then formS a d .encSym
  else if op = 0x70#8 then formB a d .decBit
  else if op = 0x71#8 then formN a d .decEos
  else none

/-- The command a word is, or none when the word is illegal: an unknown `OP`, a nonzero `RSV`, or a nonzero must-be-zero
operand bit (R73, R80). -/
def decode (w : CmdWord) : Option Instr :=
  if rsvField w = 0#8 then decodeFields (opField w) (aField w) (dField w) else none

/-- The opcode of a command (R74). -/
def Instr.opcode : Instr → BitVec 8
  | .rst => 0x01#8
  | .stat => 0x02#8
  | .ftClr => 0x10#8
  | .ftInc _ => 0x11#8
  | .ftRd _ => 0x12#8
  | .pqClr => 0x20#8
  | .pqPush _ _ => 0x21#8
  | .pqPop => 0x22#8
  | .pqLen => 0x23#8
  | .tbBuild => 0x30#8
  | .hdClr => 0x40#8
  | .hdWr _ => 0x41#8
  | .hdParse => 0x42#8
  | .hdSer => 0x43#8
  | .hdLen => 0x44#8
  | .ctBuild => 0x50#8
  | .ctLen _ => 0x51#8
  | .encSym _ => 0x60#8
  | .decBit _ => 0x70#8
  | .decEos => 0x71#8

/-- The `A` field of a command: its symbol, digit or payload, zero elsewhere (R71). -/
def Instr.aOperand : Instr → BitVec 16
  | .ftInc x | .ftRd x | .hdWr x | .ctLen x | .encSym x => 0#8 ++ x
  | .pqPush pay _ => 0#7 ++ pay
  | .decBit b => 0#15 ++ BitVec.ofBool b
  | .rst | .stat | .ftClr | .pqClr | .pqPop | .pqLen | .tbBuild | .hdClr | .hdParse | .hdSer | .hdLen | .ctBuild | .decEos => 0#16

/-- The `D` field of a command: its priority, zero elsewhere (R71). -/
def Instr.dOperand : Instr → BitVec 32
  | .pqPush _ prio => prio
  | .rst | .stat | .ftClr | .ftInc _ | .ftRd _ | .pqClr | .pqPop | .pqLen | .tbBuild | .hdClr | .hdWr _ | .hdParse | .hdSer | .hdLen
  | .ctBuild | .ctLen _ | .encSym _ | .decBit _ | .decEos => 0#32

/-- The 64-bit word of a command (R70, R74). -/
def encode (i : Instr) : CmdWord := cmdWord i.opcode i.aOperand i.dOperand

/-- The command that the decoder reads from an opcode-table word. A command is one 64-bit word (R70), so the word's number is
its value and the table's bit 0 is bit 0 of the word; a number of more than 64 bits is no command word. -/
def decodeTableWord (_nbits w : Nat) : Option Instr :=
  if w < 2 ^ 64 then decode (BitVec.ofNat 64 w) else none

end Sys2Proof
end

