-- ==== Sys2Proof/Machine/State.lean ====
section
/-! DEFINITION. The state of the HUFF block (10_state.md R22), the fault kinds (60_exceptions.md R270), and what the model
keeps beside the block's own state: the host's pending inputs, the responses and the three output streams (00_scope.md R6,
10_state.md R38). An element that the spec calls unspecified and unobservable (R41) is held as an absent value: the queue, the
node memory and the header buffer are lists of exactly the elements below `PQLEN`, `NCNT` and `HLEN`, and a code table entry
that is not valid is `none` (log entries 1 and 2). -/

namespace Sys2Proof.Machine

/-- One entry of the priority queue: `PQ[i]` = (`prio`, `pay`) (R25). -/
structure PQEntry where
  prio : Count
  pay  : NodeId
  deriving DecidableEq, Repr

/-- One entry of the node memory: `TM[n]` is a Leaf with its symbol or an Internal node with its two children (R27). A field
that the spec calls not meaningful (`sym` of an Internal node, `zero` and `one` of a Leaf) is not held. -/
inductive Node where
  | leaf (sym : Byte)
  | internal (zero one : NodeId)
  deriving DecidableEq, Repr

/-- The error kinds of the block (R270). -/
inductive ErrKind where
  | formatError
  | duplicateCode
  | emptyInput
  | truncatedStream
  | illegalCmd
  | seqError
  | countOverflow
  | capacityError
  | noCode
  | dupSymbol
  | queueEmpty
  deriving DecidableEq, Repr

/-- What the host can do to the block between two commands: send a 64-bit word (R6), or pull the hardware reset input (R301). -/
inductive PortEvent where
  | cmd (w : CmdWord)
  | hardReset
  deriving DecidableEq, Repr

/-- The state. The first eleven fields are the block's own state and nothing else (R22), with `PQLEN` the length of `pq`, `NCNT` the
length of `tm`, `HLEN` the length of `hb`. The last five are not state of the block: they are the logs of what it sent out
(R38, R75) and the inputs that the host has still to present (R6). -/
structure State where
  /-- `ERR`, the code of the first fault since reset, 0 if none (R23). -/
  err    : BitVec 8
  /-- `FT[0..255]`, the occurrence counts (R24). -/
  ft     : SymTable Count
  /-- `PQ[0..PQLEN-1]`, slot 0 first (R25, R26). -/
  pq     : List PQEntry
  /-- `TM[0..NCNT-1]`, node 0 first (R27). -/
  tm     : List Node
  /-- `ROOT`, the node id of the root (R28). -/
  root   : NodeId
  /-- `ROOTV`, set when `TM`/`ROOT` hold a complete tree (R28). -/
  rootv  : Bool
  /-- `HB[0..HLEN-1]`, the header string, byte 0 first (R30). -/
  hb     : List Byte
  /-- `CTV`, set when `CT` was built from the present tree (R31). -/
  ctv    : Bool
  /-- `CT[0..255]`: `none` when `valid` = 0; else the code word, whose length is `len` and whose digit `i` is `bits[i]` (R31). -/
  ct     : SymTable (Option (List Digit))
  /-- `DNODE`, the node the decoder stands at (R33). -/
  dnode  : NodeId
  /-- `DDEAD`, set when the candidate can match no code word any more (R33). -/
  ddead  : Bool
  /-- The bytes emitted on `HDROUT`, first emitted first (R38). -/
  hdrout : List Byte
  /-- The digits emitted on `BITOUT`, first emitted first (R38). -/
  bitout : List Digit
  /-- The symbols emitted on `SYMOUT`, first emitted first (R38). -/
  symout : List Byte
  /-- The responses returned, in command order (R60 a, R75). -/
  rspout : List RspWord
  /-- What the host presents next, first one first (R6, R231). -/
  input  : List PortEvent
  deriving DecidableEq, Repr

/-- Why the machine stops. The block itself never stops: its own faults are next states with `ERR` written (R276, R322). These two
are the model's, raised only in states that break the tree invariant (R29), which no step reaches from a state that has it
(Safety.lean, `Inv`). Both are safe: the model stops where the spec says that no rule may read (R41). -/
inductive Fault where
  /-- `DEC_BIT` would read an entry `TM[n]` with `n ≥ NCNT`, or the children of a Leaf (R27, R41). Safe. -/
  | absentNode
  /-- `HD_SER` or `CT_BUILD` finds no finite tree at `ROOT` although `ROOTV` = 1 (R29). Safe. -/
  | brokenTree
  deriving DecidableEq, Repr

/-- Why a command has no meaning. -/
inductive Refusal where
  /-- Raised by an arm of `exec` whose command is not modelled yet; no arm is. Safe. -/
  | notModelled (mnemonic : String)
  deriving DecidableEq, Repr

/-- The outcome of one step of this machine. -/
abbrev Result := Host.Outcome State Fault Refusal

/-- The machine after reset (R40, R300): no fault, all counts 0, empty queue, no tree, empty header buffer, no code table, decoder
idle; nothing emitted yet and nothing presented by the host yet. -/
def State.reset : State where
  err    := 0#8
  ft     := Vector.replicate 256 0#32
  pq     := []
  tm     := []
  root   := 0#9
  rootv  := false
  hb     := []
  ctv    := false
  ct     := Vector.replicate 256 none
  dnode  := 0#9
  ddead  := false
  hdrout := []
  bitout := []
  symout := []
  rspout := []
  input  := []

end Sys2Proof.Machine
end

