-- ==== Sys2Proof/Machine/Ops.lean ====
section
/-! DEFINITION. The shared operations: reading and writing the arrays, allocating a node, the queue's two internal operations,
emitting, responding, taking a fault and clearing it, and the checks made before any command's own rule. -/

namespace Sys2Proof.Machine

/-- `T[s]` of an array indexed by symbol, always in range (20_memory.md R56, R66 a). -/
def symGet {α : Type} (t : SymTable α) (x : Byte) : α := t[x.toNat]'x.isLt

/-- `T[s] <- v` of an array indexed by symbol. -/
def symSet {α : Type} (t : SymTable α) (x : Byte) (v : α) : SymTable α := t.set x.toNat v x.isLt

/-- The 256 symbols in ascending order, 0x00 first (42_tree_builder.md R133). -/
def symbols : List Byte := (List.range 256).map (BitVec.ofNat 8)

/-- `TM[n]`, or none when `n ≥ NCNT`, an entry that no rule may read (10_state.md R27, R41). -/
def readNode (tm : List Node) (n : NodeId) : Option Node := tm[n.toNat]?

/-- `alloc(v)`: the new node takes the id `NCNT`; fault `CapacityError` when the 511 entries are in use (42_tree_builder.md
R131). -/
def alloc (v : Node) (tm : List Node) : Except ErrKind (NodeId × List Node) :=
  if Config.nnode ≤ tm.length then .error .capacityError
  else .ok (BitVec.ofNat 9 tm.length, tm ++ [v])

/-- `pq_insert(prio, pay)`: the new entry goes after the `k` entries of lower or equal priority (41_priority_queue.md R111,
R112). -/
def pqInsert (e : PQEntry) (q : List PQEntry) : List PQEntry :=
  let k := q.countP (fun f => f.prio ≤ e.prio)
  q.take k ++ e :: q.drop k

/-- `pq_pop()`: the entry of slot 0, and the queue without it (R117); none on an empty queue, where it is not defined. -/
def pqPop : List PQEntry → Option (PQEntry × List PQEntry)
  | [] => none
  | e :: q => some (e, q)

/-- The code of an error kind, written to `ERR` and returned in `ST` (60_exceptions.md R270). -/
def ErrKind.code : ErrKind → BitVec 8
  | .formatError => 0x01#8
  | .duplicateCode => 0x02#8
  | .emptyInput => 0x03#8
  | .truncatedStream => 0x04#8
  | .illegalCmd => 0x10#8
  | .seqError => 0x11#8
  | .countOverflow => 0x12#8
  | .capacityError => 0x13#8
  | .noCode => 0x14#8
  | .dupSymbol => 0x15#8
  | .queueEmpty => 0x16#8

/-- `ST_OK` (30_encoding.md R76). -/
def stOk : BitVec 8 := 0x00#8

/-- `ST_LOCKED` (R76). -/
def stLocked : BitVec 8 := 0xFF#8

/-- Return a response: it follows the responses of all earlier commands (R75, 20_memory.md R60 a). -/
def reply (st : BitVec 8) (a : BitVec 16) (d : BitVec 32) (s : State) : State :=
  { s with rspout := s.rspout ++ [rspWord st a d] }

/-- Emit bytes on `HDROUT`, in order (R78). -/
def emitHdr (h : List Byte) (s : State) : State := { s with hdrout := s.hdrout ++ h }

/-- Emit digits on `BITOUT`, in order (R78). -/
def emitBits (ds : List Digit) (s : State) : State := { s with bitout := s.bitout ++ ds }

/-- Emit one symbol on `SYMOUT` (R78). -/
def emitSym (x : Byte) (s : State) : State := { s with symout := s.symout ++ [x] }

/-- TAKING A FAULT: `ERR` <- the code, the response is {`ST` = the code, `A` = 0, `D` = 0}, and nothing else changes (R276,
R277). A meaning applies it to the state before the command, so every earlier write of the command is discarded (R12). -/
def takeFault (k : ErrKind) (s : State) : State := reply k.code 0#16 0#32 { s with err := k.code }

/-- LEAVING THE LOCKED CONDITION: all of the block's state takes its reset value; the streams, the responses and the host's
inputs are not touched (10_state.md R40, 48_system.md R241, 70_reset_and_hazards.md R301). -/
def clearBlock (s : State) : State :=
  { State.reset with
    hdrout := s.hdrout, bitout := s.bitout, symout := s.symout, rspout := s.rspout, input := s.input }

/-- `raise <Name>` ends the command: the fault is taken in the state `s` before the command (00_scope.md R12). -/
def raise (k : ErrKind) (s : State) : Result := .next (takeFault k s)

/-- `respond(A, D)` of a command that succeeds, leaving the state `s` (R12, R76). -/
def succeed (a : BitVec 16) (d : BitVec 32) (s : State) : Result := .next (reply stOk a d s)

/-- A refused command: the response is {`ST` = 0xFF, `A` = 0, `D` = `zext_32(ERR)`} and no state changes (R280). -/
def refuseLocked (s : State) : State := reply stLocked 0#16 (errResult s.err) s

/-- The common check before a command's own pseudocode: refused while `ERR` ≠ 0, else performed (R281, steps 2 and 5). -/
def whenUnlocked (s : State) (body : Result) : Result :=
  if s.err = 0#8 then body else .next (refuseLocked s)

/-- The sequence check of a command that needs a flag: `SeqError` while it is 0 (R273, R281 step 4). -/
def requireFlag (flag : Bool) (s : State) (body : Result) : Result :=
  if flag then body else raise .seqError s

/-- What an illegal word does: refused while locked, else the fault `IllegalCmd` (R272, R281 steps 2 and 3). -/
def illegalWord (s : State) : Result := whenUnlocked s (raise .illegalCmd s)

end Sys2Proof.Machine
end

