-- ==== Sys2Proof/Machine/CodeTree.lean ====
section
/-! DEFINITION. The CodeTree as a recursive value (00_scope.md R13, R14), how it is stored in the node memory, and the functions on
it that the header codec, the code-table builder and the decoder's reference use. -/

namespace Sys2Proof.Machine

/-- HUF's CodeTree: a Leaf holds one Symbol, an Internal node two children (R14). -/
inductive CodeTree where
  | leaf (sym : Byte)
  | internal (zero one : CodeTree)
  deriving DecidableEq, Repr

/-- The number of leaves. -/
def CodeTree.leafCount : CodeTree → Nat
  | .leaf _ => 1
  | .internal z o => z.leafCount + o.leafCount

/-- The number of Internal nodes. -/
def CodeTree.internalCount : CodeTree → Nat
  | .leaf _ => 0
  | .internal z o => z.internalCount + o.internalCount + 1

/-- The number of nodes. -/
def CodeTree.nodeCount : CodeTree → Nat
  | .leaf _ => 1
  | .internal z o => z.nodeCount + o.nodeCount + 1

/-- The depth of the deepest leaf. -/
def CodeTree.depth : CodeTree → Nat
  | .leaf _ => 0
  | .internal z o => max z.depth o.depth + 1

/-- The symbols of the leaves, zero-child first. -/
def CodeTree.leafSyms : CodeTree → List Byte
  | .leaf x => [x]
  | .internal z o => z.leafSyms ++ o.leafSyms

/-- The tree is degenerate: its root is a Leaf (R15). -/
def CodeTree.degenerate : CodeTree → Bool
  | .leaf _ => true
  | .internal _ _ => false

/-- The leaves with their paths from the root: zero-child edges give digit 0 and one-child edges digit 1 (R13). -/
def CodeTree.paths : CodeTree → List (List Digit × Byte)
  | .leaf x => [([], x)]
  | .internal z o =>
    z.paths.map (fun c => (false :: c.1, c.2)) ++ o.paths.map (fun c => (true :: c.1, c.2))

/-- The code words of a tree with their symbols, which is also HUF's DecodeTable: the paths of the leaves, and for a degenerate
tree the one code word `"0"` (10_state.md R35, 44_code_table.md R174). -/
def CodeTree.codeWords : CodeTree → List (List Digit × Byte)
  | .leaf x => [([false], x)]
  | .internal z o => (CodeTree.internal z o).paths

/-- The serialised header of a tree: `.` and the raw byte for a leaf, the two children in parentheses for an Internal node
(43_header_codec.md R150, R154). -/
def CodeTree.ser : CodeTree → List Byte
  | .leaf x => [Config.dot, x]
  | .internal z o => Config.lpar :: (z.ser ++ o.ser ++ [Config.rpar])

/-- `tree(n)`: the tree stored at node id `n` (R13), following children at most `k` levels deep; none when an entry is absent or
the levels run out, which invariant `WF` rules out for `k` = `NCNT` (10_state.md R29). -/
def readTree : Nat → List Node → NodeId → Option CodeTree
  | 0, _, _ => none
  | k + 1, tm, n =>
    match readNode tm n with
    | none => none
    | some (.leaf x) => some (.leaf x)
    | some (.internal z o) => do
      let tz ← readTree k tm z
      let tone ← readTree k tm o
      some (.internal tz tone)

/-- `tree(ROOT)`. -/
def State.tree (s : State) : Option CodeTree := readTree s.tm.length s.tm s.root

end Sys2Proof.Machine
end

