-- ==== Sys2Proof/Machine/CodeTable.lean ====
section
/-! DEFINITION. The code-table builder: `CT_BUILD`, `CT_LEN` (44_code_table.md). -/

namespace Sys2Proof.Machine

/-- The code table with every entry not valid (R172). -/
def emptyTable : SymTable (Option (List Digit)) := Vector.replicate 256 none

/-- `walk(n, acc)` on the tree value: each leaf's symbol gets the digits on the way to it, zero-child first; `DupSymbol` when the symbol
has a code word already (R171, R176). -/
def walk : CodeTree → List Digit → SymTable (Option (List Digit)) → Except ErrKind (SymTable (Option (List Digit)))
  | .leaf x, acc, ct =>
    if (symGet ct x).isSome then .error .dupSymbol else .ok (symSet ct x (some acc))
  | .internal z o, acc, ct => do
    let ct ← walk z (acc ++ [false]) ct
    walk o (acc ++ [true]) ct

/-- The code table of a tree: the one code word `"0"` for a degenerate tree, else the paths of the leaves (R172, R174). -/
def buildTable : CodeTree → Except ErrKind (SymTable (Option (List Digit)))
  | .leaf x => .ok (symSet emptyTable x (some [false]))
  | .internal z o => walk (.internal z o) [] emptyTable

/-- The number of symbols with a valid code word (R172, R77). -/
def validCount (ct : SymTable (Option (List Digit))) : Nat := symbols.countP (fun x => (symGet ct x).isSome)

/-- `CT_BUILD`: derives the code table from the present tree (R172). -/
def execCtBuild (s : State) : Result :=
  whenUnlocked s <| requireFlag s.rootv s <|
    match s.tree with
    | none => .fault .brokenTree
    | some t =>
      match buildTable t with
      | .error k => raise k s
      | .ok ct => succeed 0#16 (lenResult (validCount ct)) { s with ct := ct, ctv := true }

/-- `CT_LEN s`: responds whether the symbol has a code word, and its length (R175). -/
def execCtLen (x : Byte) (s : State) : Result :=
  whenUnlocked s <| requireFlag s.ctv s <|
    match symGet s.ct x with
    | none => succeed 0#16 0#32 s
    | some w => succeed 1#16 (lenResult w.length) s

end Sys2Proof.Machine
end

