-- ==== Sys2Proof/Machine/Decoder.lean ====
section
/-! DEFINITION. The decoder: `DEC_BIT`, `DEC_EOS`, a walk of the tree (46_decoder.md). -/

namespace Sys2Proof.Machine

/-- A symbol is complete: it is emitted, the candidate is reset to empty, and the response carries it (R204). -/
def emitDecoded (x : Byte) (s : State) : Result :=
  succeed (symResult x) 0#32 (emitSym x { s with dnode := s.root })

/-- The edge that the digit `b` takes out of the node `DNODE`: a leaf emits its symbol, an Internal node becomes `DNODE` (R204). -/
def followEdge (b : Digit) (s : State) : Result :=
  match readNode s.tm s.dnode with
  | some (.internal z o) =>
    match readNode s.tm (if b then o else z) with
    | some (.leaf x) => emitDecoded x s
    | some (.internal _ _) => succeed 0#16 0#32 { s with dnode := if b then o else z }
    | none => .fault .absentNode
  | some (.leaf _) => .fault .absentNode
  | none => .fault .absentNode

/-- `DEC_BIT b`: one digit of the bit stream. A dead candidate consumes it; a degenerate tree emits its symbol for a 0 and dies of a 1;
any other tree follows one edge (R204, R206). -/
def execDecBit (b : Digit) (s : State) : Result :=
  whenUnlocked s <| requireFlag s.rootv s <|
    if s.ddead then succeed 0#16 0#32 s
    else
      match readNode s.tm s.root with
      | some (.leaf x) =>
        if b then succeed 0#16 0#32 { s with ddead := true }
        else succeed (symResult x) 0#32 (emitSym x s)
      | some (.internal _ _) => followEdge b s
      | none => .fault .absentNode

/-- `DEC_EOS`: succeeds when no code word is in progress, else `TruncatedStream` (R205, R209). -/
def execDecEos (s : State) : Result :=
  whenUnlocked s <| requireFlag s.rootv s <|
    if s.dnode ≠ s.root ∨ s.ddead = true then raise .truncatedStream s
    else succeed 0#16 0#32 s

end Sys2Proof.Machine
end

