-- ==== Sys2Proof/Machine/Encoder.lean ====
section
/-! DEFINITION. The encoder, `ENC_SYM` (45_encoder.md). -/

namespace Sys2Proof.Machine

/-- `ENC_SYM s`: emits the code word of the symbol on `BITOUT`, digit 0 first, and responds with its length; `NoCode` when the symbol
has none (R191, R192). -/
def execEncSym (x : Byte) (s : State) : Result :=
  whenUnlocked s <| requireFlag s.ctv s <|
    match symGet s.ct x with
    | none => raise .noCode s
    | some w => succeed 0#16 (lenResult w.length) (emitBits w s)

end Sys2Proof.Machine
end

