-- ==== Sys2Proof/Machine/Frequency.lean ====
section
/-! DEFINITION. The frequency-table commands `FT_CLR`, `FT_INC`, `FT_RD` (40_frequency.md). -/

namespace Sys2Proof.Machine

/-- `FT_CLR`: every count becomes 0 (R101). -/
def execFtClr (s : State) : Result :=
  whenUnlocked s (succeed 0#16 0#32 { s with ft := Vector.replicate 256 0#32 })

/-- `FT_INC s`: the count of the symbol rises by one, or `CountOverflow` when it is `CMAX` already (R102). -/
def execFtInc (x : Byte) (s : State) : Result :=
  whenUnlocked s <|
    if (symGet s.ft x).toNat = Config.cmax then raise .countOverflow s
    else succeed 0#16 0#32 { s with ft := symSet s.ft x (symGet s.ft x + 1#32) }

/-- `FT_RD s`: responds with the count of the symbol (R103). -/
def execFtRd (x : Byte) (s : State) : Result :=
  whenUnlocked s (succeed 0#16 (symGet s.ft x) s)

end Sys2Proof.Machine
end

