-- ==== Sys2Proof/Machine/Flags.lean ====
section
/-! DEFINITION. Flags. The derived flags and the status word `STATW` (10_state.md R34, R36, R37), and the flag changes that a new
tree makes (R28, R31, R33). The block has no arithmetic condition codes (R36). -/

namespace Sys2Proof.Machine

/-- `DMID`, a code word is in progress: `ROOTV = 1 and (DNODE ≠ ROOT or DDEAD = 1)` (R34). -/
def dmid (s : State) : Bool := s.rootv && (s.dnode != s.root || s.ddead)

/-- `ROOTLEAF`, the tree is degenerate: 1 when `ROOTV` = 1 and `TM[ROOT].leaf` = 1, else 0 (R37; log entry 5). -/
def rootLeaf (s : State) : Bool :=
  s.rootv && (match readNode s.tm s.root with | some (.leaf _) => true | _ => false)

/-- The `DDEAD` bit of the status word: 0 whatever `DDEAD` holds while `ROOTV` = 0 (48_system.md R242; log entry 4). -/
def deadBit (s : State) : Bool := s.rootv && s.ddead

/-- The status word: [7:0] `ERR`, [8] `ROOTV`, [9] `CTV`, [10] `DMID`, [11] `DDEAD`, [12] `ROOTLEAF`, [31:13] 0 (R37). -/
def statw (s : State) : BitVec 32 :=
  0#19 ++ BitVec.ofBool (rootLeaf s) ++ BitVec.ofBool (deadBit s) ++ BitVec.ofBool (dmid s) ++
    BitVec.ofBool s.ctv ++ BitVec.ofBool s.rootv ++ s.err

/-- A successful `TB_BUILD` or `HD_PARSE` leaves a tree `tm` with root `r`: `ROOTV` <- 1, `CTV` <- 0, and the decoder stands at the
new root with an empty candidate (42_tree_builder.md R141, 43_header_codec.md R155). -/
def installTree (tm : List Node) (r : NodeId) (s : State) : State :=
  { s with tm := tm, root := r, rootv := true, ctv := false, dnode := r, ddead := false }

end Sys2Proof.Machine
end

