-- ==== Sys2Proof/Machine/HeaderCodec.lean ====
section
/-! DEFINITION. The header codec: `HD_CLR`, `HD_WR`, `HD_PARSE`, `HD_SER`, `HD_LEN` (43_header_codec.md). -/

namespace Sys2Proof.Machine

/-- `parse(pos)` of R155, with the cursor held as the remaining string `HB[pos..HLEN-1]`: the node id of the tree parsed, the string
after it and the node memory. An Internal node takes its id before its children, which are filled in at the closing `)`.
Each level of the recursion consumes at least one byte, so `k` = the number of bytes left is enough; at `k` = 0 no byte is
left and a tree must begin, which is `FormatError`. -/
def parse : Nat → List Byte → List Node → Except ErrKind (NodeId × List Byte × List Node)
  | 0, _, _ => .error .formatError
  | _ + 1, [], _ => .error .formatError
  | k + 1, c :: str, tm =>
    if c = Config.dot then
      match str with
      | [] => .error .formatError
      | x :: rest => do
        let (n, tm) ← alloc (.leaf x) tm
        .ok (n, rest, tm)
    else if c = Config.lpar then do
      let (n, tm) ← alloc (.internal 0#9 0#9) tm
      let (z, p1, tm) ← parse k str tm
      let (o, p2, tm) ← parse k p1 tm
      match p2 with
      | [] => .error .formatError
      | close :: rest =>
        if close = Config.rpar then .ok (n, rest, tm.set n.toNat (.internal z o))
        else .error .formatError
    else .error .formatError

/-- The whole header parsed from a fresh node memory; bytes left over are a `FormatError` (R155, R162). -/
def parseHeader (h : List Byte) : Except ErrKind (NodeId × List Node) := do
  let (r, rest, tm) ← parse h.length h []
  if rest.isEmpty then .ok (r, tm) else .error .formatError

/-- `HD_CLR`: the header buffer becomes empty (R157). -/
def execHdClr (s : State) : Result :=
  whenUnlocked s (succeed 0#16 0#32 { s with hb := [] })

/-- `HD_WR s`: appends one byte, or `CapacityError` when the buffer holds 1022 (R158). -/
def execHdWr (x : Byte) (s : State) : Result :=
  whenUnlocked s <|
    if Config.hbmax ≤ s.hb.length then raise .capacityError s
    else succeed 0#16 0#32 { s with hb := s.hb ++ [x] }

/-- `HD_PARSE`: the tree that the header buffer describes replaces the present one, or the fault that the parse raises (R155). -/
def execHdParse (s : State) : Result :=
  whenUnlocked s <|
    match parseHeader s.hb with
    | .error k => raise k s
    | .ok (r, tm) => succeed 0#16 (lenResult tm.length) (installTree tm r s)

/-- `HD_SER`: the header of the present tree is put into the buffer and emitted on `HDROUT` (R152). -/
def execHdSer (s : State) : Result :=
  whenUnlocked s <| requireFlag s.rootv s <|
    match s.tree with
    | none => .fault .brokenTree
    | some t => succeed 0#16 (lenResult t.ser.length) (emitHdr t.ser { s with hb := t.ser })

/-- `HD_LEN`: responds with `HLEN` (R159). -/
def execHdLen (s : State) : Result :=
  whenUnlocked s (succeed 0#16 (lenResult s.hb.length) s)

end Sys2Proof.Machine
end

