-- ==== Sys2Proof/Machine/PriorityQueue.lean ====
section
/-! DEFINITION. The priority-queue commands `PQ_CLR`, `PQ_PUSH`, `PQ_POP`, `PQ_LEN` (41_priority_queue.md). -/

namespace Sys2Proof.Machine

/-- `PQ_CLR`: the queue becomes empty (R113). -/
def execPqClr (s : State) : Result :=
  whenUnlocked s (succeed 0#16 0#32 { s with pq := [] })

/-- `PQ_PUSH pay, prio`: inserts one entry, or `CapacityError` when the queue holds 256 (R114). -/
def execPqPush (pay : NodeId) (prio : Count) (s : State) : Result :=
  whenUnlocked s <|
    if Config.pqcap ≤ s.pq.length then raise .capacityError s
    else succeed 0#16 0#32 { s with pq := pqInsert ⟨prio, pay⟩ s.pq }

/-- `PQ_POP`: removes the entry of slot 0 and responds with it, or `QueueEmpty` (R115). -/
def execPqPop (s : State) : Result :=
  whenUnlocked s <|
    match pqPop s.pq with
    | none => raise .queueEmpty s
    | some (e, q) => succeed (payResult e.pay) e.prio { s with pq := q }

/-- `PQ_LEN`: responds with `PQLEN` (R116). -/
def execPqLen (s : State) : Result :=
  whenUnlocked s (succeed 0#16 (lenResult s.pq.length) s)

end Sys2Proof.Machine
end

