-- ==== Sys2Proof/Machine/System.lean ====
section
/-! DEFINITION. The system commands `RST` and `STAT` (48_system.md), the only ones performed while the block is locked. -/

namespace Sys2Proof.Machine

/-- `RST`: the block's state becomes the reset state; performed whether or not the block is locked (R241, R281 step 1). -/
def execRst (s : State) : Result := succeed 0#16 0#32 (clearBlock s)

/-- `STAT`: responds with the status word; performed whether or not the block is locked (R242, R281 step 1). -/
def execStat (s : State) : Result := succeed 0#16 (statw s) s

end Sys2Proof.Machine
end

