-- ==== Sys2Proof/Machine/TreeBuilder.lean ====
section
/-! DEFINITION. The tree builder, `TB_BUILD` (42_tree_builder.md), written for any tie-break of the queue and any order of the seeds, and
taken at the ones of this block (41_priority_queue.md R112, 42_tree_builder.md R133, 49_properties.md R255). -/

namespace Sys2Proof.Machine

/-- The two choices that HUF leaves open: where `pq_insert` puts a new entry among entries of equal priority, and in which order the seeds
are inserted (R112, R133). -/
structure TieBreak where
  /-- `pq_insert` on the list view of the queue. -/
  insert : PQEntry → List PQEntry → List PQEntry
  /-- The symbols in the order in which the seeding loop looks at them. -/
  seeds  : List Byte

/-- The choices of this block: first in, first out, and ascending symbol value (R111, R112, R133). -/
def blockTieBreak : TieBreak := ⟨pqInsert, symbols⟩

/-- What `TB_BUILD` works on: the node memory and the queue, both started afresh (R132). -/
structure Build where
  tm : List Node
  pq : List PQEntry
  deriving DecidableEq, Repr

/-- The seeding loop over the symbols `xs`: one Leaf, keyed by its count, for each symbol with a nonzero count (R132, R133). -/
def seed (tb : TieBreak) (ft : SymTable Count) : List Byte → Build → Except ErrKind Build
  | [], b => .ok b
  | x :: xs, b =>
    if symGet ft x = 0#32 then seed tb ft xs b
    else do
      let (n, tm) ← alloc (.leaf x) b.tm
      seed tb ft xs ⟨tm, tb.insert ⟨symGet ft x, n⟩ b.pq⟩

/-- The merge loop `while PQLEN > 1`: the first entry removed becomes the zero-child, the second the one-child, and the new node is
inserted with the exact sum of the two priorities, or `CountOverflow` (R132, R135, R139). Every iteration lowers `PQLEN` by
one, so `k` = `PQLEN` iterations are enough. -/
def merge (tb : TieBreak) : Nat → Build → Except ErrKind Build
  | 0, b => .ok b
  | k + 1, b =>
    match pqPop b.pq with
    | none => .ok b
    | some (e1, q1) =>
      match pqPop q1 with
      | none => .ok b
      | some (e2, q2) =>
        if Config.cmax < e1.prio.toNat + e2.prio.toNat then .error .countOverflow
        else do
          let (m, tm) ← alloc (.internal e1.pay e2.pay) b.tm
          merge tb k ⟨tm, tb.insert ⟨e1.prio + e2.prio, m⟩ q2⟩

/-- The whole construction from a frequency table: the node memory, the queue and the root it ends with, or the fault that it
raises (R132, R134). The last branch, an empty queue after seeding, cannot be reached once some count is nonzero. -/
def buildTree (tb : TieBreak) (ft : SymTable Count) : Except ErrKind (Build × NodeId) :=
  if symbols.all (fun x => symGet ft x = 0#32) then .error .emptyInput
  else do
    let b ← seed tb ft tb.seeds ⟨[], []⟩
    let b ← merge tb b.pq.length b
    match b.pq with
    | [] => .error .emptyInput
    | e :: _ => .ok (b, e.pay)

/-- `TB_BUILD` under a tie-break: builds the tree of the present counts, leaves its root's entry in the queue, and responds with `NCNT`
(R132, R136, R141). -/
def execTbBuildWith (tb : TieBreak) (s : State) : Result :=
  whenUnlocked s <|
    match buildTree tb s.ft with
    | .error k => raise k s
    | .ok (b, r) => succeed 0#16 (lenResult b.tm.length) { installTree b.tm r s with pq := b.pq }

/-- `TB_BUILD`, with the choices of this block (R132). -/
def execTbBuild (s : State) : Result := execTbBuildWith blockTieBreak s

end Sys2Proof.Machine
end

