-- ==== Sys2Proof/Machine/Dispatch.lean ====
section
/-! DEFINITION. One arm per command, each one direct call of the command's meaning. -/

namespace Sys2Proof.Machine

def exec (i : Instr) (s : State) : Host.Outcome State Fault Refusal :=
  match i with
  | .rst => Sys2Proof.Machine.execRst s
  | .stat => Sys2Proof.Machine.execStat s
  | .ftClr => Sys2Proof.Machine.execFtClr s
  | .ftInc x => Sys2Proof.Machine.execFtInc x s
  | .ftRd x => Sys2Proof.Machine.execFtRd x s
  | .pqClr => Sys2Proof.Machine.execPqClr s
  | .pqPush pay prio => Sys2Proof.Machine.execPqPush pay prio s
  | .pqPop => Sys2Proof.Machine.execPqPop s
  | .pqLen => Sys2Proof.Machine.execPqLen s
  | .tbBuild => Sys2Proof.Machine.execTbBuild s
  | .hdClr => Sys2Proof.Machine.execHdClr s
  | .hdWr x => Sys2Proof.Machine.execHdWr x s
  | .hdParse => Sys2Proof.Machine.execHdParse s
  | .hdSer => Sys2Proof.Machine.execHdSer s
  | .hdLen => Sys2Proof.Machine.execHdLen s
  | .ctBuild => Sys2Proof.Machine.execCtBuild s
  | .ctLen x => Sys2Proof.Machine.execCtLen x s
  | .encSym x => Sys2Proof.Machine.execEncSym x s
  | .decBit b => Sys2Proof.Machine.execDecBit b s
  | .decEos => Sys2Proof.Machine.execDecEos s

end Sys2Proof.Machine
end

