-- ==== Sys2Proof/Machine/Port.lean ====
section
/-! DEFINITION. The command port: how the next input reaches the block (00_scope.md R6, 30_encoding.md R79), and how the
host presents commands. -/

namespace Sys2Proof.Machine

/-- The next input of the host and the state after the port has taken it; none while the host presents nothing. -/
def takeInput (s : State) : Option (PortEvent × State) :=
  match s.input with
  | [] => none
  | e :: rest => some (e, { s with input := rest })

/-- The host presents the word `w` next, before anything it meant to present later. -/
def presentWord (w : CmdWord) (s : State) : State := { s with input := .cmd w :: s.input }

end Sys2Proof.Machine
end

