-- ==== Sys2Proof/Machine/Step.lean ====
section
/-! DEFINITION. One step: the block takes the next input of the host and performs it completely (00_scope.md R6). -/

namespace Sys2Proof.Machine

/-- One step. With no input presented the block waits, all state kept (60_exceptions.md R295). A legal word is performed by `exec`,
an illegal one by `illegalWord` (R281). The hardware reset input leaves the reset state and returns no response (70_reset_and_hazards.md
R301). -/
def step (s : State) : Host.Outcome State Fault Refusal :=
  match takeInput s with
  | none => .next s
  | some (.hardReset, s') => .next (clearBlock s')
  | some (.cmd w, s') =>
    match decode w with
    | some i => exec i s'
    | none => illegalWord s'

/-- The state `s` with one command word presented at the port, where `step` takes its next command (log entry 3). -/
def State.withFetchWord (s : State) (_nbits w : Nat) : State := presentWord (BitVec.ofNat 64 w) s

end Sys2Proof.Machine
end

