-- ==== Sys2Proof/Machine/Reference.lean ====
section
/-! DEFINITION. HUF's own decoder loop, the reference against which the hardware walk is held (46_decoder.md R200). It is not
part of the block: the candidate and the DecodeTable are views (10_state.md R34, R35). -/

namespace Sys2Proof.Machine

/-- The reference loop's state: the candidate and the symbols emitted so far (R200). -/
structure HufLoop where
  cand : List Digit
  out  : List Byte
  deriving DecidableEq, Repr

/-- `DT[cand]`: the symbol that a bit-string is the code word of, if it is one (R35). -/
def lookupCode (t : CodeTree) (cand : List Digit) : Option Byte := t.codeWords.lookup cand

/-- The reference loop on one digit: append it; if the candidate is a key of the DecodeTable, emit and start again (R200). -/
def hufDigit (t : CodeTree) (l : HufLoop) (b : Digit) : HufLoop :=
  match lookupCode t (l.cand ++ [b]) with
  | some x => ⟨[], l.out ++ [x]⟩
  | none => ⟨l.cand ++ [b], l.out⟩

/-- The reference loop on a digit sequence. -/
def hufLoop (t : CodeTree) (l : HufLoop) (ds : List Digit) : HufLoop := ds.foldl (hufDigit t) l

end Sys2Proof.Machine
end

