-- ==== Sys2Proof/Machine/Sequences.lean ====
section
/-! DEFINITION. The host sequences of 47_sequences.md: the four pseudo-instructions, each the list of commands it expands to
(30_encoding.md R84), and how the host runs a sequence. The block knows only the 20 commands. -/

namespace Sys2Proof.Machine

/-- `HD_LOAD "h"`: `HD_CLR`, then one `HD_WR` per byte (R224). -/
def hdLoad (h : List Byte) : List Instr := .hdClr :: h.map .hdWr

/-- `COMPRESS S`: count every byte, build the tree, write the header, derive the table, encode every byte (R221). -/
def compress (bytes : List Byte) : List Instr :=
  [.rst] ++ bytes.map .ftInc ++ [.tbBuild, .hdSer, .ctBuild] ++ bytes.map .encSym

/-- `DECOMPRESS "h", d`: load and parse the header, decode every digit, end the stream (R226). -/
def decompress (h : List Byte) (d : List Digit) : List Instr :=
  [.rst] ++ hdLoad h ++ [.hdParse] ++ d.map .decBit ++ [.decEos]

/-- `ENCODE_WITH "h", S`: load and parse a received header, derive its table, encode every byte (R229). -/
def encodeWith (h bytes : List Byte) : List Instr :=
  [.rst] ++ hdLoad h ++ [.hdParse, .ctBuild] ++ bytes.map .encSym

/-- What the host has when a run of a sequence ends: the block's state, and the failure kind it reports to its caller, none when every
response was `ST_OK` (R220, R232). -/
structure RunReport where
  state   : State
  failure : Option (BitVec 8)
  deriving DecidableEq, Repr

/-- The outcome of a run. -/
abbrev RunResult := Host.Outcome RunReport Fault Refusal

/-- The failure kind of the last response: its `ST` when that is not `ST_OK` (R220, 30_encoding.md R76). -/
def State.lastFailure (s : State) : Option (BitVec 8) :=
  match s.rspout.getLast? with
  | none => none
  | some r => if statusField r = stOk then none else some (statusField r)

/-- The host's run of a sequence: each command after the response of the one before, ended by the first response with `ST` ≠ 0x00 or by the
last response (R220, R232). `perform` is how one command is sent and answered. -/
def hostRun (perform : Instr → State → Result) : List Instr → State → RunResult
  | [], s => .next ⟨s, none⟩
  | i :: is, s =>
    match perform i s with
    | .next t =>
      match t.lastFailure with
      | none => hostRun perform is t
      | some k => .next ⟨t, some k⟩
    | .fault f => .fault f
    | .refused r => .refused r

/-- A run in which every command is its meaning. -/
def performAll : List Instr → State → RunResult := hostRun exec

/-- The host presents the word of one command and the block takes one step (R220, 00_scope.md R6). -/
def sendCommand (i : Instr) (s : State) : Result := step (presentWord (encode i) s)

/-- A run on the block itself: each command is presented at the port as its word, and the block steps (R220). -/
def runSequence : List Instr → State → RunResult := hostRun sendCommand

/-- A command on a block with another tie-break, which shows in `TB_BUILD` only (49_properties.md R255). -/
def execWith (tb : TieBreak) (i : Instr) (s : State) : Result := if i = .tbBuild then execTbBuildWith tb s else exec i s

end Sys2Proof.Machine
end

