-- ==== Sys2Proof/WellFormed.lean ====
section
/-! DEFINITION. Which command words are legal, said twice and independently of the decoder: by the fields and formats of
30_encoding.md R70, R71, R73 (`RawCmd.wellFormed`), and by the match/mask rows of R74 (`opcodeRows`). The operands of an
`Instr` have exactly the widths of R72, so every term of `Instr` is well formed; what can be ill formed is a word. -/

namespace Sys2Proof

/-- The opcodes with their formats, in the order of the opcode map (R74). -/
def opcodeFormats : List (BitVec 8 × Format) :=
  [(0x01#8, .n), (0x02#8, .n), (0x10#8, .n), (0x11#8, .s), (0x12#8, .s)] ++
  [(0x20#8, .n), (0x21#8, .p), (0x22#8, .n), (0x23#8, .n), (0x30#8, .n)] ++
  [(0x40#8, .n), (0x41#8, .s), (0x42#8, .n), (0x43#8, .n), (0x44#8, .n)] ++
  [(0x50#8, .n), (0x51#8, .s), (0x60#8, .s), (0x70#8, .b), (0x71#8, .n)]

/-- The format that an opcode selects, or none when the opcode is not in the map (R74, R80). -/
def formatOf (op : BitVec 8) : Option Format := opcodeFormats.lookup op

/-- Check 1 of R73: `OP` is one of the 20 opcodes. -/
def RawCmd.opKnown (c : RawCmd) : Bool := (formatOf c.op).isSome

/-- Check 2 of R73: `RSV` = 0. -/
def RawCmd.rsvZero (c : RawCmd) : Bool := c.rsv.toNat = 0

/-- Check 3 of R73: the bits of `A` above the operand of the format are 0 (R71). -/
def RawCmd.aInRange (c : RawCmd) : Bool :=
  match formatOf c.op with
  | some .n => c.a.toNat < 1
  | some .s => c.a.toNat < 256
  | some .b => c.a.toNat < 2
  | some .p => c.a.toNat < 512
  | none => false

/-- Check 4 of R73: `D` is 0 unless the format carries a priority in it (R71). -/
def RawCmd.dInRange (c : RawCmd) : Bool :=
  match formatOf c.op with
  | some .p => true
  | some _ => c.d.toNat = 0
  | none => false

/-- A command word is legal when all four checks pass (R73). -/
def RawCmd.wellFormed (c : RawCmd) : Bool := c.opKnown && c.rsvZero && c.aInRange && c.dInRange

/-- The fields of a word, cut out by place value: `OP` is bits 63:56, `RSV` 55:48, `A` 47:32, `D` 31:0 (R70). -/
def RawCmd.ofWord (w : CmdWord) : RawCmd where
  op  := BitVec.ofNat 8 (w.toNat / 2 ^ 56)
  rsv := BitVec.ofNat 8 (w.toNat / 2 ^ 48)
  a   := BitVec.ofNat 16 (w.toNat / 2 ^ 32)
  d   := BitVec.ofNat 32 w.toNat

/-- One row of the opcode map: a word `w` is this command exactly when `w & mask = match` (R74). -/
structure OpcodeRow where
  mnemonic : String
  pattern  : CmdWord
  mask     : CmdWord
  deriving DecidableEq, Repr

/-- The opcode map, row for row as R74 and spec/opcode_table.json give it. -/
def opcodeRows : List OpcodeRow :=
  [ ⟨"RST",      0x0100000000000000#64, 0xFFFFFFFFFFFFFFFF#64⟩,
    ⟨"STAT",     0x0200000000000000#64, 0xFFFFFFFFFFFFFFFF#64⟩,
    ⟨"FT_CLR",   0x1000000000000000#64, 0xFFFFFFFFFFFFFFFF#64⟩,
    ⟨"FT_INC",   0x1100000000000000#64, 0xFFFFFF00FFFFFFFF#64⟩,
    ⟨"FT_RD",    0x1200000000000000#64, 0xFFFFFF00FFFFFFFF#64⟩ ] ++
  [ ⟨"PQ_CLR",   0x2000000000000000#64, 0xFFFFFFFFFFFFFFFF#64⟩,
    ⟨"PQ_PUSH",  0x2100000000000000#64, 0xFFFFFE0000000000#64⟩,
    ⟨"PQ_POP",   0x2200000000000000#64, 0xFFFFFFFFFFFFFFFF#64⟩,
    ⟨"PQ_LEN",   0x2300000000000000#64, 0xFFFFFFFFFFFFFFFF#64⟩,
    ⟨"TB_BUILD", 0x3000000000000000#64, 0xFFFFFFFFFFFFFFFF#64⟩ ] ++
  [ ⟨"HD_CLR",   0x4000000000000000#64, 0xFFFFFFFFFFFFFFFF#64⟩,
    ⟨"HD_WR",    0x4100000000000000#64, 0xFFFFFF00FFFFFFFF#64⟩,
    ⟨"HD_PARSE", 0x4200000000000000#64, 0xFFFFFFFFFFFFFFFF#64⟩,
    ⟨"HD_SER",   0x4300000000000000#64, 0xFFFFFFFFFFFFFFFF#64⟩,
    ⟨"HD_LEN",   0x4400000000000000#64, 0xFFFFFFFFFFFFFFFF#64⟩ ] ++
  [ ⟨"CT_BUILD", 0x5000000000000000#64, 0xFFFFFFFFFFFFFFFF#64⟩,
    ⟨"CT_LEN",   0x5100000000000000#64, 0xFFFFFF00FFFFFFFF#64⟩,
    ⟨"ENC_SYM",  0x6000000000000000#64, 0xFFFFFF00FFFFFFFF#64⟩,
    ⟨"DEC_BIT",  0x7000000000000000#64, 0xFFFFFFFEFFFFFFFF#64⟩,
    ⟨"DEC_EOS",  0x7100000000000000#64, 0xFFFFFFFFFFFFFFFF#64⟩ ]

end Sys2Proof
end

