-- ==== Sys2Proof/Safety.lean ====
section
/-! DEFINITION. The terms that claims use: the tree invariant `WF` of 10_state.md R29, said through the tree value and again clause by
clause; the invariant `Inv` that every step keeps; and the classes of commands of the whole-machine rules. -/

namespace Sys2Proof

open Machine

/-! Classes of commands. -/

/-- The commands that are performed while the block is locked (60_exceptions.md R280). -/
def Instr.accepted : Instr → Bool
  | .rst | .stat => true
  | .ftClr | .ftInc _ | .ftRd _ | .pqClr | .pqPush _ _ | .pqPop | .pqLen | .tbBuild | .hdClr | .hdWr _ | .hdParse
  | .hdSer | .hdLen | .ctBuild | .ctLen _ | .encSym _ | .decBit _ | .decEos => false

/-- The commands that read and change no state (20_memory.md R58). -/
def Instr.readOnly : Instr → Bool
  | .stat | .ftRd _ | .pqLen | .hdLen | .ctLen _ => true
  | .rst | .ftClr | .ftInc _ | .pqClr | .pqPush _ _ | .pqPop | .tbBuild | .hdClr | .hdWr _
  | .hdParse | .hdSer | .ctBuild | .encSym _ | .decBit _ | .decEos => false

/-- The commands that need a tree, `ROOTV` = 1 (60_exceptions.md R273). -/
def Instr.needsTree : Instr → Bool
  | .hdSer | .ctBuild | .decBit _ | .decEos => true
  | .rst | .stat | .ftClr | .ftInc _ | .ftRd _ | .pqClr | .pqPush _ _ | .pqPop | .pqLen | .tbBuild
  | .hdClr | .hdWr _ | .hdParse | .hdLen | .ctLen _ | .encSym _ => false

/-- The commands that need a code table, `CTV` = 1 (60_exceptions.md R273). -/
def Instr.needsTable : Instr → Bool
  | .ctLen _ | .encSym _ => true
  | .rst | .stat | .ftClr | .ftInc _ | .ftRd _ | .pqClr | .pqPush _ _ | .pqPop | .pqLen | .tbBuild | .hdClr
  | .hdWr _ | .hdParse | .hdSer | .hdLen | .ctBuild | .decBit _ | .decEos => false

/-- The commands that are idempotent as to state while they succeed (20_memory.md R58). -/
def Instr.idempotent : Instr → Bool
  | .ftClr | .pqClr | .hdClr | .rst | .ctBuild | .tbBuild | .hdParse => true
  | .stat | .ftInc _ | .ftRd _ | .pqPush _ _ | .pqPop | .pqLen | .hdWr _ | .hdSer
  | .hdLen | .ctLen _ | .encSym _ | .decBit _ | .decEos => false

/-- The queue commands of the host (41_priority_queue.md R119). -/
def Instr.onQueue : Instr → Bool
  | .pqClr | .pqPush _ _ | .pqPop | .pqLen => true
  | .rst | .stat | .ftClr | .ftInc _ | .ftRd _ | .tbBuild | .hdClr | .hdWr _ | .hdParse | .hdSer
  | .hdLen | .ctBuild | .ctLen _ | .encSym _ | .decBit _ | .decEos => false

/-- The faults a command can raise (60_exceptions.md R275). -/
def Instr.faults : Instr → List ErrKind
  | .ftInc _ => [.countOverflow]
  | .pqPush _ _ => [.capacityError]
  | .pqPop => [.queueEmpty]
  | .tbBuild => [.emptyInput, .countOverflow]
  | .hdWr _ => [.capacityError]
  | .hdParse => [.formatError, .capacityError]
  | .hdSer => [.seqError]
  | .ctBuild => [.seqError, .dupSymbol]
  | .ctLen _ => [.seqError]
  | .encSym _ => [.seqError, .noCode]
  | .decBit _ => [.seqError]
  | .decEos => [.seqError, .truncatedStream]
  | .rst | .stat | .ftClr | .ftRd _ | .pqClr | .pqLen | .hdClr | .hdLen => []

end Sys2Proof

namespace Sys2Proof.Machine

/-- The node memory holds the tree `t` at node id `n`, in the entries `ids` (R13, R27). -/
def Holds (tm : List Node) : CodeTree → NodeId → List Nat → Prop
  | .leaf x, n, ids => readNode tm n = some (.leaf x) ∧ ids = [n.toNat]
  | .internal z o, n, ids =>
    ∃ nz no iz io, readNode tm n = some (.internal nz no) ∧ Holds tm z nz iz ∧ Holds tm o no io ∧
      ids = n.toNat :: (iz ++ io)

/-- `TM[0..NCNT-1]` and the root `r` hold the complete tree `t`: every entry belongs to it exactly once, and it has at most 256 leaves
(R28, R29). -/
def HoldsTree (tm : List Node) (r : NodeId) (t : CodeTree) : Prop :=
  ∃ ids, Holds tm t r ids ∧ ids.Perm (List.range tm.length) ∧ t.leafCount ≤ 256

/-- The tree invariant `WF` (R29). -/
def TreeWF (tm : List Node) (r : NodeId) : Prop := ∃ t, HoldsTree tm r t

/-- The queue is sorted: priorities do not decrease with the slot number (R25). -/
def QueueSorted (q : List PQEntry) : Prop := q.Pairwise (fun e f => e.prio ≤ f.prio)

/-- A tie-break that HUF allows: in a sorted queue the new entry stands after entries of lower or equal priority and before entries of
higher or equal priority, wherever among the equal ones; and every symbol is seeded once, in whatever order (49_properties.md R255). -/
def TieBreak.Lawful (tb : TieBreak) : Prop :=
  (∀ (e : PQEntry) (q : List PQEntry), QueueSorted q →
    ∃ l r, q = l ++ r ∧ tb.insert e q = l ++ e :: r ∧ (∀ f ∈ l, f.prio ≤ e.prio) ∧ ∀ f ∈ r, e.prio ≤ f.prio) ∧
  tb.seeds.Perm symbols

/-- `ERR` is 0 or the code of a fault kind that some command raises (60_exceptions.md R270, 93_implementation_defined.md U7). -/
def ErrLegal (e : BitVec 8) : Prop := e = 0#8 ∨ ∃ k : ErrKind, k ≠ .duplicateCode ∧ e = k.code

/-- The decoder's place in a tree: at the root of a degenerate tree; else alive and at an Internal node (46_decoder.md R206, R207). -/
def DecoderOk (s : State) : Prop :=
  match readNode s.tm s.root with
  | some (.leaf _) => s.dnode = s.root
  | _ => s.ddead = false ∧ ∃ z o, readNode s.tm s.dnode = some (.internal z o)

/-- The invariant of the block, which every step keeps (R23, R25, R27 to R33, R207). -/
structure Inv (s : State) : Prop where
  /-- `ERR` holds 0 or a code (R23, R270). -/
  errLegal : ErrLegal s.err
  /-- The queue is sorted (R25). -/
  pqSorted : QueueSorted s.pq
  /-- `PQLEN` ≤ 256 (R25). -/
  pqFits : s.pq.length ≤ Config.pqcap
  /-- `NCNT` ≤ 511 (R27). -/
  tmFits : s.tm.length ≤ Config.nnode
  /-- `HLEN` ≤ 1022 (R30). -/
  hbFits : s.hb.length ≤ Config.hbmax
  /-- While `ROOTV` = 0 there is no node, no code table and no code word in progress (R28, R31, R40). -/
  noTree : s.rootv = false → s.tm = [] ∧ s.root = 0#9 ∧ s.ctv = false ∧ s.dnode = 0#9 ∧ s.ddead = false
  /-- While `ROOTV` = 1 the tree invariant holds (R29). -/
  treeOk : s.rootv = true → TreeWF s.tm s.root
  /-- While `CTV` = 1 the code table is the one of the present tree (R31, R32). -/
  tableOk : s.ctv = true → ∃ t, s.tree = some t ∧ buildTable t = .ok s.ct
  /-- While `ROOTV` = 1 the decoder stands where R206 and R207 say. -/
  decoderOk : s.rootv = true → DecoderOk s

/-! The clauses of R29, each in the rule's own terms. -/

/-- The node reached from `n` by the branch choices of a bit-string (R13). -/
def followPath (tm : List Node) : NodeId → List Digit → Option NodeId
  | n, [] => if n.toNat < tm.length then some n else none
  | n, b :: p =>
    match readNode tm n with
    | some (.internal z o) => followPath tm (if b then o else z) p
    | _ => none

/-- The child fields of all Internal nodes, zero-child before one-child. -/
def childIds (tm : List Node) : List Nat :=
  tm.flatMap (fun v => match v with | .leaf _ => [] | .internal z o => [z.toNat, o.toNat])

/-- The number of Leaf entries. -/
def leafEntries (tm : List Node) : Nat :=
  tm.countP (fun v => match v with | .leaf _ => true | .internal _ _ => false)

/-- The nodes of a tree in pre-order, the first one at id `base`: how `HD_PARSE` numbers them (92_eei_decisions.md D6). -/
def CodeTree.layout : CodeTree → Nat → List Node
  | .leaf x, _ => [.leaf x]
  | .internal z o, base =>
    .internal (BitVec.ofNat 9 (base + 1)) (BitVec.ofNat 9 (base + 1 + z.nodeCount)) ::
      (z.layout (base + 1) ++ o.layout (base + 1 + z.nodeCount))

/-- The sum of all counts (10_state.md R24). -/
def totalCount (ft : SymTable Count) : Nat := (symbols.map (fun x => (symGet ft x).toNat)).sum

/-- The symbols of the frequency table: those with a nonzero count, in ascending order (R24, 42_tree_builder.md R130, R133). -/
def presentSyms (ft : SymTable Count) : List Byte := symbols.filter (fun x => symGet ft x ≠ 0#32)

/-- The weight of a tree: the sum of the counts of its leaves' symbols (42_tree_builder.md R140). -/
def CodeTree.weight (ft : SymTable Count) (t : CodeTree) : Nat := (t.leafSyms.map (fun x => (symGet ft x).toNat)).sum

/-! The order of the merges, read off the finished node memory (42_tree_builder.md R132, R136, R139, R140). -/

/-- Node `n` is a child of an Internal node whose id is below `m`. -/
def takenBelow (tm : List Node) (m n : Nat) : Prop :=
  ∃ j z o, j < m ∧ tm[j]? = some (.internal z o) ∧ (z.toNat = n ∨ o.toNat = n)

/-- Node `n` stood in the queue when node `m` was allocated: it had been allocated and was no child yet. -/
def waitingAt (tm : List Node) (m n : Nat) : Prop := n < m ∧ ¬ takenBelow tm m n

/-- Which of two queue entries is removed first: the one of lower weight, at equal weight the one inserted earlier, which has the
smaller node id (41_priority_queue.md R112, 42_tree_builder.md R131). -/
def removedBefore (weight : Nat → Nat) (n k : Nat) : Prop := weight n < weight k ∨ (weight n = weight k ∧ n < k)

/-- Every Internal node joins the two first of the nodes that waited when it was allocated, the first removed as its zero-child;
a node's weight is its symbol's count or the sum of its children's weights (42_tree_builder.md R132, R139, R140). -/
def GreedyMerges (ft : SymTable Count) (tm : List Node) : Prop :=
  ∃ weight : Nat → Nat,
    (∀ n x, tm[n]? = some (.leaf x) → weight n = (symGet ft x).toNat) ∧
    (∀ n z o, tm[n]? = some (.internal z o) → weight n = weight z.toNat + weight o.toNat) ∧
    ∀ m z o, tm[m]? = some (.internal z o) →
      waitingAt tm m z.toNat ∧ waitingAt tm m o.toNat ∧ removedBefore weight z.toNat o.toNat ∧
      ∀ n, waitingAt tm m n → n = z.toNat ∨ n = o.toNat ∨ removedBefore weight o.toNat n

/-! How claims write the end of a command. -/

/-- The state after a successful response with the result fields `a` and `d` (30_encoding.md R75, R76). -/
def State.answered (s : State) (a : BitVec 16) (d : BitVec 32) : State :=
  { s with rspout := s.rspout ++ [rspWord 0x00#8 a d] }

/-- The state after a fault with the code `c`: `ERR` and the response carry the code, nothing else changes (60_exceptions.md R276,
R277). -/
def State.faulted (s : State) (c : BitVec 8) : State :=
  { s with err := c, rspout := s.rspout ++ [rspWord c 0#16 0#32] }

/-- The state after a refusal: `ST` = 0xFF and `ERR` in `D[7:0]` (60_exceptions.md R280). -/
def State.lockedOut (s : State) : State :=
  { s with rspout := s.rspout ++ [rspWord 0xFF#8 0#16 (s.err.setWidth 32)] }

/-- The block's own state of `s` (10_state.md R22) beside what `o` holds for the world outside: streams, responses, inputs. -/
def State.besideHostOf (s o : State) : State :=
  { s with hdrout := o.hdrout, bitout := o.bitout, symout := o.symout, rspout := o.rspout, input := o.input }

/-! What the header parser has consumed when it stops (43_header_codec.md R155, R161). -/

/-- A string at whose end a `tree` must begin: for each enclosing `(`, the bracket and then, when the zero-child is complete, that
child's text. -/
def openText : List (Option CodeTree) → List Byte
  | [] => []
  | none :: c => Config.lpar :: openText c
  | some z :: c => Config.lpar :: (z.ser ++ openText c)

/-- The nodes allocated while consuming `openText c`. -/
def openNodes : List (Option CodeTree) → Nat
  | [] => 0
  | none :: c => 1 + openNodes c
  | some z :: c => 1 + z.nodeCount + openNodes c

end Sys2Proof.Machine
end

