-- ==== Sys2Proof/Certificates/Slice0/Obligations.lean ====
section
/-! DEFINITION. The statements for the provers. `exec i s` is one command on the block in the state `s`; `step` takes the command word
from the port. An equation `exec i s = .next t` with `t` written as `{ s with … }` says every field: what is not named is
unchanged, all five arrays, the flags, the streams and the pending inputs included. `performAll is s` and `runSequence is s` are the host's
run of a sequence: `.next ⟨t, none⟩` when every response was `ST_OK`, `.next ⟨t, some k⟩` when the first other response, after which the host
stopped, had `ST` = `k` (47_sequences.md R220, R232). -/

open Sys2Proof Sys2Proof.Machine

/-! ## Encoding -/

/-- Decoding and encoding are inverse: a word decodes to a command exactly when it is that command's word (30_encoding.md R70 to R73). -/
def Obligations.DecodeInvertsEncode : Prop :=
  ∀ (w : CmdWord) (i : Instr), decode w = some i ↔ w = encode i

/-- R74: a word is the command of a row of the opcode map exactly when `w & mask = match`, and every legal word has a row. -/
def Obligations.OpcodeMapDecides : Prop :=
  (∀ row ∈ opcodeRows, ∀ w : CmdWord,
    w &&& row.mask = row.pattern ↔ ∃ i : Instr, decode w = some i ∧ i.mnemonic = row.mnemonic) ∧
  ∀ (w : CmdWord) (i : Instr), decode w = some i → ∃ row ∈ opcodeRows, row.mnemonic = i.mnemonic ∧ w &&& row.mask = row.pattern

/-- R73: the decoder accepts exactly the words that pass the four legality checks, said by the fields of the word. -/
def Obligations.LegalWordsDecode : Prop :=
  ∀ w : CmdWord,
    ((decode w).isSome = true ↔ (RawCmd.ofWord w).wellFormed = true) ∧
    (decode w = none ↔ (RawCmd.ofWord w).opKnown = false ∨ (RawCmd.ofWord w).rsvZero = false ∨
      (RawCmd.ofWord w).aInRange = false ∨ (RawCmd.ofWord w).dInRange = false)

/-- R72: every operand is a field of the word taken as it stands. -/
def Obligations.OperandsAreFields : Prop :=
  ∀ w : CmdWord,
    (∀ s : Byte, (decode w = some (.ftInc s) ∨ decode w = some (.ftRd s) ∨ decode w = some (.hdWr s) ∨
        decode w = some (.ctLen s) ∨ decode w = some (.encSym s)) → s.toNat = w.toNat / 2 ^ 32 % 256) ∧
    (∀ b : Digit, decode w = some (.decBit b) → b.toNat = w.toNat / 2 ^ 32 % 2) ∧
    (∀ (pay : NodeId) (prio : Count), decode w = some (.pqPush pay prio) →
      pay.toNat = w.toNat / 2 ^ 32 % 512 ∧ prio.toNat = w.toNat % 2 ^ 32)

/-- Words written out from the opcode map and the vectors of 95_test_vectors.md, one per family, and illegal neighbours. -/
def Obligations.SampleWordsDecode : Prop :=
  decode 0x0100000000000000#64 = some .rst ∧
  decode 0x1100006100000000#64 = some (.ftInc 0x61#8) ∧
  decode 0x2100000500000064#64 = some (.pqPush 5#9 100#32) ∧
  decode 0x3000000000000000#64 = some .tbBuild ∧
  decode 0x4100002800000000#64 = some (.hdWr 0x28#8) ∧
  decode 0x5100006200000000#64 = some (.ctLen 0x62#8) ∧
  decode 0x6000006200000000#64 = some (.encSym 0x62#8) ∧
  decode 0x7000000100000000#64 = some (.decBit true) ∧
  decode 0x0000000000000000#64 = none ∧ decode 0xFFFFFFFFFFFFFFFF#64 = none ∧
  decode 0x0101000000000000#64 = none ∧ decode 0x7000000200000000#64 = none ∧
  decode 0x2100020000000000#64 = none ∧ decode 0x1100010000000000#64 = none

/-! ## The step -/

/-- When the word at the port decodes to a command, a step takes the word and is that command; a presented word is at the port. That the
host's coming words are a list in the state is the model's choice (log entry 3). -/
def Obligations.StepRunsTheDecodedCommand : Prop :=
  (∀ (s : State) (w : CmdWord) (i : Instr) (rest : List PortEvent), s.input = .cmd w :: rest → decode w = some i →
    step s = exec i { s with input := rest }) ∧
  ∀ (s : State) (i : Instr) (n : Nat), step (s.withFetchWord n (encode i).toNat) = exec i s

/-- R281: exactly one outcome for every command word, the first that applies in the order performed, refused, illegal, out of
sequence, own pseudocode. R272 and R280 give the fault and the refusal. -/
def Obligations.CheckOrder : Prop :=
  ∀ (s : State) (w : CmdWord) (rest : List PortEvent), s.input = .cmd w :: rest →
    let s' := { s with input := rest }
    (decode w = some .rst → ∃ t, step s = .next t ∧ exec .rst s' = .next t ∧ t.err = 0#8) ∧
    (decode w = some .stat → ∃ d, step s = .next (s'.answered 0#16 d)) ∧
    (decode w ≠ some .rst → decode w ≠ some .stat → s.err ≠ 0#8 → step s = .next s'.lockedOut) ∧
    (s.err = 0#8 → decode w = none → step s = .next (s'.faulted 0x10#8)) ∧
    (∀ i, s.err = 0#8 → decode w = some i →
      (i.needsTree = true ∧ s.rootv = false ∨ i.needsTable = true ∧ s.ctv = false) → step s = .next (s'.faulted 0x11#8)) ∧
    (∀ i t, s.err = 0#8 → decode w = some i → (i.needsTree = true → s.rootv = true) → (i.needsTable = true → s.ctv = true) →
      step s = .next t → exec i s' = .next t ∧ t.err ≠ 0x10#8 ∧ t.err ≠ 0x11#8)

/-- While the host presents nothing every step keeps all state: the model's choice (log entry 7) for the block's waiting (60_exceptions.md
R295). -/
def Obligations.WaitingKeepsAllState : Prop :=
  ∀ s : State, s.input = [] → ∀ n : Nat, Sys2Proof.core.run n s = .next s

/-- R40: the reset values, which the hardware reset input and the `RST` command both leave; neither touches a stream, and the reset input
returns no response (70_reset_and_hazards.md R301). -/
def Obligations.ResetValues : Prop :=
  State.reset.err = 0#8 ∧ (∀ x, symGet State.reset.ft x = 0#32) ∧ State.reset.pq.length = 0 ∧ State.reset.tm.length = 0 ∧
  State.reset.root = 0#9 ∧ State.reset.rootv = false ∧ State.reset.hb.length = 0 ∧ State.reset.ctv = false ∧
  (∀ x, symGet State.reset.ct x = none) ∧ State.reset.dnode = 0#9 ∧ State.reset.ddead = false ∧
  (∀ s : State, exec .rst s = .next ((State.reset.besideHostOf s).answered 0#16 0#32)) ∧
  ∀ (s : State) (rest : List PortEvent), s.input = .hardReset :: rest →
    step s = .next (State.reset.besideHostOf { s with input := rest })

/-! ## System commands -/

/-- R241: `RST` clears the block whatever its state, leaves the streams alone, and is the only command that unlocks. -/
def Obligations.RstClearsTheBlock : Prop :=
  encode .rst = 0x0100000000000000#64 ∧
  (∀ s : State, ∃ t, exec .rst s = .next t ∧
    t.err = 0#8 ∧ (∀ x, symGet t.ft x = 0#32) ∧ t.pq = [] ∧ t.tm = [] ∧ t.root = 0#9 ∧ t.rootv = false ∧ t.hb = [] ∧
    t.ctv = false ∧ (∀ x, symGet t.ct x = none) ∧ t.dnode = 0#9 ∧ t.ddead = false ∧
    t.hdrout = s.hdrout ∧ t.bitout = s.bitout ∧ t.symout = s.symout ∧ t.input = s.input ∧
    t.rspout = s.rspout ++ [rspWord 0x00#8 0#16 0#32]) ∧
  ∀ (i : Instr) (s t : State), s.err ≠ 0#8 → exec i s = .next t → t.err = 0#8 → i = .rst

/-- `STAT` responds with the status word and changes no state, locked or not (48_system.md R242, 10_state.md R37). In states that no run
reaches two bits are the model's choice: bit 11 is 0 while `ROOTV` = 0 whatever `DDEAD` holds (log entry 4), and bit 12 is 0 when
`TM[ROOT]` is not an allocated node (log entry 5). -/
def Obligations.StatReportsTheStatusWord : Prop :=
  encode .stat = 0x0200000000000000#64 ∧
  ∀ s : State, ∃ d : BitVec 32, exec .stat s = .next (s.answered 0#16 d) ∧
    d.extractLsb' 0 8 = s.err ∧ d.getLsbD 8 = s.rootv ∧ d.getLsbD 9 = s.ctv ∧
    (d.getLsbD 10 = true ↔ s.rootv = true ∧ (s.dnode ≠ s.root ∨ s.ddead = true)) ∧
    (d.getLsbD 11 = true ↔ s.rootv = true ∧ s.ddead = true) ∧
    (d.getLsbD 12 = true ↔ s.rootv = true ∧ ∃ x, readNode s.tm s.root = some (.leaf x)) ∧
    d.extractLsb' 13 19 = 0#19

/-! ## Frequency table -/

/-- R101: `FT_CLR`. -/
def Obligations.FtClrClearsEveryCount : Prop :=
  encode .ftClr = 0x1000000000000000#64 ∧
  ∀ s : State, s.err = 0#8 → ∃ ft, (∀ x, symGet ft x = 0#32) ∧ exec .ftClr s = .next ({ s with ft := ft }.answered 0#16 0#32)

/-- R102: `FT_INC s` adds one to one count, or faults at the largest count. -/
def Obligations.FtIncCountsOneSymbol : Prop :=
  (∀ x : Byte, encode (.ftInc x) = 0x1100000000000000#64 ||| x.setWidth 64 <<< 32) ∧
  ∀ (s : State) (x : Byte), s.err = 0#8 →
    (symGet s.ft x ≠ 0xFFFFFFFF#32 → ∃ ft, (symGet ft x).toNat = (symGet s.ft x).toNat + 1 ∧
      (∀ y, y ≠ x → symGet ft y = symGet s.ft y) ∧ exec (.ftInc x) s = .next ({ s with ft := ft }.answered 0#16 0#32)) ∧
    (symGet s.ft x = 0xFFFFFFFF#32 → exec (.ftInc x) s = .next (s.faulted 0x12#8))

/-- R103: `FT_RD s`. -/
def Obligations.FtRdReturnsTheCount : Prop :=
  (∀ x : Byte, encode (.ftRd x) = 0x1200000000000000#64 ||| x.setWidth 64 <<< 32) ∧
  ∀ (s : State) (x : Byte), s.err = 0#8 → exec (.ftRd x) s = .next (s.answered 0#16 (symGet s.ft x))

/-- R100: after one `FT_INC` per byte from cleared counts, every count is the number of occurrences and the counts add up to
the number of bytes. -/
def Obligations.CountsAreOccurrences : Prop :=
  ∀ (bytes : List Byte) (s : State), s.err = 0#8 → (∀ x, symGet s.ft x = 0#32) → bytes.length ≤ 4294967295 →
    ∃ t, performAll (bytes.map .ftInc) s = .next ⟨t, none⟩ ∧ t.err = 0#8 ∧
      (∀ x, (symGet t.ft x).toNat = bytes.count x) ∧ totalCount t.ft = bytes.length

/-! ## Priority queue -/

/-- R113: `PQ_CLR`. -/
def Obligations.PqClrEmptiesTheQueue : Prop :=
  encode .pqClr = 0x2000000000000000#64 ∧
  ∀ s : State, s.err = 0#8 → exec .pqClr s = .next ({ s with pq := [] }.answered 0#16 0#32)

/-- R114, R111: `PQ_PUSH` inserts after every entry of lower or equal priority and before every entry of higher priority, or
faults on a full queue. -/
def Obligations.PqPushInsertsInOrder : Prop :=
  (∀ (pay : NodeId) (prio : Count), encode (.pqPush pay prio) =
    0x2100000000000000#64 ||| pay.setWidth 64 <<< 32 ||| prio.setWidth 64) ∧
  ∀ (s : State) (pay : NodeId) (prio : Count), s.err = 0#8 → QueueSorted s.pq →
    (s.pq.length < 256 → ∃ l r, s.pq = l ++ r ∧ (∀ e ∈ l, e.prio.toNat ≤ prio.toNat) ∧ (∀ e ∈ r, prio.toNat < e.prio.toNat) ∧
      exec (.pqPush pay prio) s = .next ({ s with pq := l ++ (⟨prio, pay⟩ : PQEntry) :: r }.answered 0#16 0#32)) ∧
    (s.pq.length = 256 → exec (.pqPush pay prio) s = .next (s.faulted 0x13#8))

/-- R115, R117: `PQ_POP` removes the entry of slot 0, which has the lowest priority, and returns it, or faults on an empty queue. -/
def Obligations.PqPopRemovesTheFirst : Prop :=
  encode .pqPop = 0x2200000000000000#64 ∧
  ∀ s : State, s.err = 0#8 →
    (s.pq = [] → exec .pqPop s = .next (s.faulted 0x16#8)) ∧
    ∀ e q, s.pq = e :: q →
      exec .pqPop s = .next ({ s with pq := q }.answered (e.pay.setWidth 16) e.prio) ∧
      (QueueSorted s.pq → ∀ f ∈ q, e.prio.toNat ≤ f.prio.toNat)

/-- R116: `PQ_LEN`. -/
def Obligations.PqLenReturnsTheLength : Prop :=
  encode .pqLen = 0x2300000000000000#64 ∧
  ∀ s : State, s.err = 0#8 → exec .pqLen s = .next (s.answered 0#16 (BitVec.ofNat 32 s.pq.length))

/-- R118 c: what is pushed into an empty queue and then popped comes out sorted by priority, and at equal priority in the order
in which it went in. -/
def Obligations.QueueIsAStableSort : Prop :=
  ∀ (es : List PQEntry) (s : State), s.err = 0#8 → s.pq = [] → es.length ≤ 256 →
    ∃ (t : State) (out : List PQEntry),
      performAll (es.map (fun e => .pqPush e.pay e.prio) ++ List.replicate es.length .pqPop) s = .next ⟨t, none⟩ ∧
      t = { s with rspout := s.rspout ++ List.replicate es.length (rspWord 0x00#8 0#16 0#32) ++
                             out.map (fun e => rspWord 0x00#8 (e.pay.setWidth 16) e.prio) } ∧
      out.Perm es ∧ out.Pairwise (fun e f => e.prio.toNat ≤ f.prio.toNat) ∧
      ∀ p : Count, out.filter (fun e => e.prio = p) = es.filter (fun e => e.prio = p)

/-- R119: the host's queue commands read and write the queue only, and `TB_BUILD` does not read what the host left there. -/
def Obligations.QueueCommandsTouchOnlyTheQueue : Prop :=
  (∀ (i : Instr) (s t : State), i.onQueue = true → exec i s = .next t →
    t = { s with pq := t.pq, err := t.err, rspout := t.rspout }) ∧
  (∀ (i : Instr) (s s' t : State), i.onQueue = true → exec i s = .next t → s'.err = s.err → s'.pq = s.pq →
    ∃ t', exec i s' = .next t' ∧ t'.pq = t.pq ∧ t'.err = t.err ∧
      ∃ r, t.rspout = s.rspout ++ [r] ∧ t'.rspout = s'.rspout ++ [r]) ∧
  ∀ (s t : State) (q : List PQEntry), exec .tbBuild s = .next t → t.err = 0#8 →
    exec .tbBuild { s with pq := q } = .next t

/-! ## Tree builder -/

/-- R134: `TB_BUILD` on an empty table faults and builds nothing, there is no zero-leaf tree, and the empty string is no header. -/
def Obligations.EmptyInputBuildsNothing : Prop :=
  (∀ s : State, s.err = 0#8 → (∀ x, symGet s.ft x = 0#32) → exec .tbBuild s = .next (s.faulted 0x03#8)) ∧
  (∀ s : State, Inv s → s.rootv = true → ∃ n x, readNode s.tm n = some (.leaf x)) ∧
  ∀ s : State, s.err = 0#8 → s.hb = [] → exec .hdParse s = .next (s.faulted 0x01#8)

/-- R135: `TB_BUILD` overflows exactly when the counts add up to more than 2^32 - 1 and at least two symbols are present. -/
def Obligations.PriorityOverflow : Prop :=
  ∀ s : State, s.err = 0#8 →
    (exec .tbBuild s = .next (s.faulted 0x12#8) ↔ 4294967295 < totalCount s.ft ∧ 2 ≤ (presentSyms s.ft).length)

/-- `TB_BUILD` on a nonempty table: with L symbols present it leaves one complete tree of 2L - 1 nodes over exactly those symbols,
the leaves first in ascending symbol value, children below their parents, the root last, its entry alone in the queue with the
total count, `CTV` cleared and the decoder at the root (42_tree_builder.md R132, R136, R137, R138, R141). -/
def Obligations.TbBuildLeavesOneTree : Prop :=
  encode .tbBuild = 0x3000000000000000#64 ∧
  ∀ (s : State) (L : Nat), s.err = 0#8 → L = (presentSyms s.ft).length → (L = 1 ∨ 2 ≤ L ∧ totalCount s.ft ≤ 4294967295) →
    ∃ (tm : List Node) (t : CodeTree),
      exec .tbBuild s = .next ({ s with
        tm := tm, root := BitVec.ofNat 9 (2 * L - 2), rootv := true, ctv := false,
        dnode := BitVec.ofNat 9 (2 * L - 2), ddead := false,
        pq := [⟨BitVec.ofNat 32 (totalCount s.ft), BitVec.ofNat 9 (2 * L - 2)⟩] }.answered 0#16 (BitVec.ofNat 32 (2 * L - 1))) ∧
      tm.length = 2 * L - 1 ∧ totalCount s.ft < 2 ^ 32 ∧
      tm.take L = (presentSyms s.ft).map .leaf ∧
      (∀ n z o, tm[n]? = some (.internal z o) → L ≤ n ∧ z.toNat < n ∧ o.toNat < n) ∧
      HoldsTree tm (BitVec.ofNat 9 (2 * L - 2)) t ∧ t.leafSyms.Perm (presentSyms s.ft) ∧ (t.degenerate = true ↔ L = 1)

/-- The merges are the greedy ones: each Internal node joins the two first of the nodes waiting when it was made, the first removed as
zero-child, and weighs the sum (42_tree_builder.md R132, R139, R140, 41_priority_queue.md R112). -/
def Obligations.TbBuildMergesGreedily : Prop :=
  ∀ s t : State, s.err = 0#8 → exec .tbBuild s = .next t → t.err = 0#8 → GreedyMerges s.ft t.tm

/-- R142: the worked example. -/
def Obligations.TbBuildWorkedExample : Prop :=
  ∀ s : State, s.err = 0#8 → symGet s.ft 0x61#8 = 3#32 → symGet s.ft 0x62#8 = 2#32 → symGet s.ft 0x63#8 = 1#32 →
    (∀ x, x ≠ 0x61#8 → x ≠ 0x62#8 → x ≠ 0x63#8 → symGet s.ft x = 0#32) →
    exec .tbBuild s = .next ({ s with
      tm := [.leaf 0x61#8, .leaf 0x62#8, .leaf 0x63#8, .internal 2#9 1#9, .internal 0#9 3#9],
      root := 4#9, rootv := true, ctv := false, dnode := 4#9, ddead := false, pq := [⟨6#32, 4#9⟩] }.answered 0#16 5#32)

/-- R253: after `TB_BUILD` and `CT_BUILD`, a symbol of a lower count never has the shorter code word. The same of a build with any other
place for a new entry among equal priorities and any other order of the seeds (R255). -/
def Obligations.CodeLengthMonotone : Prop :=
  ∀ build : State → Host.Outcome State Fault Refusal,
    (build = exec .tbBuild ∨ ∃ tb : TieBreak, tb.Lawful ∧ build = execTbBuildWith tb) →
    ∀ s t u : State, s.err = 0#8 → build s = .next t → t.err = 0#8 → exec .ctBuild t = .next u →
      u.err = 0#8 ∧
      ∀ x y, 0 < (symGet s.ft x).toNat → (symGet s.ft x).toNat < (symGet s.ft y).toNat →
        ∃ v w, symGet u.ct x = some v ∧ symGet u.ct y = some w ∧ w.length ≤ v.length

/-! ## Header codec -/

/-- R157: `HD_CLR`. -/
def Obligations.HdClrEmptiesTheBuffer : Prop :=
  encode .hdClr = 0x4000000000000000#64 ∧
  ∀ s : State, s.err = 0#8 → exec .hdClr s = .next ({ s with hb := [] }.answered 0#16 0#32)

/-- R158: `HD_WR s` appends one byte, or faults on a full buffer. -/
def Obligations.HdWrAppendsOneByte : Prop :=
  (∀ x : Byte, encode (.hdWr x) = 0x4100000000000000#64 ||| x.setWidth 64 <<< 32) ∧
  ∀ (s : State) (x : Byte), s.err = 0#8 →
    (s.hb.length < 1022 → exec (.hdWr x) s = .next ({ s with hb := s.hb ++ [x] }.answered 0#16 0#32)) ∧
    (s.hb.length = 1022 → exec (.hdWr x) s = .next (s.faulted 0x13#8))

/-- R159: `HD_LEN`. -/
def Obligations.HdLenReturnsTheLength : Prop :=
  encode .hdLen = 0x4400000000000000#64 ∧
  ∀ s : State, s.err = 0#8 → exec .hdLen s = .next (s.answered 0#16 (BitVec.ofNat 32 s.hb.length))

/-- `HD_PARSE` accepts exactly the strings that serialise a tree of at most 511 nodes, and leaves that tree, its nodes numbered in
pre-order from 0; every other string faults (43_header_codec.md R155, R160). -/
def Obligations.HdParseAcceptsTheGrammar : Prop :=
  encode .hdParse = 0x4200000000000000#64 ∧
  ∀ s : State, s.err = 0#8 →
    (∀ t : CodeTree, s.hb = t.ser → t.nodeCount ≤ 511 →
      exec .hdParse s = .next ({ s with
        tm := t.layout 0, root := 0#9, rootv := true, ctv := false, dnode := 0#9, ddead := false }.answered 0#16
          (BitVec.ofNat 32 t.nodeCount)) ∧
      HoldsTree (t.layout 0) 0#9 t ∧ (t.layout 0).length = t.nodeCount) ∧
    ((∀ t : CodeTree, s.hb = t.ser → 511 < t.nodeCount) →
      exec .hdParse s = .next (s.faulted 0x01#8) ∨ exec .hdParse s = .next (s.faulted 0x13#8))

/-- The fault that `HD_PARSE` reports is the first check that fails, reading left to right (43_header_codec.md R155, R156, R161, R162,
60_exceptions.md R274): the six ways to violate the grammar, and the node memory full when a leaf or a `(` needs a node. -/
def Obligations.ParseFaultIsTheFirstFailedCheck : Prop :=
  ∀ (s : State) (c : List (Option CodeTree)) (rest : List Byte) (b x : Byte) (z o t : CodeTree), s.err = 0#8 →
    (openNodes c ≤ 511 → s.hb = openText c → exec .hdParse s = .next (s.faulted 0x01#8)) ∧
    (openNodes c ≤ 511 → s.hb = openText c ++ [0x2E#8] → exec .hdParse s = .next (s.faulted 0x01#8)) ∧
    (openNodes c ≤ 511 → s.hb = openText c ++ b :: rest → b ≠ 0x2E#8 → b ≠ 0x28#8 →
      exec .hdParse s = .next (s.faulted 0x01#8)) ∧
    (openNodes (c ++ [some z]) + o.nodeCount ≤ 511 → s.hb = openText (c ++ [some z]) ++ o.ser →
      exec .hdParse s = .next (s.faulted 0x01#8)) ∧
    (openNodes (c ++ [some z]) + o.nodeCount ≤ 511 → s.hb = openText (c ++ [some z]) ++ o.ser ++ b :: rest → b ≠ 0x29#8 →
      exec .hdParse s = .next (s.faulted 0x01#8)) ∧
    (t.nodeCount ≤ 511 → s.hb = t.ser ++ b :: rest → exec .hdParse s = .next (s.faulted 0x01#8)) ∧
    (openNodes c = 511 → s.hb = openText c ++ 0x2E#8 :: x :: rest → exec .hdParse s = .next (s.faulted 0x13#8)) ∧
    (openNodes c = 511 → s.hb = openText c ++ 0x28#8 :: rest → exec .hdParse s = .next (s.faulted 0x13#8))

/-- R152: `HD_SER` puts the header of the present tree into the buffer and emits it, or faults without a tree. R153: the length of a
header. -/
def Obligations.HdSerWritesTheHeader : Prop :=
  encode .hdSer = 0x4300000000000000#64 ∧
  (∀ t : CodeTree, t.ser.length = 2 * t.leafCount + 2 * t.internalCount ∧ t.ser.length + 2 = 4 * t.leafCount) ∧
  ∀ s : State, s.err = 0#8 →
    (s.rootv = false → exec .hdSer s = .next (s.faulted 0x11#8)) ∧
    (s.rootv = true → ∀ t, HoldsTree s.tm s.root t →
      t.ser.length ≤ 1022 ∧
      exec .hdSer s = .next ({ s with hb := t.ser, hdrout := s.hdrout ++ t.ser }.answered 0#16 (BitVec.ofNat 32 t.ser.length)))

/-- R163: a serialised tree parses back to the same tree value, and an accepted header is emitted again exactly. -/
def Obligations.HeaderRoundTrip : Prop :=
  (∀ s : State, Inv s → s.err = 0#8 → s.rootv = true →
    ∃ t u tree, exec .hdSer s = .next t ∧ exec .hdParse t = .next u ∧ u.err = 0#8 ∧
      HoldsTree s.tm s.root tree ∧ HoldsTree u.tm u.root tree) ∧
  ∀ s t : State, s.err = 0#8 → exec .hdParse s = .next t → t.err = 0#8 →
    ∃ u, exec .hdSer t = .next u ∧ u.err = 0#8 ∧ u.hdrout = t.hdrout ++ s.hb ∧ u.hb = s.hb

/-! ## Code table and encoder -/

/-- R172, R171: `CT_BUILD` gives every leaf's symbol the path of the leaf (`"0"` for the one leaf of a degenerate tree) and no other
symbol a code word; R176: it faults when two leaves carry the same symbol. -/
def Obligations.CtBuildDerivesTheTable : Prop :=
  encode .ctBuild = 0x5000000000000000#64 ∧
  ∀ s : State, s.err = 0#8 →
    (s.rootv = false → exec .ctBuild s = .next (s.faulted 0x11#8)) ∧
    (s.rootv = true → ∀ t, HoldsTree s.tm s.root t →
      (t.leafSyms.Nodup → ∃ ct, exec .ctBuild s = .next ({ s with ct := ct, ctv := true }.answered 0#16 (BitVec.ofNat 32 t.leafCount)) ∧
        ∀ x w, symGet ct x = some w ↔ (w, x) ∈ t.codeWords) ∧
      (¬ t.leafSyms.Nodup → exec .ctBuild s = .next (s.faulted 0x15#8)))

/-- R174: the sole symbol of a degenerate tree has the code word `"0"`, its header is the plain leaf token, and the decoder treats a
digit 0 as that symbol. -/
def Obligations.SoleSymbolPolicy : Prop :=
  ∀ (s : State) (x : Byte), s.err = 0#8 → s.rootv = true → HoldsTree s.tm s.root (.leaf x) →
    (∃ ct, exec .ctBuild s = .next ({ s with ct := ct, ctv := true }.answered 0#16 1#32) ∧
      symGet ct x = some [false] ∧ ∀ y, y ≠ x → symGet ct y = none) ∧
    (∃ t, exec .hdSer s = .next t ∧ t.hdrout = s.hdrout ++ [0x2E#8, x]) ∧
    (s.ddead = false → exec (.decBit false) s = .next ({ s with symout := s.symout ++ [x] }.answered (0x0100#16 ||| x.setWidth 16) 0#32))

/-- R175: `CT_LEN s`. -/
def Obligations.CtLenReturnsTheLength : Prop :=
  (∀ x : Byte, encode (.ctLen x) = 0x5100000000000000#64 ||| x.setWidth 64 <<< 32) ∧
  ∀ (s : State) (x : Byte), s.err = 0#8 →
    (s.ctv = false → exec (.ctLen x) s = .next (s.faulted 0x11#8)) ∧
    (s.ctv = true → symGet s.ct x = none → exec (.ctLen x) s = .next (s.answered 0#16 0#32)) ∧
    (s.ctv = true → ∀ w, symGet s.ct x = some w → exec (.ctLen x) s = .next (s.answered 1#16 (BitVec.ofNat 32 w.length)))

/-- R191, R192: `ENC_SYM s` emits the code word of the symbol, digit 0 first, or faults. -/
def Obligations.EncSymEmitsTheCodeWord : Prop :=
  (∀ x : Byte, encode (.encSym x) = 0x6000000000000000#64 ||| x.setWidth 64 <<< 32) ∧
  ∀ (s : State) (x : Byte), s.err = 0#8 →
    (s.ctv = false → exec (.encSym x) s = .next (s.faulted 0x11#8)) ∧
    (s.ctv = true → symGet s.ct x = none → exec (.encSym x) s = .next (s.faulted 0x14#8)) ∧
    (s.ctv = true → ∀ w, symGet s.ct x = some w →
      exec (.encSym x) s = .next ({ s with bitout := s.bitout ++ w }.answered 0#16 (BitVec.ofNat 32 w.length)))

/-! ## Decoder -/

/-- R204: every case of `DEC_BIT b`. R207: where the decoder stands, so that with a tree one of the cases always applies. -/
def Obligations.DecBitFollowsOneEdge : Prop :=
  (∀ b : Digit, encode (.decBit b) = 0x7000000000000000#64 ||| (BitVec.ofBool b).setWidth 64 <<< 32) ∧
  (∀ (s : State) (b : Digit), s.err = 0#8 →
    (s.rootv = false → exec (.decBit b) s = .next (s.faulted 0x11#8)) ∧
    (s.rootv = true → s.ddead = true → exec (.decBit b) s = .next (s.answered 0#16 0#32)) ∧
    (s.rootv = true → s.ddead = false → ∀ x, readNode s.tm s.root = some (.leaf x) →
      (b = false → exec (.decBit b) s =
        .next ({ s with symout := s.symout ++ [x] }.answered (0x0100#16 ||| x.setWidth 16) 0#32)) ∧
      (b = true → exec (.decBit b) s = .next ({ s with ddead := true }.answered 0#16 0#32))) ∧
    (s.rootv = true → s.ddead = false → ∀ rz ro z o c, readNode s.tm s.root = some (.internal rz ro) →
      readNode s.tm s.dnode = some (.internal z o) → c = (if b = false then z else o) →
      (∀ x, readNode s.tm c = some (.leaf x) → exec (.decBit b) s =
        .next ({ s with dnode := s.root, symout := s.symout ++ [x] }.answered (0x0100#16 ||| x.setWidth 16) 0#32)) ∧
      (∀ cz co, readNode s.tm c = some (.internal cz co) → exec (.decBit b) s = .next ({ s with dnode := c }.answered 0#16 0#32)))) ∧
  ∀ s : State, Inv s → s.rootv = true →
    (∀ rz ro, readNode s.tm s.root = some (.internal rz ro) →
      s.dnode.toNat < s.tm.length ∧ (∃ z o, readNode s.tm s.dnode = some (.internal z o)) ∧ s.ddead = false) ∧
    (∀ x, readNode s.tm s.root = some (.leaf x) → s.dnode = s.root) ∧
    (s.err = 0#8 → ∀ b, ∃ t, exec (.decBit b) s = .next t ∧ t.err = 0#8)

/-- R205: `DEC_EOS` succeeds when the candidate is empty, and faults when a code word is in progress or there is no tree. -/
def Obligations.DecEosChecksTheCandidate : Prop :=
  encode .decEos = 0x7100000000000000#64 ∧
  ∀ s : State, s.err = 0#8 →
    (s.rootv = false → exec .decEos s = .next (s.faulted 0x11#8)) ∧
    (s.rootv = true → (s.dnode ≠ s.root ∨ s.ddead = true) → exec .decEos s = .next (s.faulted 0x04#8)) ∧
    (s.rootv = true → s.dnode = s.root → s.ddead = false → exec .decEos s = .next (s.answered 0#16 0#32))

/-- R208: the walk of the tree and HUF's candidate loop agree after every digit, and at the end of the stream. -/
def Obligations.WalkImplementsHufLoop : Prop :=
  ∀ (s : State) (t : CodeTree) (ds : List Digit), s.err = 0#8 → s.rootv = true → HoldsTree s.tm s.root t →
    s.dnode = s.root → s.ddead = false →
    ∃ u : State, performAll (ds.map .decBit) s = .next ⟨u, none⟩ ∧
      u.symout = s.symout ++ (hufLoop t ⟨[], []⟩ ds).out ∧
      (u.ddead = false → followPath u.tm u.root (hufLoop t ⟨[], []⟩ ds).cand = some u.dnode) ∧
      (u.ddead = true → (hufLoop t ⟨[], []⟩ ds).cand ≠ [] ∧
        ∀ more, lookupCode t ((hufLoop t ⟨[], []⟩ ds).cand ++ more) = none) ∧
      ((hufLoop t ⟨[], []⟩ ds).cand = [] ↔ u.dnode = u.root ∧ u.ddead = false)

/-! ## Faults and the locked condition -/

/-- R273: which commands need which flag, what they do without it, and that no other command raises `SeqError`. -/
def Obligations.SequenceErrors : Prop :=
  (∀ (i : Instr) (s : State), s.err = 0#8 →
    (i.needsTree = true ∧ s.rootv = false ∨ i.needsTable = true ∧ s.ctv = false) → exec i s = .next (s.faulted 0x11#8)) ∧
  (∀ (i : Instr) (s t : State), s.err = 0#8 → exec i s = .next t → t.err = 0x11#8 →
    i.needsTree = true ∧ s.rootv = false ∨ i.needsTable = true ∧ s.ctv = false) ∧
  ∀ i : Instr, (i.needsTree = true ↔ i.mnemonic ∈ ["HD_SER", "CT_BUILD", "DEC_BIT", "DEC_EOS"]) ∧
    (i.needsTable = true ↔ i.mnemonic ∈ ["CT_LEN", "ENC_SYM"])

/-- R276: a command that faults writes `ERR`, answers with the code and two zero fields, and does nothing else (first sentence of
60_exceptions.md R277), so the block is locked. -/
def Obligations.FaultsArePrecise : Prop :=
  ∀ (i : Instr) (s t : State), s.err = 0#8 → exec i s = .next t → t.err ≠ 0#8 → t = s.faulted t.err

/-- R275: the faults each command can raise, and nothing raises `DuplicateCode`. -/
def Obligations.FaultsByCommand : Prop :=
  (∀ (i : Instr) (s t : State), s.err = 0#8 → exec i s = .next t → t.err ≠ 0#8 → ∃ k ∈ i.faults, t.err = k.code) ∧
  ∀ i : Instr, ErrKind.duplicateCode ∉ i.faults ∧ ErrKind.illegalCmd ∉ i.faults

/-- R23: `ERR` keeps the code of the first fault until a reset, and a locked block changes no other state either. -/
def Obligations.ErrKeepsTheFirstFault : Prop :=
  State.reset.err = 0#8 ∧
  ∀ s t : State, s.err ≠ 0#8 → step s = .next t →
    (∃ rest, s.input = .hardReset :: rest) ∨ (∃ w rest, s.input = .cmd w :: rest ∧ decode w = some .rst) ∨
    t = { s with rspout := t.rspout, input := t.input }

/-- R76: the status values, and what the result fields hold with each. -/
def Obligations.StatusValues : Prop :=
  ∀ (s t : State) (w : CmdWord) (rest : List PortEvent), s.input = .cmd w :: rest → step s = .next t →
    ∃ (st : BitVec 8) (a : BitVec 16) (d : BitVec 32), t.rspout = s.rspout ++ [rspWord st a d] ∧
      (st = 0x00#8 ∨
       (st.toNat ∈ [0x01, 0x02, 0x03, 0x04, 0x10, 0x11, 0x12, 0x13, 0x14, 0x15, 0x16] ∧ s.err = 0#8 ∧ t.err = st ∧
         a = 0#16 ∧ d = 0#32) ∨
       (st = 0xFF#8 ∧ s.err ≠ 0#8 ∧ a = 0#16 ∧ d.extractLsb' 0 8 = s.err ∧ d.extractLsb' 8 24 = 0#24))

/-! ## Rules of the whole block -/

/-- The reset state meets the invariant. -/
def Obligations.ResetMeetsTheInvariant : Prop := Inv State.reset

/-- Every step from a state with the invariant leaves a state with the invariant, and so does a build of the tree with any other place for a
new entry among equal priorities and any other order of the seeds (49_properties.md R255). -/
def Obligations.StepKeepsTheInvariant : Prop :=
  ∀ s t : State, Inv s →
    (step s = .next t → Inv t) ∧
    ∀ tb : TieBreak, tb.Lawful → execTbBuildWith tb s = .next t → Inv t

/-- From every state with the invariant every step goes on, and a command word gets exactly one response (70_reset_and_hazards.md R322,
30_encoding.md R75). So every sequence of commands ends: with one `ST_OK` response per command, or with the first response that is not
`ST_OK`, whose `ST` the host reports; and on a block that was unlocked or is reset first, `ERR` is then 0 or that kind (47_sequences.md
R220, R232). -/
def Obligations.EveryCommandIsAnswered : Prop :=
  ∀ s : State, Inv s →
    (∃ t, step s = .next t) ∧
    (∀ w rest, s.input = .cmd w :: rest →
      ∃ t r, step s = .next t ∧ t.input = rest ∧ t.rspout = s.rspout ++ [r] ∧ r.extractLsb' 48 8 = 0#8) ∧
    ∀ is : List Instr, ∃ (t : State) (failure : Option (BitVec 8)) (rs : List RspWord),
      runSequence is s = .next ⟨t, failure⟩ ∧ Inv t ∧ t.input = s.input ∧ t.rspout = s.rspout ++ rs ∧
      (failure = none → rs.length = is.length ∧ ∀ r ∈ rs, r.extractLsb' 56 8 = 0x00#8) ∧
      (∀ k, failure = some k → k ≠ 0x00#8 ∧ rs.length ≤ is.length ∧
        ∃ before last, rs = before ++ [last] ∧ (∀ r ∈ before, r.extractLsb' 56 8 = 0x00#8) ∧ last.extractLsb' 56 8 = k) ∧
      ((s.err = 0#8 ∨ ∃ rest, is = .rst :: rest) → t.err = failure.getD 0#8)

/-- A command is a function of the block's state and the command word alone, emits on at most one stream, and only appends: run beside
any other streams, responses and pending inputs it does the same (49_properties.md R254, 10_state.md R38, 20_memory.md R60). -/
def Obligations.OutputsAreAppendOnlyLogs : Prop :=
  ∀ (i : Instr) (s t : State), exec i s = .next t →
    ∃ (h : List Byte) (b : List Digit) (y : List Byte) (r : RspWord),
      (b = [] ∧ y = [] ∨ h = [] ∧ y = [] ∨ h = [] ∧ b = []) ∧ (t.err ≠ 0#8 → h = [] ∧ b = [] ∧ y = []) ∧
      ∀ o : State, exec i (s.besideHostOf o) = .next (t.besideHostOf { o with
        hdrout := o.hdrout ++ h, bitout := o.bitout ++ b, symout := o.symout ++ y, rspout := o.rspout ++ [r] })

/-- R28: what sets and clears `ROOTV`, and what it says while it is set. -/
def Obligations.RootvRule : Prop :=
  State.reset.root = 0#9 ∧ State.reset.rootv = false ∧
  (∀ s : State, Inv s → s.rootv = true → ∃ t, HoldsTree s.tm s.root t ∧ s.tree = some t) ∧
  ∀ s t : State, step s = .next t →
    (t.rootv = true → s.rootv = false → ∃ w rest, s.input = .cmd w :: rest ∧
      (decode w = some .tbBuild ∨ decode w = some .hdParse) ∧ s.err = 0#8 ∧ t.err = 0#8) ∧
    (t.rootv = false → s.rootv = true → (∃ rest, s.input = .hardReset :: rest) ∨
      ∃ w rest, s.input = .cmd w :: rest ∧ decode w = some .rst)

/-- A changed tree makes the code table stale and returns the decoder to the root, and nothing but `CT_BUILD` makes a table valid
(20_memory.md R63, 70_reset_and_hazards.md R313, 10_state.md R31). -/
def Obligations.TreeChangeInvalidatesTheTable : Prop :=
  ∀ s t : State, step s = .next t →
    (t.tm ≠ s.tm ∨ t.root ≠ s.root → t.ctv = false ∧ t.dnode = t.root ∧ t.ddead = false) ∧
    (t.ctv = true → t.tm = s.tm ∧ t.root = s.root ∧ (t.ct = s.ct ∧ s.ctv = true ∨
      ∃ w rest, s.input = .cmd w :: rest ∧ decode w = some .ctBuild ∧ s.err = 0#8 ∧ s.rootv = true)) ∧
    (∀ w rest, s.input = .cmd w :: rest → (decode w = some .tbBuild ∨ decode w = some .hdParse) → t.err = 0#8 →
      t.rootv = true ∧ t.ctv = false ∧ t.dnode = t.root ∧ t.ddead = false)

/-- The read commands change no state and emit nothing, and repeating one returns the same response (20_memory.md R58). -/
def Obligations.ReadCommandsChangeNothing : Prop :=
  ∀ (i : Instr) (s t : State), i.readOnly = true → exec i s = .next t → t.err = s.err →
    ∃ r, t = { s with rspout := s.rspout ++ [r] } ∧ exec i t = .next { s with rspout := s.rspout ++ [r, r] }

/-- The idempotent commands: the second of two in a row leaves the state the first left, and answers the same (20_memory.md R58). -/
def Obligations.IdempotentCommands : Prop :=
  ∀ (i : Instr) (s t : State), i.idempotent = true → exec i s = .next t → t.err = 0#8 →
    ∃ r, t.rspout = s.rspout ++ [r] ∧ exec i t = .next { t with rspout := t.rspout ++ [r] }

/-- R29: the tree invariant, clause by clause. -/
def Obligations.TreeInvariantClauses : Prop :=
  ∀ s : State, Inv s → s.rootv = true →
    (1 ≤ s.tm.length ∧ s.root.toNat < s.tm.length) ∧
    (∀ n z o, readNode s.tm n = some (.internal z o) → z.toNat < s.tm.length ∧ o.toNat < s.tm.length) ∧
    (∀ n, n < s.tm.length → n ≠ s.root.toNat → (childIds s.tm).count n = 1) ∧ (childIds s.tm).count s.root.toNat = 0 ∧
    (∀ n, n < s.tm.length → ∃ p m, followPath s.tm s.root p = some m ∧ m.toNat = n) ∧
    (2 * leafEntries s.tm = s.tm.length + 1 ∧ leafEntries s.tm ≤ 256) ∧
    ∀ p m, followPath s.tm s.root p = some m → p.length ≤ 255

/-- R32, R178, R251: the code table holds exactly the paths of the leaves, `"0"` for a degenerate tree, none empty, none over 255 digits,
prefix-free. -/
def Obligations.CodeTableInvariant : Prop :=
  ∀ s : State, Inv s → s.ctv = true → ∃ t, HoldsTree s.tm s.root t ∧
    (∀ x w, symGet s.ct x = some w → w ≠ [] ∧ w.length ≤ 255) ∧
    (∀ x y v w, symGet s.ct x = some v → symGet s.ct y = some w → v <+: w → x = y) ∧
    (t.degenerate = false → ∀ x w, symGet s.ct x = some w ↔
      ∃ n, followPath s.tm s.root w = some n ∧ readNode s.tm n = some (.leaf x)) ∧
    (∀ x0, t = .leaf x0 → symGet s.ct x0 = some [false] ∧ ∀ x, x ≠ x0 → symGet s.ct x = none)

/-! ## Whole invocations -/

/-- `COMPRESS S` of a nonempty input emits the header of a tree over the input's symbols and the code words of the input in order
(47_sequences.md R221, R223 for n ≥ 1). Of an empty input `TB_BUILD` faults with `EmptyInput`, the run ends with that response (R232) and
nothing is emitted. That `TB_BUILD` is then the second command, so that the run has exactly two responses, is the model's reading (log entry
14): it follows the sequence of R221, 42_tree_builder.md R134 and program P5 of 95_test_vectors.md, where R223 says that the third command
faults. -/
def Obligations.CompressResult : Prop :=
  (∀ (bytes : List Byte) (s : State), bytes ≠ [] → bytes.length ≤ 4294967295 →
    ∃ (t : State) (tree : CodeTree) (word : Byte → List Digit), runSequence (compress bytes) s = .next ⟨t, none⟩ ∧ t.err = 0#8 ∧
      HoldsTree t.tm t.root tree ∧ (∀ x, x ∈ tree.leafSyms ↔ x ∈ bytes) ∧ tree.leafSyms.Nodup ∧
      (∀ x ∈ bytes, (word x, x) ∈ tree.codeWords) ∧
      t.hdrout = s.hdrout ++ tree.ser ∧ t.bitout = s.bitout ++ bytes.flatMap word ∧ t.symout = s.symout ∧
      ∃ rs, t.rspout = s.rspout ++ rs ∧ rs.length = 2 * bytes.length + 4 ∧ ∀ r ∈ rs, r.extractLsb' 56 8 = 0x00#8) ∧
  ∀ s : State, ∃ t, runSequence (compress []) s = .next ⟨t, some 0x03#8⟩ ∧ t.err = 0x03#8 ∧
    t.hdrout = s.hdrout ∧ t.bitout = s.bitout ∧ t.symout = s.symout ∧
    t.rspout = s.rspout ++ [rspWord 0x00#8 0#16 0#32, rspWord 0x03#8 0#16 0#32]

/-- `DECOMPRESS "h", d` for the header of any tree that fits and any digits: the digits are code words and a rest no beginning of which is a
code word, in one way only; the symbols of the code words are emitted; it succeeds when the rest is empty and ends in `TruncatedStream`
when it is not (47_sequences.md R226, R227, 49_properties.md R256, R257, 46_decoder.md R209). -/
def Obligations.DecompressResult : Prop :=
  ∀ (tree : CodeTree) (ds : List Digit) (s : State), tree.nodeCount ≤ 511 →
    ∃ (ws : List (List Digit × Byte)) (rest : List Digit) (t : State),
      ds = ws.flatMap Prod.fst ++ rest ∧ (∀ c ∈ ws, c ∈ tree.codeWords) ∧
      (∀ p x, p <+: rest → (p, x) ∉ tree.codeWords) ∧
      (∀ ws' rest', ds = ws'.flatMap Prod.fst ++ rest' → (∀ c ∈ ws', c ∈ tree.codeWords) →
        (∀ p x, p <+: rest' → (p, x) ∉ tree.codeWords) → ws' = ws ∧ rest' = rest) ∧
      runSequence (decompress tree.ser ds) s = .next ⟨t, if rest = [] then none else some 0x04#8⟩ ∧ t.symout = s.symout ++ ws.map Prod.snd ∧
      t.hdrout = s.hdrout ∧ t.bitout = s.bitout ∧
      (rest = [] → t.err = 0#8) ∧ (rest ≠ [] → t.err = 0x04#8)

/-- `ENCODE_WITH "h", S` for the header of any tree that fits: the code words of `S` under that tree, in order; `NoCode` at the first byte
with no leaf, what was emitted before it staying emitted; `DupSymbol` when the header repeats a symbol (47_sequences.md R229, R224,
60_exceptions.md R278). -/
def Obligations.EncodeWithReceivedCodebook : Prop :=
  ∀ (tree : CodeTree) (bytes : List Byte) (s : State), tree.nodeCount ≤ 511 →
    (¬ tree.leafSyms.Nodup → ∃ t, runSequence (encodeWith tree.ser bytes) s = .next ⟨t, some 0x15#8⟩ ∧ t.err = 0x15#8 ∧
      t.hdrout = s.hdrout ∧ t.bitout = s.bitout ∧ t.symout = s.symout) ∧
    (tree.leafSyms.Nodup → ∃ word : Byte → List Digit, (∀ x ∈ tree.leafSyms, (word x, x) ∈ tree.codeWords) ∧
      ((∀ x ∈ bytes, x ∈ tree.leafSyms) → ∃ t, runSequence (encodeWith tree.ser bytes) s = .next ⟨t, none⟩ ∧ t.err = 0#8 ∧
        t.hdrout = s.hdrout ∧ t.bitout = s.bitout ++ bytes.flatMap word ∧ t.symout = s.symout) ∧
      ∀ (pre post : List Byte) (x : Byte), bytes = pre ++ x :: post → (∀ y ∈ pre, y ∈ tree.leafSyms) → x ∉ tree.leafSyms →
        ∃ t, runSequence (encodeWith tree.ser bytes) s = .next ⟨t, some 0x14#8⟩ ∧ t.err = 0x14#8 ∧
          t.hdrout = s.hdrout ∧ t.bitout = s.bitout ++ pre.flatMap word ∧ t.symout = s.symout)

/-- R250: what `COMPRESS` emits, `DECOMPRESS` turns back into the input, on any block in any state; and on a block with any other place for a
new entry among equal priorities and any other order of the seeds too (R255). -/
def Obligations.CompressDecompressRoundTrip : Prop :=
  ∀ run : List Instr → State → RunResult, (run = runSequence ∨ ∃ tb : TieBreak, tb.Lawful ∧ run = hostRun (execWith tb)) →
    ∀ (bytes : List Byte) (s u : State), bytes ≠ [] → bytes.length ≤ 4294967295 →
      ∃ (h : List Byte) (d : List Digit) (t v : State),
        run (compress bytes) s = .next ⟨t, none⟩ ∧ t.err = 0#8 ∧
        t.hdrout = s.hdrout ++ h ∧ t.bitout = s.bitout ++ d ∧ t.symout = s.symout ∧
        (∃ rs, t.rspout = s.rspout ++ rs ∧ ∀ r ∈ rs, r.extractLsb' 56 8 = 0x00#8) ∧
        run (decompress h d) u = .next ⟨v, none⟩ ∧ v.err = 0#8 ∧
        v.symout = u.symout ++ bytes ∧ v.hdrout = u.hdrout ∧ v.bitout = u.bitout ∧
        ∃ rs, v.rspout = u.rspout ++ rs ∧ ∀ r ∈ rs, r.extractLsb' 56 8 = 0x00#8
end

