-- ==== Sys2Proof/Laws/CodeTree.lean ====
section
/-! SUPPORT. The CodeTree as a value: its counts, its header length, and its paths (00_scope.md R8, R13, 43_header_codec.md R153,
44_code_table.md R177). -/

namespace Sys2Proof.Machine

namespace CodeTree

theorem leafCount_pos (t : CodeTree) : 1 ≤ t.leafCount := by
  induction t with
  | leaf => exact Nat.le_refl _
  | internal z o hz _ => simp only [leafCount]; omega

/-- A tree with L leaves has L - 1 Internal nodes (R8). -/
theorem leafCount_eq (t : CodeTree) : t.leafCount = t.internalCount + 1 := by
  induction t with
  | leaf => rfl
  | internal z o hz ho => simp only [leafCount, internalCount]; omega

/-- A tree with L leaves has 2L - 1 nodes (R8). -/
theorem nodeCount_eq (t : CodeTree) : t.nodeCount + 1 = 2 * t.leafCount := by
  induction t with
  | leaf => rfl
  | internal z o hz ho => simp only [nodeCount, leafCount]; omega

theorem nodeCount_pos (t : CodeTree) : 1 ≤ t.nodeCount := by
  have := t.nodeCount_eq; have := t.leafCount_pos; omega

/-- The depth of a tree with L leaves is at most L - 1 (R8). -/
theorem depth_lt_leafCount (t : CodeTree) : t.depth < t.leafCount := by
  induction t with
  | leaf => exact Nat.one_pos
  | internal z o hz ho =>
    have := z.leafCount_pos; have := o.leafCount_pos
    simp only [depth, leafCount]; omega

theorem depth_lt_nodeCount (t : CodeTree) : t.depth < t.nodeCount := by
  have := t.depth_lt_leafCount; have := t.nodeCount_eq; have := t.leafCount_pos; omega

@[simp] theorem leafSyms_length (t : CodeTree) : t.leafSyms.length = t.leafCount := by
  induction t with
  | leaf => rfl
  | internal z o hz ho => simp [leafSyms, leafCount, hz, ho]

/-- The header has 2 bytes per leaf and 2 bytes per Internal node (R153). -/
theorem ser_length (t : CodeTree) : t.ser.length = 2 * t.leafCount + 2 * t.internalCount := by
  induction t with
  | leaf => rfl
  | internal z o hz ho =>
    simp only [ser, leafCount, internalCount, List.length_cons, List.length_append, hz, ho, List.length_nil]
    omega

theorem ser_ne_nil (t : CodeTree) : t.ser ≠ [] := by cases t <;> simp [ser]

theorem nodeCount_le_ser_length (t : CodeTree) : t.nodeCount + 1 ≤ t.ser.length := by
  have := t.ser_length; have := t.leafCount_eq; have := t.nodeCount_eq; omega

/-! ## Paths -/

/-- The leaves, in order, are the leaves of the paths. -/
theorem paths_map_snd (t : CodeTree) : t.paths.map Prod.snd = t.leafSyms := by
  induction t with
  | leaf => rfl
  | internal z o hz ho => simp [paths, leafSyms, ← hz, ← ho, Function.comp_def]

@[simp] theorem paths_length (t : CodeTree) : t.paths.length = t.leafCount := by
  rw [← leafSyms_length, ← paths_map_snd, List.length_map]

/-- No path is longer than the tree is deep. -/
theorem path_length_le {t : CodeTree} {c : List Digit × Byte} (h : c ∈ t.paths) : c.1.length ≤ t.depth := by
  induction t generalizing c with
  | leaf => simp_all [paths]
  | internal z o hz ho =>
    simp only [paths, List.mem_append, List.mem_map] at h
    rcases h with ⟨d, hd, rfl⟩ | ⟨d, hd, rfl⟩
    · have := hz hd; simp only [depth, List.length_cons]; omega
    · have := ho hd; simp only [depth, List.length_cons]; omega

theorem mem_paths_internal {z o : CodeTree} {p : List Digit} {x : Byte} :
    (p, x) ∈ (internal z o).paths ↔
      ∃ b q, p = b :: q ∧ (q, x) ∈ (if b then o else z).paths := by
  simp only [paths, List.mem_append, List.mem_map, Prod.mk.injEq, Prod.exists]
  constructor
  · rintro (⟨q, y, h, rfl, rfl⟩ | ⟨q, y, h, rfl, rfl⟩)
    · exact ⟨false, q, rfl, by simpa using h⟩
    · exact ⟨true, q, rfl, by simpa using h⟩
  · rintro ⟨b, q, rfl, h⟩
    cases b
    · exact .inl ⟨q, x, by simpa using h, rfl, rfl⟩
    · exact .inr ⟨q, x, by simpa using h, rfl, rfl⟩

/-- A path that is a prefix of another is that other, with the same leaf: leaves end maximal paths (R177). -/
theorem paths_prefix_eq {t : CodeTree} {p q : List Digit} {x y : Byte} (hp : (p, x) ∈ t.paths) (hq : (q, y) ∈ t.paths)
    (h : p <+: q) : p = q ∧ x = y := by
  induction t generalizing p q with
  | leaf => simp_all [paths]
  | internal z o hz ho =>
    obtain ⟨b, p, rfl, hp'⟩ := mem_paths_internal.1 hp
    obtain ⟨c, q, rfl, hq'⟩ := mem_paths_internal.1 hq
    obtain ⟨rfl, h'⟩ := List.cons_prefix_cons.1 h
    cases b
    · simpa using hz (by simpa using hp') (by simpa using hq') h'
    · simpa using ho (by simpa using hp') (by simpa using hq') h'

/-- The paths are pairwise different. -/
theorem paths_fst_nodup (t : CodeTree) : (t.paths.map Prod.fst).Nodup := by
  induction t with
  | leaf => simp [paths]
  | internal z o hz ho =>
    simp only [paths, List.map_append, List.map_map, Function.comp_def]
    rw [List.nodup_append]
    refine ⟨?_, ?_, ?_⟩
    · simpa [List.map_map, Function.comp_def] using hz.map (f := fun p => false :: p) (fun a b h => by simpa using h)
    · simpa [List.map_map, Function.comp_def] using ho.map (f := fun p => true :: p) (fun a b h => by simpa using h)
    · intro a ha b hb
      simp only [List.mem_map] at ha hb
      obtain ⟨_, _, rfl⟩ := ha
      obtain ⟨_, _, rfl⟩ := hb
      simp

/-- A tree that is not degenerate gives no leaf the empty path. -/
theorem path_ne_nil {t : CodeTree} (ht : t.degenerate = false) {p : List Digit} {x : Byte} (h : (p, x) ∈ t.paths) :
    p ≠ [] := by
  cases t with
  | leaf => cases ht
  | internal z o => obtain ⟨b, q, rfl, _⟩ := mem_paths_internal.1 h; simp

/-! ## Code words -/

theorem codeWords_of_degenerate_false {t : CodeTree} (h : t.degenerate = false) : t.codeWords = t.paths := by
  cases t with
  | leaf => cases h
  | internal => rfl

theorem codeWords_map_snd (t : CodeTree) : t.codeWords.map Prod.snd = t.leafSyms := by
  cases t with
  | leaf => rfl
  | internal => exact paths_map_snd _

/-- Every code word is non-empty (R177). -/
theorem codeWord_ne_nil {t : CodeTree} {p : List Digit} {x : Byte} (h : (p, x) ∈ t.codeWords) : p ≠ [] := by
  cases t with
  | leaf => simp_all [codeWords]
  | internal => exact path_ne_nil rfl h

/-- A code word that is a prefix of another is that other, with the same symbol (R177). -/
theorem codeWords_prefix_eq {t : CodeTree} {p q : List Digit} {x y : Byte} (hp : (p, x) ∈ t.codeWords)
    (hq : (q, y) ∈ t.codeWords) (h : p <+: q) : p = q ∧ x = y := by
  cases t with
  | leaf => simp_all [codeWords]
  | internal => exact paths_prefix_eq hp hq h

/-- A code word of a tree with at most 256 leaves has at most 255 digits (R178). -/
theorem codeWord_length_le {t : CodeTree} (ht : t.leafCount ≤ 256) {p : List Digit} {x : Byte}
    (h : (p, x) ∈ t.codeWords) : p.length ≤ Config.clmax := by
  cases t with
  | leaf => simp_all [codeWords]
  | internal z o =>
    have h1 := path_length_le h
    have h2 := (internal z o).depth_lt_leafCount
    simp only [Config.clmax]
    simp only at h1
    omega

theorem codeWords_fst_nodup (t : CodeTree) : (t.codeWords.map Prod.fst).Nodup := by
  cases t with
  | leaf => simp [codeWords]
  | internal => exact paths_fst_nodup _

end CodeTree

/-- A key of an association list without repeated keys looks up to its own value. -/
theorem lookup_eq_some_iff {κ ν : Type} [BEq κ] [LawfulBEq κ] {l : List (κ × ν)} (h : (l.map Prod.fst).Nodup) {k : κ} {v : ν} :
    l.lookup k = some v ↔ (k, v) ∈ l := by
  induction l with
  | nil => simp
  | cons a l ih =>
    obtain ⟨k', v'⟩ := a
    simp only [List.map_cons, List.nodup_cons] at h
    by_cases hk : k = k'
    · subst hk
      simp only [List.lookup_cons, beq_self_eq_true, Option.some.injEq, List.mem_cons, Prod.mk.injEq, true_and]
      constructor
      · rintro rfl; exact .inl rfl
      · rintro (rfl | hm)
        · rfl
        · exact absurd (List.mem_map.2 ⟨_, hm, rfl⟩) h.1
    · have hb : (k == k') = false := by simpa using hk
      simp [List.lookup_cons, hb, ih h.2, hk]

/-- The DecodeTable holds exactly the code words (10_state.md R35). -/
theorem lookupCode_eq_some_iff {t : CodeTree} {p : List Digit} {x : Byte} :
    lookupCode t p = some x ↔ (p, x) ∈ t.codeWords :=
  lookup_eq_some_iff t.codeWords_fst_nodup

end Sys2Proof.Machine
end

