-- ==== Sys2Proof/Laws/State.lean ====
section
/-! SUPPORT. One lemma per field per shared update of the state, each true by rfl, so that no later proof unfolds a record update. -/

namespace Sys2Proof.Machine

variable (s : State)

/-! ## `reply` -/

@[simp] theorem reply_err (st : BitVec 8) (a : BitVec 16) (d : BitVec 32) : (reply st a d s).err = s.err := rfl
@[simp] theorem reply_ft (st : BitVec 8) (a : BitVec 16) (d : BitVec 32) : (reply st a d s).ft = s.ft := rfl
@[simp] theorem reply_pq (st : BitVec 8) (a : BitVec 16) (d : BitVec 32) : (reply st a d s).pq = s.pq := rfl
@[simp] theorem reply_tm (st : BitVec 8) (a : BitVec 16) (d : BitVec 32) : (reply st a d s).tm = s.tm := rfl
@[simp] theorem reply_root (st : BitVec 8) (a : BitVec 16) (d : BitVec 32) : (reply st a d s).root = s.root := rfl
@[simp] theorem reply_rootv (st : BitVec 8) (a : BitVec 16) (d : BitVec 32) : (reply st a d s).rootv = s.rootv := rfl
@[simp] theorem reply_hb (st : BitVec 8) (a : BitVec 16) (d : BitVec 32) : (reply st a d s).hb = s.hb := rfl
@[simp] theorem reply_ctv (st : BitVec 8) (a : BitVec 16) (d : BitVec 32) : (reply st a d s).ctv = s.ctv := rfl
@[simp] theorem reply_ct (st : BitVec 8) (a : BitVec 16) (d : BitVec 32) : (reply st a d s).ct = s.ct := rfl
@[simp] theorem reply_dnode (st : BitVec 8) (a : BitVec 16) (d : BitVec 32) : (reply st a d s).dnode = s.dnode := rfl
@[simp] theorem reply_ddead (st : BitVec 8) (a : BitVec 16) (d : BitVec 32) : (reply st a d s).ddead = s.ddead := rfl
@[simp] theorem reply_hdrout (st : BitVec 8) (a : BitVec 16) (d : BitVec 32) : (reply st a d s).hdrout = s.hdrout := rfl
@[simp] theorem reply_bitout (st : BitVec 8) (a : BitVec 16) (d : BitVec 32) : (reply st a d s).bitout = s.bitout := rfl
@[simp] theorem reply_symout (st : BitVec 8) (a : BitVec 16) (d : BitVec 32) : (reply st a d s).symout = s.symout := rfl
@[simp] theorem reply_rspout (st : BitVec 8) (a : BitVec 16) (d : BitVec 32) : (reply st a d s).rspout = s.rspout ++ [rspWord st a d] := rfl
@[simp] theorem reply_input (st : BitVec 8) (a : BitVec 16) (d : BitVec 32) : (reply st a d s).input = s.input := rfl

/-! ## `emitHdr` -/

@[simp] theorem emitHdr_err (h : List Byte) : (emitHdr h s).err = s.err := rfl
@[simp] theorem emitHdr_ft (h : List Byte) : (emitHdr h s).ft = s.ft := rfl
@[simp] theorem emitHdr_pq (h : List Byte) : (emitHdr h s).pq = s.pq := rfl
@[simp] theorem emitHdr_tm (h : List Byte) : (emitHdr h s).tm = s.tm := rfl
@[simp] theorem emitHdr_root (h : List Byte) : (emitHdr h s).root = s.root := rfl
@[simp] theorem emitHdr_rootv (h : List Byte) : (emitHdr h s).rootv = s.rootv := rfl
@[simp] theorem emitHdr_hb (h : List Byte) : (emitHdr h s).hb = s.hb := rfl
@[simp] theorem emitHdr_ctv (h : List Byte) : (emitHdr h s).ctv = s.ctv := rfl
@[simp] theorem emitHdr_ct (h : List Byte) : (emitHdr h s).ct = s.ct := rfl
@[simp] theorem emitHdr_dnode (h : List Byte) : (emitHdr h s).dnode = s.dnode := rfl
@[simp] theorem emitHdr_ddead (h : List Byte) : (emitHdr h s).ddead = s.ddead := rfl
@[simp] theorem emitHdr_hdrout (h : List Byte) : (emitHdr h s).hdrout = s.hdrout ++ h := rfl
@[simp] theorem emitHdr_bitout (h : List Byte) : (emitHdr h s).bitout = s.bitout := rfl
@[simp] theorem emitHdr_symout (h : List Byte) : (emitHdr h s).symout = s.symout := rfl
@[simp] theorem emitHdr_rspout (h : List Byte) : (emitHdr h s).rspout = s.rspout := rfl
@[simp] theorem emitHdr_input (h : List Byte) : (emitHdr h s).input = s.input := rfl

/-! ## `emitBits` -/

@[simp] theorem emitBits_err (ds : List Digit) : (emitBits ds s).err = s.err := rfl
@[simp] theorem emitBits_ft (ds : List Digit) : (emitBits ds s).ft = s.ft := rfl
@[simp] theorem emitBits_pq (ds : List Digit) : (emitBits ds s).pq = s.pq := rfl
@[simp] theorem emitBits_tm (ds : List Digit) : (emitBits ds s).tm = s.tm := rfl
@[simp] theorem emitBits_root (ds : List Digit) : (emitBits ds s).root = s.root := rfl
@[simp] theorem emitBits_rootv (ds : List Digit) : (emitBits ds s).rootv = s.rootv := rfl
@[simp] theorem emitBits_hb (ds : List Digit) : (emitBits ds s).hb = s.hb := rfl
@[simp] theorem emitBits_ctv (ds : List Digit) : (emitBits ds s).ctv = s.ctv := rfl
@[simp] theorem emitBits_ct (ds : List Digit) : (emitBits ds s).ct = s.ct := rfl
@[simp] theorem emitBits_dnode (ds : List Digit) : (emitBits ds s).dnode = s.dnode := rfl
@[simp] theorem emitBits_ddead (ds : List Digit) : (emitBits ds s).ddead = s.ddead := rfl
@[simp] theorem emitBits_hdrout (ds : List Digit) : (emitBits ds s).hdrout = s.hdrout := rfl
@[simp] theorem emitBits_bitout (ds : List Digit) : (emitBits ds s).bitout = s.bitout ++ ds := rfl
@[simp] theorem emitBits_symout (ds : List Digit) : (emitBits ds s).symout = s.symout := rfl
@[simp] theorem emitBits_rspout (ds : List Digit) : (emitBits ds s).rspout = s.rspout := rfl
@[simp] theorem emitBits_input (ds : List Digit) : (emitBits ds s).input = s.input := rfl

/-! ## `emitSym` -/

@[simp] theorem emitSym_err (x : Byte) : (emitSym x s).err = s.err := rfl
@[simp] theorem emitSym_ft (x : Byte) : (emitSym x s).ft = s.ft := rfl
@[simp] theorem emitSym_pq (x : Byte) : (emitSym x s).pq = s.pq := rfl
@[simp] theorem emitSym_tm (x : Byte) : (emitSym x s).tm = s.tm := rfl
@[simp] theorem emitSym_root (x : Byte) : (emitSym x s).root = s.root := rfl
@[simp] theorem emitSym_rootv (x : Byte) : (emitSym x s).rootv = s.rootv := rfl
@[simp] theorem emitSym_hb (x : Byte) : (emitSym x s).hb = s.hb := rfl
@[simp] theorem emitSym_ctv (x : Byte) : (emitSym x s).ctv = s.ctv := rfl
@[simp] theorem emitSym_ct (x : Byte) : (emitSym x s).ct = s.ct := rfl
@[simp] theorem emitSym_dnode (x : Byte) : (emitSym x s).dnode = s.dnode := rfl
@[simp] theorem emitSym_ddead (x : Byte) : (emitSym x s).ddead = s.ddead := rfl
@[simp] theorem emitSym_hdrout (x : Byte) : (emitSym x s).hdrout = s.hdrout := rfl
@[simp] theorem emitSym_bitout (x : Byte) : (emitSym x s).bitout = s.bitout := rfl
@[simp] theorem emitSym_symout (x : Byte) : (emitSym x s).symout = s.symout ++ [x] := rfl
@[simp] theorem emitSym_rspout (x : Byte) : (emitSym x s).rspout = s.rspout := rfl
@[simp] theorem emitSym_input (x : Byte) : (emitSym x s).input = s.input := rfl

/-! ## `takeFault` -/

@[simp] theorem takeFault_err (k : ErrKind) : (takeFault k s).err = k.code := rfl
@[simp] theorem takeFault_ft (k : ErrKind) : (takeFault k s).ft = s.ft := rfl
@[simp] theorem takeFault_pq (k : ErrKind) : (takeFault k s).pq = s.pq := rfl
@[simp] theorem takeFault_tm (k : ErrKind) : (takeFault k s).tm = s.tm := rfl
@[simp] theorem takeFault_root (k : ErrKind) : (takeFault k s).root = s.root := rfl
@[simp] theorem takeFault_rootv (k : ErrKind) : (takeFault k s).rootv = s.rootv := rfl
@[simp] theorem takeFault_hb (k : ErrKind) : (takeFault k s).hb = s.hb := rfl
@[simp] theorem takeFault_ctv (k : ErrKind) : (takeFault k s).ctv = s.ctv := rfl
@[simp] theorem takeFault_ct (k : ErrKind) : (takeFault k s).ct = s.ct := rfl
@[simp] theorem takeFault_dnode (k : ErrKind) : (takeFault k s).dnode = s.dnode := rfl
@[simp] theorem takeFault_ddead (k : ErrKind) : (takeFault k s).ddead = s.ddead := rfl
@[simp] theorem takeFault_hdrout (k : ErrKind) : (takeFault k s).hdrout = s.hdrout := rfl
@[simp] theorem takeFault_bitout (k : ErrKind) : (takeFault k s).bitout = s.bitout := rfl
@[simp] theorem takeFault_symout (k : ErrKind) : (takeFault k s).symout = s.symout := rfl
@[simp] theorem takeFault_rspout (k : ErrKind) : (takeFault k s).rspout = s.rspout ++ [rspWord k.code 0#16 0#32] := rfl
@[simp] theorem takeFault_input (k : ErrKind) : (takeFault k s).input = s.input := rfl

/-! ## `refuseLocked` -/

@[simp] theorem refuseLocked_err : (refuseLocked s).err = s.err := rfl
@[simp] theorem refuseLocked_ft : (refuseLocked s).ft = s.ft := rfl
@[simp] theorem refuseLocked_pq : (refuseLocked s).pq = s.pq := rfl
@[simp] theorem refuseLocked_tm : (refuseLocked s).tm = s.tm := rfl
@[simp] theorem refuseLocked_root : (refuseLocked s).root = s.root := rfl
@[simp] theorem refuseLocked_rootv : (refuseLocked s).rootv = s.rootv := rfl
@[simp] theorem refuseLocked_hb : (refuseLocked s).hb = s.hb := rfl
@[simp] theorem refuseLocked_ctv : (refuseLocked s).ctv = s.ctv := rfl
@[simp] theorem refuseLocked_ct : (refuseLocked s).ct = s.ct := rfl
@[simp] theorem refuseLocked_dnode : (refuseLocked s).dnode = s.dnode := rfl
@[simp] theorem refuseLocked_ddead : (refuseLocked s).ddead = s.ddead := rfl
@[simp] theorem refuseLocked_hdrout : (refuseLocked s).hdrout = s.hdrout := rfl
@[simp] theorem refuseLocked_bitout : (refuseLocked s).bitout = s.bitout := rfl
@[simp] theorem refuseLocked_symout : (refuseLocked s).symout = s.symout := rfl
@[simp] theorem refuseLocked_rspout : (refuseLocked s).rspout = s.rspout ++ [rspWord stLocked 0#16 (errResult s.err)] := rfl
@[simp] theorem refuseLocked_input : (refuseLocked s).input = s.input := rfl

/-! ## `installTree` -/

@[simp] theorem installTree_err (tm : List Node) (r : NodeId) : (installTree tm r s).err = s.err := rfl
@[simp] theorem installTree_ft (tm : List Node) (r : NodeId) : (installTree tm r s).ft = s.ft := rfl
@[simp] theorem installTree_pq (tm : List Node) (r : NodeId) : (installTree tm r s).pq = s.pq := rfl
@[simp] theorem installTree_tm (tm : List Node) (r : NodeId) : (installTree tm r s).tm = tm := rfl
@[simp] theorem installTree_root (tm : List Node) (r : NodeId) : (installTree tm r s).root = r := rfl
@[simp] theorem installTree_rootv (tm : List Node) (r : NodeId) : (installTree tm r s).rootv = true := rfl
@[simp] theorem installTree_hb (tm : List Node) (r : NodeId) : (installTree tm r s).hb = s.hb := rfl
@[simp] theorem installTree_ctv (tm : List Node) (r : NodeId) : (installTree tm r s).ctv = false := rfl
@[simp] theorem installTree_ct (tm : List Node) (r : NodeId) : (installTree tm r s).ct = s.ct := rfl
@[simp] theorem installTree_dnode (tm : List Node) (r : NodeId) : (installTree tm r s).dnode = r := rfl
@[simp] theorem installTree_ddead (tm : List Node) (r : NodeId) : (installTree tm r s).ddead = false := rfl
@[simp] theorem installTree_hdrout (tm : List Node) (r : NodeId) : (installTree tm r s).hdrout = s.hdrout := rfl
@[simp] theorem installTree_bitout (tm : List Node) (r : NodeId) : (installTree tm r s).bitout = s.bitout := rfl
@[simp] theorem installTree_symout (tm : List Node) (r : NodeId) : (installTree tm r s).symout = s.symout := rfl
@[simp] theorem installTree_rspout (tm : List Node) (r : NodeId) : (installTree tm r s).rspout = s.rspout := rfl
@[simp] theorem installTree_input (tm : List Node) (r : NodeId) : (installTree tm r s).input = s.input := rfl

/-! ## `clearBlock` -/

@[simp] theorem clearBlock_err : (clearBlock s).err = State.reset.err := rfl
@[simp] theorem clearBlock_ft : (clearBlock s).ft = State.reset.ft := rfl
@[simp] theorem clearBlock_pq : (clearBlock s).pq = State.reset.pq := rfl
@[simp] theorem clearBlock_tm : (clearBlock s).tm = State.reset.tm := rfl
@[simp] theorem clearBlock_root : (clearBlock s).root = State.reset.root := rfl
@[simp] theorem clearBlock_rootv : (clearBlock s).rootv = State.reset.rootv := rfl
@[simp] theorem clearBlock_hb : (clearBlock s).hb = State.reset.hb := rfl
@[simp] theorem clearBlock_ctv : (clearBlock s).ctv = State.reset.ctv := rfl
@[simp] theorem clearBlock_ct : (clearBlock s).ct = State.reset.ct := rfl
@[simp] theorem clearBlock_dnode : (clearBlock s).dnode = State.reset.dnode := rfl
@[simp] theorem clearBlock_ddead : (clearBlock s).ddead = State.reset.ddead := rfl
@[simp] theorem clearBlock_hdrout : (clearBlock s).hdrout = s.hdrout := rfl
@[simp] theorem clearBlock_bitout : (clearBlock s).bitout = s.bitout := rfl
@[simp] theorem clearBlock_symout : (clearBlock s).symout = s.symout := rfl
@[simp] theorem clearBlock_rspout : (clearBlock s).rspout = s.rspout := rfl
@[simp] theorem clearBlock_input : (clearBlock s).input = s.input := rfl

/-! ## `presentWord` -/

@[simp] theorem presentWord_err (w : CmdWord) : (presentWord w s).err = s.err := rfl
@[simp] theorem presentWord_ft (w : CmdWord) : (presentWord w s).ft = s.ft := rfl
@[simp] theorem presentWord_pq (w : CmdWord) : (presentWord w s).pq = s.pq := rfl
@[simp] theorem presentWord_tm (w : CmdWord) : (presentWord w s).tm = s.tm := rfl
@[simp] theorem presentWord_root (w : CmdWord) : (presentWord w s).root = s.root := rfl
@[simp] theorem presentWord_rootv (w : CmdWord) : (presentWord w s).rootv = s.rootv := rfl
@[simp] theorem presentWord_hb (w : CmdWord) : (presentWord w s).hb = s.hb := rfl
@[simp] theorem presentWord_ctv (w : CmdWord) : (presentWord w s).ctv = s.ctv := rfl
@[simp] theorem presentWord_ct (w : CmdWord) : (presentWord w s).ct = s.ct := rfl
@[simp] theorem presentWord_dnode (w : CmdWord) : (presentWord w s).dnode = s.dnode := rfl
@[simp] theorem presentWord_ddead (w : CmdWord) : (presentWord w s).ddead = s.ddead := rfl
@[simp] theorem presentWord_hdrout (w : CmdWord) : (presentWord w s).hdrout = s.hdrout := rfl
@[simp] theorem presentWord_bitout (w : CmdWord) : (presentWord w s).bitout = s.bitout := rfl
@[simp] theorem presentWord_symout (w : CmdWord) : (presentWord w s).symout = s.symout := rfl
@[simp] theorem presentWord_rspout (w : CmdWord) : (presentWord w s).rspout = s.rspout := rfl
@[simp] theorem presentWord_input (w : CmdWord) : (presentWord w s).input = .cmd w :: s.input := rfl

/-! ## The reset state -/

@[simp] theorem reset_err : State.reset.err = 0#8 := rfl
@[simp] theorem reset_ft : State.reset.ft = Vector.replicate 256 0#32 := rfl
@[simp] theorem reset_pq : State.reset.pq = [] := rfl
@[simp] theorem reset_tm : State.reset.tm = [] := rfl
@[simp] theorem reset_root : State.reset.root = 0#9 := rfl
@[simp] theorem reset_rootv : State.reset.rootv = false := rfl
@[simp] theorem reset_hb : State.reset.hb = [] := rfl
@[simp] theorem reset_ctv : State.reset.ctv = false := rfl
@[simp] theorem reset_ct : State.reset.ct = Vector.replicate 256 none := rfl
@[simp] theorem reset_dnode : State.reset.dnode = 0#9 := rfl
@[simp] theorem reset_ddead : State.reset.ddead = false := rfl
@[simp] theorem reset_hdrout : State.reset.hdrout = [] := rfl
@[simp] theorem reset_bitout : State.reset.bitout = [] := rfl
@[simp] theorem reset_symout : State.reset.symout = [] := rfl
@[simp] theorem reset_rspout : State.reset.rspout = [] := rfl
@[simp] theorem reset_input : State.reset.input = [] := rfl

end Sys2Proof.Machine
end

