-- ==== Sys2Proof/Laws/Outcome.lean ====
section
/-! SUPPORT. What the shared control operations can do, said once: sequencing of fallible work, the lock, the sequence check, responding
and raising. Later proofs cite these instead of unfolding the operations. -/

namespace Sys2Proof.Machine

/-- Sequenced fallible work succeeds exactly when both parts do. -/
theorem bind_ok_iff {ε α β : Type} {x : Except ε α} {f : α → Except ε β} {r : β} :
    (x >>= f) = .ok r ↔ ∃ a, x = .ok a ∧ f a = .ok r := by
  cases x <;> simp [bind, Except.bind]

/-- Sequenced fallible work fails in the first part or in the second. -/
theorem bind_error_iff {ε α β : Type} {x : Except ε α} {f : α → Except ε β} {e : ε} :
    (x >>= f) = .error e ↔ x = .error e ∨ ∃ a, x = .ok a ∧ f a = .error e := by
  cases x <;> simp [bind, Except.bind]

@[simp] theorem ok_bind {ε α β : Type} (a : α) (f : α → Except ε β) : ((Except.ok a : Except ε α) >>= f) = f a := rfl

@[simp] theorem error_bind {ε α β : Type} (e : ε) (f : α → Except ε β) :
    ((Except.error e : Except ε α) >>= f) = .error e := rfl

/-- A command succeeds only into its state with the response appended. -/
@[simp] theorem succeed_next_iff {a : BitVec 16} {d : BitVec 32} {s t : State} :
    succeed a d s = .next t ↔ t = reply stOk a d s := by
  simp [succeed, eq_comm]

/-- A raise goes on only into the faulted state. -/
@[simp] theorem raise_next_iff {k : ErrKind} {s t : State} : raise k s = .next t ↔ t = takeFault k s := by
  simp [raise, eq_comm]

/-- An unlocked block performs the command. -/
theorem whenUnlocked_open {s : State} (h : s.err = 0#8) (body : Result) : whenUnlocked s body = body := by
  simp [whenUnlocked, h]

/-- A locked block refuses the command. -/
theorem whenUnlocked_locked {s : State} (h : s.err ≠ 0#8) (body : Result) :
    whenUnlocked s body = .next (refuseLocked s) := by
  simp [whenUnlocked, h]

/-- The two ways a checked command goes on. -/
theorem whenUnlocked_next_iff {s t : State} {body : Result} :
    whenUnlocked s body = .next t ↔ (s.err = 0#8 ∧ body = .next t) ∨ (s.err ≠ 0#8 ∧ t = refuseLocked s) := by
  by_cases h : s.err = 0#8 <;> simp [whenUnlocked, h, eq_comm]

@[simp] theorem requireFlag_true {s : State} (body : Result) : requireFlag true s body = body := rfl

@[simp] theorem requireFlag_false {s : State} (body : Result) : requireFlag false s body = raise .seqError s := rfl

/-- A command whose flag is 1 passes the sequence check. -/
theorem requireFlag_open {flag : Bool} {s : State} (h : flag = true) (body : Result) : requireFlag flag s body = body := by
  subst h; rfl

/-- The two ways a command with a sequence check goes on. -/
theorem requireFlag_next_iff {flag : Bool} {s t : State} {body : Result} :
    requireFlag flag s body = .next t ↔ (flag = true ∧ body = .next t) ∨ (flag = false ∧ t = takeFault .seqError s) := by
  cases flag <;> simp

/-- What an illegal word does. -/
theorem illegalWord_next_iff {s t : State} :
    illegalWord s = .next t ↔
      (s.err = 0#8 ∧ t = takeFault .illegalCmd s) ∨ (s.err ≠ 0#8 ∧ t = refuseLocked s) := by
  simp [illegalWord, whenUnlocked_next_iff]

/-- Every fault code is nonzero. -/
@[simp] theorem code_ne_zero (k : ErrKind) : k.code ≠ 0#8 := by cases k <;> decide

/-- Different fault kinds have different codes. -/
theorem code_injective {j k : ErrKind} (h : j.code = k.code) : j = k := by
  revert h; cases j <;> cases k <;> decide

/-- No fault kind has the code of a refusal or of success. -/
theorem code_ne_locked (k : ErrKind) : k.code ≠ stLocked := by cases k <;> decide

/-! ## The four shapes of a step -/

theorem step_waiting {s : State} (h : s.input = []) : step s = .next s := by
  simp [step, takeInput, h]

theorem step_hardReset {s : State} {rest : List PortEvent} (h : s.input = .hardReset :: rest) :
    step s = .next (clearBlock { s with input := rest }) := by
  simp [step, takeInput, h]

theorem step_legal {s : State} {w : CmdWord} {i : Instr} {rest : List PortEvent} (h : s.input = .cmd w :: rest)
    (hd : decode w = some i) : step s = exec i { s with input := rest } := by
  simp [step, takeInput, h, hd]

theorem step_illegal {s : State} {w : CmdWord} {rest : List PortEvent} (h : s.input = .cmd w :: rest)
    (hd : decode w = none) : step s = illegalWord { s with input := rest } := by
  simp [step, takeInput, h, hd]

/-- Everything a step can be. -/
theorem step_cases (s : State) :
    (s.input = [] ∧ step s = .next s) ∨
    (∃ rest, s.input = .hardReset :: rest ∧ step s = .next (clearBlock { s with input := rest })) ∨
    (∃ w i rest, s.input = .cmd w :: rest ∧ decode w = some i ∧ step s = exec i { s with input := rest }) ∨
    (∃ w rest, s.input = .cmd w :: rest ∧ decode w = none ∧ step s = illegalWord { s with input := rest }) := by
  rcases h : s.input with _ | ⟨_ | _, rest⟩
  · exact .inl ⟨rfl, step_waiting h⟩
  · rename_i w
    rcases hd : decode w with _ | i
    · exact .inr <| .inr <| .inr ⟨w, rest, rfl, hd, step_illegal h hd⟩
    · exact .inr <| .inr <| .inl ⟨w, i, rest, rfl, hd, step_legal h hd⟩
  · exact .inr <| .inl ⟨rest, rfl, step_hardReset h⟩

end Sys2Proof.Machine
end

