-- ==== Sys2Proof/Laws/Tables.lean ====
section
/-! SUPPORT. The arrays indexed by symbol: reading after writing, extensionality, and the list of all symbols. -/

namespace Sys2Proof.Machine

variable {α : Type}

@[simp] theorem symGet_symSet_self (t : SymTable α) (x : Byte) (v : α) : symGet (symSet t x v) x = v := by
  simp [symGet, symSet]

theorem symGet_symSet_ne (t : SymTable α) {x y : Byte} (v : α) (h : y ≠ x) :
    symGet (symSet t x v) y = symGet t y := by
  have hn : x.toNat ≠ y.toNat := fun e => h (BitVec.eq_of_toNat_eq e.symm)
  simp [symGet, symSet, hn]

theorem symGet_symSet (t : SymTable α) (x y : Byte) (v : α) :
    symGet (symSet t x v) y = if y = x then v else symGet t y := by
  split
  · subst_vars; simp
  · exact symGet_symSet_ne t v ‹_›

@[simp] theorem symGet_replicate (v : α) (x : Byte) : symGet (Vector.replicate 256 v) x = v := by
  simp [symGet]

@[simp] theorem symGet_emptyTable (x : Byte) : symGet emptyTable x = none := symGet_replicate _ _

/-- Two arrays that agree at every symbol are equal. -/
theorem symTable_ext {t u : SymTable α} (h : ∀ x, symGet t x = symGet u x) : t = u := by
  apply Vector.ext
  intro i hi
  have := h (BitVec.ofNat 8 i)
  simpa [symGet, Nat.mod_eq_of_lt hi] using this

/-- Every symbol is in the list. -/
theorem mem_symbols (x : Byte) : x ∈ symbols :=
  List.mem_map.2 ⟨x.toNat, List.mem_range.2 x.isLt, by simp⟩

/-- The list of symbols is ascending. -/
theorem symbols_ascending : symbols.Pairwise (fun x y => x.toNat < y.toNat) := by
  rw [symbols, List.pairwise_map]
  refine List.Pairwise.imp_of_mem ?_ List.pairwise_lt_range
  intro a b ha hb hab
  rw [List.mem_range] at ha hb
  simp [Nat.mod_eq_of_lt ha, Nat.mod_eq_of_lt hb, hab]

/-- No symbol is listed twice. -/
theorem symbols_nodup : symbols.Nodup :=
  symbols_ascending.imp (fun h e => by subst e; exact absurd h (lt_irrefl _))

@[simp] theorem symbols_length : symbols.length = 256 := by simp [symbols]

/-- A sum over all symbols of what is 1 at one symbol and 0 elsewhere. -/
theorem sum_indicator {l : List Byte} (h : l.Nodup) (x : Byte) :
    (l.map (fun y => if y = x then 1 else 0)).sum = if x ∈ l then 1 else 0 := by
  induction l with
  | nil => rfl
  | cons z l ih =>
    rw [List.nodup_cons] at h
    rw [List.map_cons, List.sum_cons, ih h.2]
    by_cases hz : z = x
    · subst hz; simp [h.1]
    · have : ¬ x = z := fun e => hz e.symm
      simp [hz, this]

/-- The numbers of occurrences of all symbols add up to the number of bytes (R24, R100 of 40_frequency.md). -/
theorem sum_counts (bytes : List Byte) : (symbols.map (fun x => bytes.count x)).sum = bytes.length := by
  induction bytes with
  | nil =>
    have h : ∀ l : List Byte, (l.map (fun x => ([] : List Byte).count x)).sum = 0 := by
      intro l
      induction l with
      | nil => rfl
      | cons z l ih => rw [List.map_cons, List.sum_cons, ih, List.count_nil]
    exact h symbols
  | cons y bytes ih =>
    have h : ∀ l : List Byte, (l.map (fun x => (y :: bytes).count x)).sum =
        (l.map (fun x => bytes.count x)).sum + (l.map (fun x => if x = y then 1 else 0)).sum := by
      intro l
      induction l with
      | nil => rfl
      | cons z l ih =>
        rw [List.map_cons, List.map_cons, List.map_cons, List.sum_cons, List.sum_cons, List.sum_cons, ih, List.count_cons]
        by_cases hz : z = y
        · subst hz; rw [if_pos rfl, if_pos (by simp)]; omega
        · rw [if_neg hz, if_neg (by simpa using fun e => hz e.symm)]; omega
    rw [h, ih, sum_indicator symbols_nodup, if_pos (mem_symbols y), List.length_cons]

end Sys2Proof.Machine
end

