-- ==== Sys2Proof/Laws/CodeTable.lean ====
section
/-! SUPPORT. The code-table builder: the table it derives holds exactly the code words of the tree, and it faults exactly when a symbol
stands at two leaves (44_code_table.md R171 to R177). -/

namespace Sys2Proof.Machine

/-- What the traversal has done when it ends: every leaf symbol was new and got its path, all other entries are as before (R171). -/
theorem walk_ok {t : CodeTree} {acc : List Digit} {ct ct' : SymTable (Option (List Digit))} (h : walk t acc ct = .ok ct') :
    t.leafSyms.Nodup ∧ (∀ x ∈ t.leafSyms, symGet ct x = none) ∧
      (∀ p x, (p, x) ∈ t.paths → symGet ct' x = some (acc ++ p)) ∧
      (∀ x, x ∉ t.leafSyms → symGet ct' x = symGet ct x) := by
  induction t generalizing acc ct ct' with
  | leaf y =>
    simp only [walk] at h
    split at h
    · cases h
    · rename_i hy
      simp only [Except.ok.injEq] at h
      subst h
      refine ⟨by simp [CodeTree.leafSyms], by simpa [CodeTree.leafSyms] using hy, ?_, ?_⟩
      · intro p x hp
        simp only [CodeTree.paths, List.mem_singleton, Prod.mk.injEq] at hp
        obtain ⟨rfl, rfl⟩ := hp
        simp
      · intro x hx
        exact symGet_symSet_ne _ _ (by simpa [CodeTree.leafSyms] using hx)
  | internal z o hz ho =>
    obtain ⟨c1, h1, h2⟩ := bind_ok_iff.1 h
    obtain ⟨nz, fz, pz, oz⟩ := hz h1
    obtain ⟨no, fo, po, oo⟩ := ho h2
    have hdis : ∀ x ∈ z.leafSyms, x ∉ o.leafSyms := by
      intro x hx hxo
      rw [← CodeTree.paths_map_snd, List.mem_map] at hx
      obtain ⟨⟨p, y⟩, hp, rfl⟩ := hx
      have := fo _ hxo
      rw [pz _ _ hp] at this
      cases this
    refine ⟨?_, ?_, ?_, ?_⟩
    · rw [CodeTree.leafSyms, List.nodup_append]
      exact ⟨nz, no, fun a ha b hb e => hdis a ha (e ▸ hb)⟩
    · intro x hx
      simp only [CodeTree.leafSyms, List.mem_append] at hx
      by_cases hxz : x ∈ z.leafSyms
      · exact fz x hxz
      · rw [← oz x hxz]; exact fo x (hx.resolve_left hxz)
    · intro p x hp
      obtain ⟨b, q, rfl, hq⟩ := CodeTree.mem_paths_internal.1 hp
      cases b
      · have hx : x ∈ z.leafSyms := by rw [← CodeTree.paths_map_snd]; exact List.mem_map.2 ⟨_, hq, rfl⟩
        rw [oo x (hdis x hx), pz _ _ hq]; simp
      · rw [po _ _ hq]; simp
    · intro x hx
      simp only [CodeTree.leafSyms, List.mem_append, not_or] at hx
      rw [oo x hx.2, oz x hx.1]

/-- The traversal succeeds when every leaf symbol is new. -/
theorem walk_total {t : CodeTree} (acc : List Digit) {ct : SymTable (Option (List Digit))} (hn : t.leafSyms.Nodup)
    (hf : ∀ x ∈ t.leafSyms, symGet ct x = none) : ∃ ct', walk t acc ct = .ok ct' := by
  induction t generalizing acc ct with
  | leaf y => exact ⟨symSet ct y (some acc), by simp [walk, hf y (by simp [CodeTree.leafSyms])]⟩
  | internal z o hz ho =>
    rw [CodeTree.leafSyms, List.nodup_append] at hn
    obtain ⟨c1, h1⟩ := hz (acc ++ [false]) hn.1 (fun x hx => hf x (by simp [CodeTree.leafSyms, hx]))
    obtain ⟨c2, h2⟩ := ho (acc ++ [true]) (ct := c1) hn.2.1 (fun x hx => by
      rw [(walk_ok h1).2.2.2 x (fun hz => hn.2.2 x hz x hx rfl)]
      exact hf x (by simp [CodeTree.leafSyms, hx]))
    exact ⟨c2, by simp [walk, h1, h2]⟩

/-- The traversal's only fault is `DupSymbol` (R176). -/
theorem walk_error {t : CodeTree} {acc : List Digit} {ct : SymTable (Option (List Digit))} {e : ErrKind}
    (h : walk t acc ct = .error e) : e = .dupSymbol := by
  induction t generalizing acc ct with
  | leaf y =>
    simp only [walk] at h
    split at h
    · simpa using h.symm
    · cases h
  | internal z o hz ho =>
    rcases bind_error_iff.1 h with h | ⟨_, _, h⟩
    · exact hz h
    · exact ho h

/-- The table of a tree: it exists exactly when no symbol stands at two leaves, and its valid entries are exactly the code words
(R172, R174, R177). -/
theorem buildTable_ok_iff {t : CodeTree} {ct : SymTable (Option (List Digit))} :
    buildTable t = .ok ct ↔
      t.leafSyms.Nodup ∧ ∀ x p, symGet ct x = some p ↔ (p, x) ∈ t.codeWords := by
  have key : ∀ {ct : SymTable (Option (List Digit))}, buildTable t = .ok ct →
      t.leafSyms.Nodup ∧ ∀ x p, symGet ct x = some p ↔ (p, x) ∈ t.codeWords := by
    intro ct h
    cases t with
    | leaf y =>
      simp only [buildTable, Except.ok.injEq] at h
      subst h
      refine ⟨by simp [CodeTree.leafSyms], fun x p => ?_⟩
      rw [symGet_symSet]
      by_cases hx : x = y <;> simp [hx, CodeTree.codeWords, eq_comm]
    | internal z o =>
      obtain ⟨hn, _, hp, ho⟩ := walk_ok h
      refine ⟨hn, fun x p => ⟨fun hx => ?_, fun hx => hp p x hx⟩⟩
      by_cases hm : x ∈ (CodeTree.internal z o).leafSyms
      · rw [← CodeTree.paths_map_snd, List.mem_map] at hm
        obtain ⟨⟨q, y⟩, hq, rfl⟩ := hm
        have := hp q y hq
        rw [hx] at this
        obtain rfl : p = q := by simpa using this
        exact hq
      · rw [ho x hm, symGet_emptyTable] at hx
        cases hx
  refine ⟨key, fun ⟨hn, hct⟩ => ?_⟩
  have hex : ∃ ct', buildTable t = .ok ct' := by
    cases t with
    | leaf y => exact ⟨_, rfl⟩
    | internal z o => exact walk_total [] hn (fun x _ => symGet_emptyTable x)
  obtain ⟨ct', hct'⟩ := hex
  rw [hct']
  have h2 := (key hct').2
  refine congrArg _ (symTable_ext fun x => Option.ext fun p => ?_)
  rw [h2, hct]

theorem buildTable_error {t : CodeTree} {e : ErrKind} (h : buildTable t = .error e) : e = .dupSymbol := by
  cases t with
  | leaf y => cases h
  | internal z o => exact walk_error h

/-- A table of a tree has as many valid entries as the tree has leaves (R172). -/
theorem validCount_eq {t : CodeTree} {ct : SymTable (Option (List Digit))} (h : buildTable t = .ok ct) :
    validCount ct = t.leafCount := by
  obtain ⟨hn, hct⟩ := buildTable_ok_iff.1 h
  have hmem : ∀ x, (symGet ct x).isSome = true ↔ x ∈ t.leafSyms := by
    intro x
    rw [← CodeTree.codeWords_map_snd, List.mem_map, Option.isSome_iff_exists]
    constructor
    · rintro ⟨p, hp⟩; exact ⟨_, (hct x p).1 hp, rfl⟩
    · rintro ⟨⟨p, y⟩, hp, rfl⟩; exact ⟨p, (hct y p).2 hp⟩
  have hperm : (symbols.filter (fun x => (symGet ct x).isSome)).Perm t.leafSyms :=
    (List.perm_ext_iff_of_nodup (symbols_nodup.filter _) hn).2 (fun x => by simp [mem_symbols, ← hmem])
  rw [validCount, List.countP_eq_length_filter, hperm.length_eq, CodeTree.leafSyms_length]

end Sys2Proof.Machine
end

