-- ==== Sys2Proof/Laws/Memory.lean ====
section
/-! SUPPORT. The node memory: allocating, reading back, and the relation between the entries and the tree they hold
(10_state.md R27, R29, 42_tree_builder.md R131). -/

namespace Sys2Proof.Machine

/-- What an allocation can do: it succeeds with the next id while fewer than 511 entries are in use. -/
theorem alloc_ok_iff {v : Node} {tm tm' : List Node} {n : NodeId} :
    alloc v tm = .ok (n, tm') ↔ tm.length < 511 ∧ n = BitVec.ofNat 9 tm.length ∧ tm' = tm ++ [v] := by
  simp only [alloc, Config.nnode]
  split
  · simp; omega
  · simp only [Except.ok.injEq, Prod.mk.injEq]
    constructor
    · rintro ⟨rfl, rfl⟩; exact ⟨by omega, rfl, rfl⟩
    · rintro ⟨_, rfl, rfl⟩; exact ⟨rfl, rfl⟩

theorem alloc_error_iff {v : Node} {tm : List Node} {k : ErrKind} :
    alloc v tm = .error k ↔ 511 ≤ tm.length ∧ k = .capacityError := by
  simp only [alloc, Config.nnode]
  split <;> simp_all [eq_comm]

/-- A node id made from an in-range number is that number. -/
theorem toNat_nodeId {n : Nat} (h : n < 512) : (BitVec.ofNat 9 n).toNat = n := by
  simp; omega

theorem readNode_eq_some_lt {tm : List Node} {n : NodeId} {v : Node} (h : readNode tm n = some v) :
    n.toNat < tm.length := (List.getElem?_eq_some_iff.1 h).1

/-- Entries already written are not changed by later allocations. -/
theorem readNode_append {tm : List Node} {n : NodeId} {v : Node} (h : readNode tm n = some v) (l : List Node) :
    readNode (tm ++ l) n = some v := by
  unfold readNode at *
  rw [List.getElem?_append_left (List.getElem?_eq_some_iff.1 h).1, h]

theorem Holds.append {tm : List Node} {t : CodeTree} {n : NodeId} {ids : List Nat} (h : Holds tm t n ids) (l : List Node) :
    Holds (tm ++ l) t n ids := by
  induction t generalizing n ids with
  | leaf => exact ⟨readNode_append h.1 l, h.2⟩
  | internal z o hz ho =>
    obtain ⟨nz, no, iz, io, hr, h1, h2, rfl⟩ := h
    exact ⟨nz, no, iz, io, readNode_append hr l, hz h1, ho h2, rfl⟩

/-- The entries of a tree are as many as its nodes. -/
theorem Holds.length {tm : List Node} {t : CodeTree} {n : NodeId} {ids : List Nat} (h : Holds tm t n ids) :
    ids.length = t.nodeCount := by
  induction t generalizing n ids with
  | leaf => simp [h.2, CodeTree.nodeCount]
  | internal z o hz ho =>
    obtain ⟨nz, no, iz, io, hr, h1, h2, rfl⟩ := h
    simp [CodeTree.nodeCount, hz h1, ho h2]

/-- The root's entry comes first. -/
theorem Holds.eq_cons {tm : List Node} {t : CodeTree} {n : NodeId} {ids : List Nat} (h : Holds tm t n ids) :
    ∃ rest, ids = n.toNat :: rest := by
  cases t with
  | leaf => exact ⟨[], h.2⟩
  | internal z o =>
    obtain ⟨_, _, iz, io, _, _, _, rfl⟩ := h
    exact ⟨_, rfl⟩

theorem Holds.root_mem {tm : List Node} {t : CodeTree} {n : NodeId} {ids : List Nat} (h : Holds tm t n ids) :
    n.toNat ∈ ids := by
  obtain ⟨rest, rfl⟩ := h.eq_cons
  exact List.mem_cons_self

theorem Holds.root_lt {tm : List Node} {t : CodeTree} {n : NodeId} {ids : List Nat} (h : Holds tm t n ids) :
    n.toNat < tm.length := by
  cases t with
  | leaf => exact readNode_eq_some_lt h.1
  | internal z o => obtain ⟨_, _, _, _, hr, _⟩ := h; exact readNode_eq_some_lt hr

/-- A node id has one tree and one list of entries below it. -/
theorem Holds.unique {tm : List Node} {t u : CodeTree} {n : NodeId} {ids jds : List Nat} (h : Holds tm t n ids)
    (h' : Holds tm u n jds) : t = u ∧ ids = jds := by
  induction t generalizing n ids u jds with
  | leaf x =>
    cases u with
    | leaf y =>
      have := h.1.symm.trans h'.1
      simp_all [Holds]
    | internal z o => obtain ⟨_, _, _, _, hr, _⟩ := h'; have := h.1.symm.trans hr; simp at this
  | internal z o hz ho =>
    obtain ⟨nz, no, iz, io, hr, h1, h2, rfl⟩ := h
    cases u with
    | leaf y => have := hr.symm.trans h'.1; simp at this
    | internal z' o' =>
      obtain ⟨nz', no', iz', io', hr', h1', h2', rfl⟩ := h'
      have := hr.symm.trans hr'
      simp only [Option.some.injEq, Node.internal.injEq] at this
      obtain ⟨rfl, rfl⟩ := this
      obtain ⟨rfl, rfl⟩ := hz h1 h1'
      obtain ⟨rfl, rfl⟩ := ho h2 h2'
      exact ⟨rfl, rfl⟩

/-- Reading a stored tree with enough levels gives it. -/
theorem readTree_of_holds {tm : List Node} {t : CodeTree} {n : NodeId} {ids : List Nat} (h : Holds tm t n ids) {k : Nat}
    (hk : t.depth < k) : readTree k tm n = some t := by
  induction t generalizing n ids k with
  | leaf x =>
    obtain ⟨k, rfl⟩ : ∃ j, k = j + 1 := ⟨k - 1, by simp only [CodeTree.depth] at hk; omega⟩
    simp [readTree, h.1]
  | internal z o hz ho =>
    obtain ⟨nz, no, iz, io, hr, h1, h2, rfl⟩ := h
    simp only [CodeTree.depth] at hk
    obtain ⟨k, rfl⟩ : ∃ j, k = j + 1 := ⟨k - 1, by omega⟩
    have hz' := hz h1 (k := k) (by omega)
    have ho' := ho h2 (k := k) (by omega)
    simp [readTree, hr, hz', ho']

theorem HoldsTree.nodeCount {tm : List Node} {r : NodeId} {t : CodeTree} (h : HoldsTree tm r t) :
    t.nodeCount = tm.length := by
  obtain ⟨ids, h1, h2, _⟩ := h
  rw [← h1.length, h2.length_eq, List.length_range]

/-- `tree(ROOT)` is the tree that the node memory holds (R13). -/
theorem HoldsTree.tree {s : State} {t : CodeTree} (h : HoldsTree s.tm s.root t) : s.tree = some t := by
  have hn := h.nodeCount
  obtain ⟨ids, h1, _⟩ := h
  exact readTree_of_holds h1 (hn ▸ t.depth_lt_nodeCount)

/-- A node memory and a root hold one tree. -/
theorem HoldsTree.unique {tm : List Node} {r : NodeId} {t u : CodeTree} (h : HoldsTree tm r t) (h' : HoldsTree tm r u) :
    t = u := by
  obtain ⟨_, h1, _⟩ := h
  obtain ⟨_, h1', _⟩ := h'
  exact (h1.unique h1').1

/-- What the root's entry says of the tree. -/
theorem HoldsTree.readNode_root {tm : List Node} {r : NodeId} {t : CodeTree} (h : HoldsTree tm r t) :
    (∃ x, t = .leaf x ∧ readNode tm r = some (.leaf x)) ∨
    (∃ z o nz no, t = .internal z o ∧ readNode tm r = some (.internal nz no)) := by
  obtain ⟨ids, h1, _⟩ := h
  cases t with
  | leaf x => exact .inl ⟨x, rfl, h1.1⟩
  | internal z o => obtain ⟨nz, no, _, _, hr, _⟩ := h1; exact .inr ⟨z, o, nz, no, rfl, hr⟩

/-! ## Following a path -/

/-- The subtree at the end of a bit-string, if the bit-string does not leave the tree. -/
def subtree : CodeTree → List Digit → Option CodeTree
  | t, [] => some t
  | .leaf _, _ :: _ => none
  | .internal z o, b :: p => subtree (if b then o else z) p

theorem subtree_append (t : CodeTree) (p q : List Digit) : subtree t (p ++ q) = (subtree t p).bind (fun u => subtree u q) := by
  induction p generalizing t with
  | nil => simp [subtree]
  | cons b p ih => cases t <;> simp [subtree, ih]

theorem subtree_leaf_iff {t : CodeTree} {p : List Digit} {x : Byte} : subtree t p = some (.leaf x) ↔ (p, x) ∈ t.paths := by
  induction t generalizing p with
  | leaf y => cases p <;> simp [subtree, CodeTree.paths, eq_comm]
  | internal z o hz ho =>
    rw [CodeTree.mem_paths_internal]
    cases p with
    | nil => simp [subtree]
    | cons b p => cases b <;> simp [subtree, hz, ho]

/-- A path that ends at an Internal node goes on to its children (R13). -/
theorem followPath_snoc {tm : List Node} {n m z o : NodeId} {p : List Digit} {b : Digit} (hf : followPath tm n p = some m)
    (hr : readNode tm m = some (.internal z o)) (hlt : (if b then o else z).toNat < tm.length) :
    followPath tm n (p ++ [b]) = some (if b then o else z) := by
  induction p generalizing n with
  | nil =>
    have hn : n.toNat < tm.length := by by_contra hge; simp [followPath, hge] at hf
    simp only [followPath, hn, if_true, Option.some.injEq] at hf
    subst hf
    simp [followPath, hr, hlt]
  | cons d p ih =>
    simp only [followPath, List.cons_append] at hf ⊢
    split at hf
    · exact ih hf
    · cases hf

/-- Following a path in the node memory reaches the entry of the subtree there, and only that (R13). -/
theorem followPath_of_subtree {tm : List Node} {t u : CodeTree} {n : NodeId} {ids : List Nat} (h : Holds tm t n ids)
    {p : List Digit} (hp : subtree t p = some u) :
    ∃ m jds, followPath tm n p = some m ∧ Holds tm u m jds ∧ jds ⊆ ids := by
  induction t generalizing n ids p with
  | leaf x =>
    cases p with
    | nil =>
      cases hp
      exact ⟨n, ids, by simp [followPath, h.root_lt], h, List.Subset.refl _⟩
    | cons => simp [subtree] at hp
  | internal z o hz ho =>
    cases p with
    | nil =>
      cases hp
      exact ⟨n, ids, by simp [followPath, h.root_lt], h, List.Subset.refl _⟩
    | cons b p =>
      obtain ⟨nz, no, iz, io, hr, h1, h2, rfl⟩ := h
      cases b
      · obtain ⟨m, jds, e, hm, hs⟩ := hz h1 (p := p) (by simpa [subtree] using hp)
        exact ⟨m, jds, by simpa [followPath, hr] using e, hm, fun a ha => by simp [hs ha]⟩
      · obtain ⟨m, jds, e, hm, hs⟩ := ho h2 (p := p) (by simpa [subtree] using hp)
        exact ⟨m, jds, by simpa [followPath, hr] using e, hm, fun a ha => by simp [hs ha]⟩

/-- A path that can be followed ends at a subtree. -/
theorem subtree_of_followPath {tm : List Node} {t : CodeTree} {n m : NodeId} {ids : List Nat} (h : Holds tm t n ids)
    {p : List Digit} (hp : followPath tm n p = some m) :
    ∃ u jds, subtree t p = some u ∧ Holds tm u m jds := by
  induction t generalizing n ids p with
  | leaf x =>
    cases p with
    | nil =>
      simp only [followPath, h.root_lt, if_true, Option.some.injEq] at hp
      subst hp
      exact ⟨_, _, rfl, h⟩
    | cons => simp [followPath, h.1] at hp
  | internal z o hz ho =>
    cases p with
    | nil =>
      simp only [followPath, h.root_lt, if_true, Option.some.injEq] at hp
      subst hp
      exact ⟨_, _, rfl, h⟩
    | cons b p =>
      obtain ⟨nz, no, iz, io, hr, h1, h2, rfl⟩ := h
      cases b
      · simpa [subtree] using hz h1 (p := p) (by simpa [followPath, hr] using hp)
      · simpa [subtree] using ho h2 (p := p) (by simpa [followPath, hr] using hp)

/-- Every entry of a tree is at the end of some path. -/
theorem Holds.exists_path {tm : List Node} {t : CodeTree} {n : NodeId} {ids : List Nat} (h : Holds tm t n ids) {j : Nat}
    (hj : j ∈ ids) : ∃ p m, followPath tm n p = some m ∧ m.toNat = j := by
  induction t generalizing n ids with
  | leaf x =>
    have := h.root_lt
    rw [h.2, List.mem_singleton] at hj
    exact ⟨[], n, by simp [followPath, this], hj.symm⟩
  | internal z o hz ho =>
    have hlt := h.root_lt
    obtain ⟨nz, no, iz, io, hr, h1, h2, rfl⟩ := h
    simp only [List.mem_cons, List.mem_append] at hj
    rcases hj with rfl | hj | hj
    · exact ⟨[], n, by simp [followPath, hlt], rfl⟩
    · obtain ⟨p, m, e, rfl⟩ := hz h1 hj
      exact ⟨false :: p, m, by simpa [followPath, hr] using e, rfl⟩
    · obtain ⟨p, m, e, rfl⟩ := ho h2 hj
      exact ⟨true :: p, m, by simpa [followPath, hr] using e, rfl⟩

end Sys2Proof.Machine
end

