-- ==== Sys2Proof/Laws/HeaderCodec.lean ====
section
/-! SUPPORT. The header codec: the parser accepts exactly the serialised trees and lays their nodes out in pre-order
(43_header_codec.md R155, R160, R163). -/

namespace Sys2Proof.Machine

@[simp] theorem CodeTree.layout_length (t : CodeTree) (base : Nat) : (t.layout base).length = t.nodeCount := by
  induction t generalizing base with
  | leaf => rfl
  | internal z o hz ho => simp [CodeTree.layout, CodeTree.nodeCount, hz, ho]

/-- Filling in the children of a node that was allocated before them. -/
theorem set_placeholder (tm l : List Node) (v w : Node) (h : tm.length < 512) :
    (tm ++ [v] ++ l).set (BitVec.ofNat 9 tm.length).toNat w = tm ++ w :: l := by
  rw [toNat_nodeId h]
  simp

/-- The parser reads a serialised tree, leaves what follows it, and numbers the nodes in pre-order (R155, R163). -/
theorem parse_ser (t : CodeTree) {k : Nat} (rest : List Byte) {tm : List Node} (hk : t.depth < k)
    (hn : tm.length + t.nodeCount ≤ 511) :
    parse k (t.ser ++ rest) tm = .ok (BitVec.ofNat 9 tm.length, rest, tm ++ t.layout tm.length) := by
  induction t generalizing k rest tm with
  | leaf x =>
    obtain ⟨k, rfl⟩ : ∃ j, k = j + 1 := ⟨k - 1, by simp only [CodeTree.depth] at hk; omega⟩
    simp only [CodeTree.nodeCount] at hn
    have ha := (alloc_ok_iff (v := .leaf x) (tm := tm)).2 ⟨by omega, rfl, rfl⟩
    simp [parse, CodeTree.ser, CodeTree.layout, ha]
  | internal z o hz ho =>
    simp only [CodeTree.depth] at hk
    simp only [CodeTree.nodeCount] at hn
    obtain ⟨k, rfl⟩ : ∃ j, k = j + 1 := ⟨k - 1, by omega⟩
    have ha := (alloc_ok_iff (v := .internal 0#9 0#9) (tm := tm)).2 ⟨by omega, rfl, rfl⟩
    have h1 := hz (k := k) (o.ser ++ (Config.rpar :: rest)) (tm := tm ++ [.internal 0#9 0#9]) (by omega)
      (by simp; omega)
    have h2 := ho (k := k) (Config.rpar :: rest)
      (tm := tm ++ [.internal 0#9 0#9] ++ z.layout (tm.length + 1)) (by omega) (by simp; omega)
    simp only [List.length_append, List.length_singleton, CodeTree.layout_length] at h1 h2
    have hs := set_placeholder tm (z.layout (tm.length + 1) ++ o.layout (tm.length + 1 + z.nodeCount))
      (.internal 0#9 0#9)
      (.internal (BitVec.ofNat 9 (tm.length + 1)) (BitVec.ofNat 9 (tm.length + 1 + z.nodeCount))) (by omega)
    have he : (CodeTree.internal z o).ser ++ rest = Config.lpar :: (z.ser ++ (o.ser ++ Config.rpar :: rest)) := by
      simp [CodeTree.ser]
    rw [he]
    simp only [parse, show ¬ (Config.lpar = Config.dot) by decide, if_false, if_true, ha, ok_bind, h1, h2]
    simp only [← List.append_assoc] at hs ⊢
    rw [hs]
    rfl

/-- Whatever the parser accepts is a serialised tree, laid out in pre-order (R155, R160). -/
theorem parse_ok {k : Nat} {str rest : List Byte} {tm tm' : List Node} {n : NodeId}
    (h : parse k str tm = .ok (n, rest, tm')) :
    ∃ t : CodeTree, str = t.ser ++ rest ∧ n = BitVec.ofNat 9 tm.length ∧ tm' = tm ++ t.layout tm.length ∧
      tm.length + t.nodeCount ≤ 511 := by
  induction k generalizing str rest tm tm' n with
  | zero => simp [parse] at h
  | succ k ih =>
    cases str with
    | nil => simp [parse] at h
    | cons c str =>
      simp only [parse] at h
      split at h
      · rename_i hc
        cases str with
        | nil => simp at h
        | cons x str =>
          obtain ⟨⟨m, tm1⟩, ha, h⟩ := bind_ok_iff.1 h
          obtain ⟨hlt, rfl, rfl⟩ := alloc_ok_iff.1 ha
          simp only [Except.ok.injEq, Prod.mk.injEq] at h
          obtain ⟨rfl, rfl, rfl⟩ := h
          exact ⟨.leaf x, by simp [CodeTree.ser, hc], rfl, rfl, by simp only [CodeTree.nodeCount]; omega⟩
      · split at h
        · rename_i hc
          obtain ⟨⟨m, tm1⟩, ha, h⟩ := bind_ok_iff.1 h
          obtain ⟨hlt, rfl, rfl⟩ := alloc_ok_iff.1 ha
          obtain ⟨⟨nz, p1, tm2⟩, hz, h⟩ := bind_ok_iff.1 h
          obtain ⟨⟨no, p2, tm3⟩, ho, h⟩ := bind_ok_iff.1 h
          obtain ⟨z, rfl, rfl, rfl, hnz⟩ := ih hz
          obtain ⟨o, rfl, rfl, rfl, hno⟩ := ih ho
          simp only [List.length_append, List.length_singleton, CodeTree.layout_length] at hnz hno h
          cases p2 with
          | nil => simp at h
          | cons close p3 =>
            simp only at h
            split at h
            · rename_i hclose
              simp only [Except.ok.injEq, Prod.mk.injEq] at h
              obtain ⟨rfl, rfl, rfl⟩ := h
              refine ⟨.internal z o, by simp [CodeTree.ser, hc, hclose], rfl, ?_, ?_⟩
              · have hs := set_placeholder tm (z.layout (tm.length + 1) ++ o.layout (tm.length + 1 + z.nodeCount))
                  (.internal 0#9 0#9)
                  (.internal (BitVec.ofNat 9 (tm.length + 1)) (BitVec.ofNat 9 (tm.length + 1 + z.nodeCount))) (by omega)
                simp only [← List.append_assoc] at hs ⊢
                rw [hs]
                rfl
              · simp only [CodeTree.nodeCount]; omega
            · simp at h
        · simp at h

/-- The only faults of the parser (60_exceptions.md R275). -/
theorem parse_error {k : Nat} {str : List Byte} {tm : List Node} {e : ErrKind} (h : parse k str tm = .error e) :
    e = .formatError ∨ e = .capacityError := by
  induction k generalizing str tm e with
  | zero => simp only [parse, Except.error.injEq] at h; exact .inl h.symm
  | succ k ih =>
    cases str with
    | nil => simp only [parse, Except.error.injEq] at h; exact .inl h.symm
    | cons c str =>
      simp only [parse] at h
      split at h
      · cases str with
        | nil => simp only [Except.error.injEq] at h; exact .inl h.symm
        | cons x str =>
          rcases bind_error_iff.1 h with ha | ⟨_, _, h⟩
          · exact .inr (alloc_error_iff.1 ha).2
          · simp at h
      · split at h
        · rcases bind_error_iff.1 h with ha | ⟨_, _, h⟩
          · exact .inr (alloc_error_iff.1 ha).2
          rcases bind_error_iff.1 h with hz | ⟨_, _, h⟩
          · exact ih hz
          rcases bind_error_iff.1 h with ho | ⟨⟨_, p2, _⟩, _, h⟩
          · exact ih ho
          cases p2 with
          | nil => simp only [Except.error.injEq] at h; exact .inl h.symm
          | cons close rest =>
            simp only at h
            split at h
            · simp at h
            · simp only [Except.error.injEq] at h; exact .inl h.symm
        · simp only [Except.error.injEq] at h; exact .inl h.symm

/-- What is left after a tree is shorter than the string. -/
theorem parse_ok_length {k : Nat} {str rest : List Byte} {tm tm' : List Node} {n : NodeId}
    (h : parse k str tm = .ok (n, rest, tm')) : rest.length < str.length := by
  obtain ⟨t, rfl, _⟩ := parse_ok h
  have := List.length_pos_of_ne_nil t.ser_ne_nil
  simp only [List.length_append]
  omega

/-- A fault at the place where a tree must begin is the fault of the whole parse: the brackets and the zero-children before it
are consumed without one (R155, R161). -/
theorem parse_open_error {c : List (Option CodeTree)} {str : List Byte} {e : ErrKind} {tm : List Node} {k : Nat}
    (hn : tm.length + openNodes c ≤ 511) (hk : (openText c ++ str).length ≤ k)
    (h : ∀ (tm' : List Node) (k' : Nat), tm'.length = tm.length + openNodes c → str.length ≤ k' → parse k' str tm' = .error e) :
    parse k (openText c ++ str) tm = .error e := by
  induction c generalizing tm k with
  | nil => exact h tm k rfl (by simpa [openText] using hk)
  | cons z c ih =>
    cases z with
    | none =>
      simp only [openText, openNodes, List.cons_append, List.length_cons] at hn hk ⊢
      obtain ⟨k, rfl⟩ : ∃ j, k = j + 1 := ⟨k - 1, by omega⟩
      have ha : alloc (.internal 0#9 0#9) tm = .ok (BitVec.ofNat 9 tm.length, tm ++ [.internal 0#9 0#9]) :=
        alloc_ok_iff.2 ⟨by omega, rfl, rfl⟩
      simp only [parse, show ¬ (Config.lpar = Config.dot) by decide, if_false, if_true, ha, ok_bind]
      rw [ih (tm := tm ++ [Node.internal 0#9 0#9]) (k := k) (by simp; omega) (by omega)
        (fun tm' k' h1 h2 => h tm' k' (by rw [h1]; simp [openNodes]; omega) h2)]
      rfl
    | some z =>
      simp only [openText, openNodes, List.cons_append, List.length_cons, List.append_assoc] at hn hk ⊢
      obtain ⟨k, rfl⟩ : ∃ j, k = j + 1 := ⟨k - 1, by omega⟩
      have ha : alloc (.internal 0#9 0#9) tm = .ok (BitVec.ofNat 9 tm.length, tm ++ [.internal 0#9 0#9]) :=
        alloc_ok_iff.2 ⟨by omega, rfl, rfl⟩
      have hz := z.nodeCount_le_ser_length
      have hd := z.depth_lt_nodeCount
      simp only [List.length_append] at hk
      simp only [parse, show ¬ (Config.lpar = Config.dot) by decide, if_false, if_true, ha, ok_bind]
      rw [parse_ser z (openText c ++ str) (k := k) (by omega) (by simp; omega), ok_bind]
      dsimp only
      rw [ih (k := k) (by simp; omega) (by simp; omega)
        (fun tm' k' h1 h2 => h tm' k' (by rw [h1]; simp [openNodes]; omega) h2)]
      rfl

/-- As many levels as bytes are enough: more change nothing, so the recursion is the rule's own (R155). -/
theorem parse_fuel {k : Nat} {str : List Byte} (hk : str.length ≤ k) (tm : List Node) :
    parse (k + 1) str tm = parse k str tm := by
  induction k generalizing str tm with
  | zero => obtain rfl := List.length_eq_zero_iff.1 (Nat.le_zero.1 hk); rfl
  | succ k ih =>
    cases str with
    | nil => rfl
    | cons c str =>
      have hk' : str.length ≤ k := by simpa using hk
      simp only [parse]
      split
      · rfl
      · split
        · refine congrArg _ (funext fun a => ?_)
          obtain ⟨n, tm1⟩ := a
          simp only [ih hk']
          rcases hz : parse k str tm1 with e | ⟨z, p1, tm2⟩
          · rfl
          · have := parse_ok_length hz
            simp only [ok_bind, ih (show p1.length ≤ k by omega)]
        · rfl

/-- The whole header parser accepts exactly the serialised trees of at most 511 nodes (R155, R162). -/
theorem parseHeader_ok_iff {h : List Byte} {r : NodeId} {tm : List Node} :
    parseHeader h = .ok (r, tm) ↔ ∃ t : CodeTree, h = t.ser ∧ t.nodeCount ≤ 511 ∧ r = 0#9 ∧ tm = t.layout 0 := by
  constructor
  · intro hp
    obtain ⟨⟨n, rest, tm'⟩, h1, h2⟩ := bind_ok_iff.1 hp
    obtain ⟨t, rfl, rfl, rfl, hn⟩ := parse_ok h1
    cases rest with
    | nil =>
      simp only [List.isEmpty_nil, if_true, Except.ok.injEq, Prod.mk.injEq] at h2
      exact ⟨t, by simp, by simpa using hn, h2.1.symm, by simpa using h2.2.symm⟩
    | cons => simp at h2
  · rintro ⟨t, rfl, hn, rfl, rfl⟩
    have hk : t.depth < t.ser.length := by
      have := t.depth_lt_nodeCount; have := t.nodeCount_le_ser_length; omega
    have := parse_ser t [] (tm := []) hk (by simpa using hn)
    simp only [List.append_nil] at this
    simp [parseHeader, this]

/-- The only faults of the whole header parser. -/
theorem parseHeader_error {h : List Byte} {e : ErrKind} (hp : parseHeader h = .error e) :
    e = .formatError ∨ e = .capacityError := by
  rcases bind_error_iff.1 hp with h1 | ⟨⟨_, rest, _⟩, _, h2⟩
  · exact parse_error h1
  · simp only at h2
    split at h2
    · simp at h2
    · simp only [Except.error.injEq] at h2; exact .inl h2.symm

/-- A tree laid out in pre-order is stored, in consecutive entries (R160). -/
theorem holds_layout (t : CodeTree) (pre post : List Node) (hn : pre.length + t.nodeCount ≤ 512) :
    Holds (pre ++ t.layout pre.length ++ post) t (BitVec.ofNat 9 pre.length) (List.range' pre.length t.nodeCount) := by
  induction t generalizing pre post with
  | leaf x =>
    simp only [CodeTree.nodeCount] at hn
    refine ⟨?_, ?_⟩
    · unfold readNode
      rw [toNat_nodeId (by omega)]
      simp [CodeTree.layout]
    · rw [toNat_nodeId (by omega)]; rfl
  | internal z o hz ho =>
    simp only [CodeTree.nodeCount] at hn
    have hb : (BitVec.ofNat 9 pre.length).toNat = pre.length := toNat_nodeId (by omega)
    let v : Node := .internal (BitVec.ofNat 9 (pre.length + 1)) (BitVec.ofNat 9 (pre.length + 1 + z.nodeCount))
    have h1 := hz (pre ++ [v]) (o.layout (pre.length + 1 + z.nodeCount) ++ post) (by simp; omega)
    have h2 := ho (pre ++ [v] ++ z.layout (pre.length + 1)) post (by simp; omega)
    simp only [List.length_append, List.length_singleton, CodeTree.layout_length] at h1 h2
    have e1 : pre ++ (CodeTree.internal z o).layout pre.length ++ post =
        pre ++ [v] ++ z.layout (pre.length + 1) ++ (o.layout (pre.length + 1 + z.nodeCount) ++ post) := by
      simp [CodeTree.layout, v]
    have e2 : pre ++ (CodeTree.internal z o).layout pre.length ++ post =
        pre ++ [v] ++ z.layout (pre.length + 1) ++ o.layout (pre.length + 1 + z.nodeCount) ++ post := by
      simp [CodeTree.layout, v]
    refine ⟨_, _, _, _, ?_, e1 ▸ h1, e2 ▸ h2, ?_⟩
    · unfold readNode
      rw [hb]
      simp [CodeTree.layout]
    · rw [hb, CodeTree.nodeCount, List.range'_succ, ← List.range'_append_1]

end Sys2Proof.Machine
end

