-- ==== Sys2Proof/Laws/Queue.lean ====
section
/-! SUPPORT. The queue's two internal operations (41_priority_queue.md R111, R112, R117, R118), and what an insertion does under any
tie-break (49_properties.md R255). -/

namespace Sys2Proof.Machine

@[simp] theorem pqPop_nil : pqPop [] = none := rfl

@[simp] theorem pqPop_cons (e : PQEntry) (q : List PQEntry) : pqPop (e :: q) = some (e, q) := rfl

/-- An insertion adds exactly its entry (R118 b). -/
theorem pqInsert_perm (e : PQEntry) (q : List PQEntry) : (pqInsert e q).Perm (e :: q) := by
  simp only [pqInsert]
  refine List.perm_middle.trans ?_
  rw [List.take_append_drop]

@[simp] theorem pqInsert_length (e : PQEntry) (q : List PQEntry) : (pqInsert e q).length = q.length + 1 := by
  simpa using (pqInsert_perm e q).length_eq

theorem mem_pqInsert {e f : PQEntry} {q : List PQEntry} : f ∈ pqInsert e q ↔ f = e ∨ f ∈ q := by
  simpa using (pqInsert_perm e q).mem_iff (a := f)

theorem pqInsert_ne_nil (e : PQEntry) (q : List PQEntry) : pqInsert e q ≠ [] := by
  intro h; simpa [h] using pqInsert_length e q

/-- In a sorted queue the new entry stands after exactly the entries of lower or equal priority (R111, R112). -/
theorem pqInsert_split {q : List PQEntry} (hq : QueueSorted q) (e : PQEntry) :
    ∃ l r, q = l ++ r ∧ pqInsert e q = l ++ e :: r ∧ (∀ f ∈ l, f.prio ≤ e.prio) ∧ (∀ f ∈ r, e.prio < f.prio) := by
  induction q with
  | nil => exact ⟨[], [], rfl, rfl, by simp, by simp⟩
  | cons f q ih =>
    have hq' := List.pairwise_cons.1 hq
    by_cases hf : f.prio ≤ e.prio
    · obtain ⟨l, r, h1, h2, h3, h4⟩ := ih hq'.2
      refine ⟨f :: l, r, by simp [h1], ?_, by simpa [hf] using h3, h4⟩
      have : pqInsert e (f :: q) = f :: pqInsert e q := by simp [pqInsert, hf]
      rw [this, h2]; rfl
    · have hall : ∀ g ∈ f :: q, e.prio < g.prio := by
        intro g hg
        rcases List.mem_cons.1 hg with rfl | hg
        · exact BitVec.not_le.1 hf
        · have := hq'.1 g hg
          bv_omega
      refine ⟨[], f :: q, rfl, ?_, by simp, hall⟩
      have h0 : (f :: q).countP (fun g => decide (g.prio ≤ e.prio)) = 0 := by
        rw [List.countP_eq_zero]
        intro g hg
        have := hall g hg
        simp only [decide_eq_true_eq]
        bv_omega
      simp only [pqInsert, h0]; rfl

/-- This block's tie-break is one that HUF allows (R112, 42_tree_builder.md R133). -/
theorem blockTieBreak_lawful : blockTieBreak.Lawful := by
  refine ⟨fun e q hq => ?_, List.Perm.refl _⟩
  obtain ⟨l, r, h1, h2, h3, h4⟩ := pqInsert_split hq e
  exact ⟨l, r, h1, h2, h3, fun f hf => BitVec.le_of_lt (h4 f hf)⟩

namespace TieBreak.Lawful

variable {tb : TieBreak} {q : List PQEntry}

/-- Under any tie-break an insertion adds exactly its entry. -/
theorem insert_perm (h : tb.Lawful) (hq : QueueSorted q) (e : PQEntry) : (tb.insert e q).Perm (e :: q) := by
  obtain ⟨l, r, rfl, h2, _⟩ := h.1 e q hq
  rw [h2]
  exact List.perm_middle

/-- Under any tie-break an insertion keeps the queue sorted. -/
theorem insert_sorted (h : tb.Lawful) (hq : QueueSorted q) (e : PQEntry) : QueueSorted (tb.insert e q) := by
  obtain ⟨l, r, rfl, h2, h3, h4⟩ := h.1 e q hq
  rw [h2]
  have hp := List.pairwise_append.1 hq
  refine List.pairwise_append.2 ⟨hp.1, List.pairwise_cons.2 ⟨h4, hp.2.1⟩, ?_⟩
  intro f hf g hg
  rcases List.mem_cons.1 hg with rfl | hg
  · exact h3 f hf
  · exact hp.2.2 f hf g hg

theorem insert_length (h : tb.Lawful) (hq : QueueSorted q) (e : PQEntry) : (tb.insert e q).length = q.length + 1 := by
  simpa using (h.insert_perm hq e).length_eq

theorem mem_insert (h : tb.Lawful) (hq : QueueSorted q) {e f : PQEntry} : f ∈ tb.insert e q ↔ f = e ∨ f ∈ q := by
  simpa using (h.insert_perm hq e).mem_iff (a := f)

end TieBreak.Lawful

/-- An insertion keeps the queue sorted (R118 a). -/
theorem pqInsert_sorted {q : List PQEntry} (hq : QueueSorted q) (e : PQEntry) : QueueSorted (pqInsert e q) :=
  blockTieBreak_lawful.insert_sorted hq e

/-- Among entries of one priority an insertion adds the new one last (R112, R118 c). -/
theorem pqInsert_stable {q : List PQEntry} (hq : QueueSorted q) (e : PQEntry) (p : Count) :
    (pqInsert e q).filter (fun f => f.prio = p) = q.filter (fun f => f.prio = p) ++ [e].filter (fun f => f.prio = p) := by
  obtain ⟨l, r, h1, h2, h3, h4⟩ := pqInsert_split hq e
  subst h1
  rw [h2]
  by_cases hp : e.prio = p
  · have hr : r.filter (fun f => decide (f.prio = p)) = [] := by
      rw [List.filter_eq_nil_iff]
      intro f hf h
      have := h4 f hf
      simp only [decide_eq_true_eq] at h
      rw [h, hp] at this
      exact BitVec.lt_irrefl _ this
    simp [hp, hr]
  · simp [hp]

/-- Removing the first entry keeps the queue sorted, and no entry left has a lower priority (R117, R118 a). -/
theorem pqPop_sorted {q q' : List PQEntry} {e : PQEntry} (hq : QueueSorted q) (h : pqPop q = some (e, q')) :
    QueueSorted q' ∧ ∀ f ∈ q', e.prio ≤ f.prio := by
  cases q with
  | nil => cases h
  | cons f q =>
    simp only [pqPop_cons, Option.some.injEq, Prod.mk.injEq] at h
    obtain ⟨rfl, rfl⟩ := h
    exact ⟨(List.pairwise_cons.1 hq).2, (List.pairwise_cons.1 hq).1⟩

end Sys2Proof.Machine
end

