-- ==== Sys2Proof/Laws/TreeBuilder.lean ====
section
/-! SUPPORT. The tree builder: what the seeding loop leaves, the invariant of the merge loop, and what the whole construction answers
(42_tree_builder.md R132 to R140). All of it holds for any tie-break and any order of the seeds (49_properties.md R255). -/

namespace Sys2Proof.Machine

variable {tb : TieBreak}

/-! ## Seeding -/

/-- What the seeding loop has built once it has seen the symbols `done`: their leaves in order, and a sorted queue with one entry
for each, keyed by its count (R132, R133). -/
structure Seeded (ft : SymTable Count) (b : Build) (done : List Byte) : Prop where
  tm : b.tm = done.map .leaf
  sorted : QueueSorted b.pq
  entries : b.pq.Perm (done.mapIdx (fun i x => ⟨symGet ft x, BitVec.ofNat 9 i⟩))

/-- Seeding never faults, and adds the symbols with a nonzero count in the order given (R131, R133). -/
theorem seed_spec (htb : tb.Lawful) {ft : SymTable Count} {xs done : List Byte} {b : Build} (hl : done.length + xs.length ≤ 256)
    (hb : Seeded ft b done) :
    ∃ b', seed tb ft xs b = .ok b' ∧ Seeded ft b' (done ++ xs.filter (fun x => symGet ft x ≠ 0#32)) := by
  induction xs generalizing b done with
  | nil => exact ⟨b, rfl, by simpa using hb⟩
  | cons x xs ih =>
    simp only [List.length_cons] at hl
    by_cases hx : symGet ft x = 0#32
    · obtain ⟨b', h1, h2⟩ := ih (by omega) hb
      exact ⟨b', by simp [seed, hx, h1], by simpa [hx] using h2⟩
    · have hlen : b.tm.length = done.length := by rw [hb.tm, List.length_map]
      have ha := (alloc_ok_iff (v := .leaf x) (tm := b.tm)).2 ⟨by omega, rfl, rfl⟩
      have hs : Seeded ft ⟨b.tm ++ [.leaf x], tb.insert ⟨symGet ft x, BitVec.ofNat 9 b.tm.length⟩ b.pq⟩ (done ++ [x]) := by
        refine ⟨by simp [hb.tm], htb.insert_sorted hb.sorted _, ?_⟩
        rw [List.mapIdx_append]
        refine (htb.insert_perm hb.sorted _).trans ?_
        simp only [List.mapIdx_cons, List.mapIdx_nil, Nat.zero_add, ← hlen]
        exact (List.Perm.cons _ hb.entries).trans (List.perm_append_comm (l₁ := [_]))
      obtain ⟨b', h1, h2⟩ := ih (by simp; omega) hs
      exact ⟨b', by simp [seed, hx, ha, h1], by simpa [hx] using h2⟩

/-! ## Merging -/

/-- A queue entry stands for a tree: its payload is the tree's root, its priority the tree's weight, and no entry of the tree has a
greater id (R137, R140). -/
structure EntryOk (ft : SymTable Count) (tm : List Node) (e : PQEntry) (f : CodeTree × List Nat) : Prop where
  holds : Holds tm f.1 e.pay f.2
  weight : e.prio.toNat = f.1.weight ft
  top : ∀ j ∈ f.2, j ≤ e.pay.toNat

/-- The weights of the two children of every Internal node. -/
def CodeTree.siblings (ft : SymTable Count) : CodeTree → List (Nat × Nat)
  | .leaf _ => []
  | .internal z o => (z.weight ft, o.weight ft) :: (z.siblings ft ++ o.siblings ft)

/-- Of two pairs of siblings one is removed before the other: both its weights are at most both of the other's. -/
def Apart (a c : Nat × Nat) : Prop := max a.1 a.2 ≤ min c.1 c.2 ∨ max c.1 c.2 ≤ min a.1 a.2

theorem Apart.symm {a c : Nat × Nat} (h : Apart a c) : Apart c a := Or.symm h

/-- The invariant of the merge loop: the queue is sorted, its entries stand for trees that partition the node memory, and the
leaves of the trees are the symbols `syms` (R137); the pairs of siblings are removed one after another, and none outweighs what is
still in the queue (R117). -/
structure Forest (ft : SymTable Count) (syms : List Byte) (b : Build) (fs : List (CodeTree × List Nat)) : Prop where
  sorted : QueueSorted b.pq
  entries : List.Forall₂ (EntryOk ft b.tm) b.pq fs
  nodes : (fs.flatMap Prod.snd).Perm (List.range b.tm.length)
  leaves : (fs.flatMap (fun f => f.1.leafSyms)).Perm syms
  apart : (fs.flatMap (fun f => f.1.siblings ft)).Pairwise Apart
  below : ∀ a ∈ fs.flatMap (fun f => f.1.siblings ft), ∀ e ∈ b.pq, max a.1 a.2 ≤ e.prio.toNat

theorem weight_internal (ft : SymTable Count) (z o : CodeTree) :
    (CodeTree.internal z o).weight ft = z.weight ft + o.weight ft := by
  simp [CodeTree.weight, CodeTree.leafSyms]

/-- The weights of a forest add up to the counts of its symbols (R140). -/
theorem forest_weight {ft : SymTable Count} {syms : List Byte} {fs : List (CodeTree × List Nat)}
    (h : (fs.flatMap (fun f => f.1.leafSyms)).Perm syms) :
    (fs.map (fun f => f.1.weight ft)).sum = (syms.map (fun x => (symGet ft x).toNat)).sum := by
  rw [← (h.map (fun x => (symGet ft x).toNat)).sum_eq]
  clear h
  induction fs with
  | nil => rfl
  | cons f fs ih =>
    simp only [List.map_cons, List.sum_cons, List.flatMap_cons, List.map_append, List.sum_append, ih]
    rfl

/-- The node count of a forest: twice its leaves less one for each tree. -/
theorem forest_nodes {ft : SymTable Count} {tm : List Node} {q : List PQEntry} {fs : List (CodeTree × List Nat)}
    (h : List.Forall₂ (EntryOk ft tm) q fs) :
    (fs.flatMap Prod.snd).length + q.length = 2 * (fs.flatMap (fun f => f.1.leafSyms)).length := by
  induction h with
  | nil => rfl
  | cons he _ ih =>
    have := he.holds.length
    have := CodeTree.nodeCount_eq (Prod.fst ‹CodeTree × List Nat›)
    simp_all only [List.flatMap_cons, List.length_append, List.length_cons, CodeTree.leafSyms_length]
    omega

/-- A seeded build is a forest of leaves. -/
theorem Seeded.forest {ft : SymTable Count} {b : Build} {done : List Byte} (hb : Seeded ft b done) (hl : done.length ≤ 256) :
    ∃ fs, Forest ft done b fs := by
  have hf : List.Forall₂ (EntryOk ft b.tm) (done.mapIdx (fun i x => ⟨symGet ft x, BitVec.ofNat 9 i⟩))
      (done.mapIdx (fun i x => (CodeTree.leaf x, [i]))) := by
    rw [List.forall₂_iff_get]
    refine ⟨by simp, fun i h1 h2 => ?_⟩
    simp only [List.length_mapIdx] at h1
    have hi : (BitVec.ofNat 9 i).toNat = i := toNat_nodeId (by omega)
    simp only [List.get_eq_getElem, List.getElem_mapIdx]
    refine ⟨⟨?_, by simp [hi]⟩, by simp [CodeTree.weight, CodeTree.leafSyms], by simp [hi]⟩
    unfold readNode
    rw [hi, hb.tm]
    simp [h1]
  obtain ⟨fs, h1, h2⟩ := List.perm_comp_forall₂ hb.entries hf
  have hsib : fs.flatMap (fun f => f.1.siblings ft) = [] := by
    rw [List.flatMap_eq_nil_iff]
    intro f hf'
    obtain ⟨i, hi, rfl⟩ := List.mem_mapIdx.1 (h2.subset hf')
    rfl
  refine ⟨fs, hb.sorted, h1, ?_, ?_, by rw [hsib]; exact .nil, by simp [hsib]⟩
  · refine (h2.flatMap_right _).trans ?_
    rw [hb.tm, List.length_map]
    refine List.Perm.of_eq ?_
    clear h2 h1 hf hb hl
    induction done using List.reverseRecOn with
    | nil => rfl
    | append_singleton l a ih => simp [List.mapIdx_append, ih, List.range_succ]
  · refine (h2.flatMap_right _).trans (List.Perm.of_eq ?_)
    clear h2 h1 hf hb hl
    induction done using List.reverseRecOn with
    | nil => rfl
    | append_singleton l a ih => simp [List.mapIdx_append, ih, CodeTree.leafSyms]

theorem EntryOk.append {ft : SymTable Count} {tm : List Node} {e : PQEntry} {f : CodeTree × List Nat} (h : EntryOk ft tm e f)
    (l : List Node) : EntryOk ft (tm ++ l) e f := ⟨h.holds.append l, h.weight, h.top⟩

/-- One merge keeps the invariant: the two first trees become the children of a new node, inserted with the exact sum of their
weights (R132, R139, R140). -/
theorem forest_merge (htb : tb.Lawful) {ft : SymTable Count} {syms : List Byte} {tm : List Node} {e1 e2 : PQEntry} {q : List PQEntry}
    {fs : List (CodeTree × List Nat)} (hf : Forest ft syms ⟨tm, e1 :: e2 :: q⟩ fs) (hlen : tm.length < 511)
    (hsum : e1.prio.toNat + e2.prio.toNat ≤ Config.cmax) :
    ∃ fs', Forest ft syms
      ⟨tm ++ [.internal e1.pay e2.pay], tb.insert ⟨e1.prio + e2.prio, BitVec.ofNat 9 tm.length⟩ q⟩ fs' := by
  obtain ⟨hs, he, hn, hl, hap, hbe⟩ := hf
  obtain ⟨⟨z, iz⟩, fs1, h1, he1, rfl⟩ := List.forall₂_cons_left_iff.1 he
  obtain ⟨⟨o, io⟩, fs, h2, he2, rfl⟩ := List.forall₂_cons_left_iff.1 he1
  have hq : QueueSorted q := (List.pairwise_cons.1 (List.pairwise_cons.1 hs).2).2
  have hid : (BitVec.ofNat 9 tm.length).toNat = tm.length := toNat_nodeId (by omega)
  have hmem : ∀ j ∈ iz ++ io, j < tm.length := by
    intro j hj
    refine List.mem_range.1 (hn.subset ?_)
    simp only [List.flatMap_cons, List.mem_append] at hj ⊢
    tauto
  have hnew : EntryOk ft (tm ++ [.internal e1.pay e2.pay]) ⟨e1.prio + e2.prio, BitVec.ofNat 9 tm.length⟩
      (.internal z o, tm.length :: (iz ++ io)) := by
    refine ⟨⟨_, _, _, _, ?_, h1.holds.append _, h2.holds.append _, by rw [hid]⟩, ?_, ?_⟩
    · unfold readNode; rw [hid]; simp
    · rw [weight_internal, ← h1.weight, ← h2.weight, BitVec.toNat_add]
      simp only [Config.cmax] at hsum
      exact Nat.mod_eq_of_lt (by omega)
    · rw [hid]
      intro j hj
      rcases List.mem_cons.1 hj with rfl | hj
      · exact Nat.le_refl _
      · exact (hmem j hj).le
  have hall : List.Forall₂ (EntryOk ft (tm ++ [.internal e1.pay e2.pay]))
      (⟨e1.prio + e2.prio, BitVec.ofNat 9 tm.length⟩ :: q) ((.internal z o, tm.length :: (iz ++ io)) :: fs) :=
    .cons hnew (he2.imp fun _ _ h => h.append _)
  obtain ⟨fs', h3, h4⟩ := List.perm_comp_forall₂ (htb.insert_perm hq _) hall
  have h12 : e1.prio.toNat ≤ e2.prio.toNat := BitVec.le_def.1 ((List.pairwise_cons.1 hs).1 e2 (by simp))
  have h2q : ∀ e ∈ q, e2.prio.toNat ≤ e.prio.toNat := fun e he =>
    BitVec.le_def.1 ((List.pairwise_cons.1 (List.pairwise_cons.1 hs).2).1 e he)
  have hsib : (fs'.flatMap (fun f => f.1.siblings ft)).Perm ((e1.prio.toNat, e2.prio.toNat) ::
      (((z, iz) :: (o, io) :: fs).flatMap (fun f => f.1.siblings ft))) := by
    refine (h4.flatMap_right _).trans (List.Perm.of_eq ?_)
    simp [CodeTree.siblings, ← h1.weight, ← h2.weight]
  refine ⟨fs', htb.insert_sorted hq _, h3, ?_, ?_, ?_, ?_⟩
  · refine (h4.flatMap_right _).trans ?_
    simp only [List.flatMap_cons, List.length_append, List.length_singleton, List.range_succ, List.cons_append] at hn ⊢
    refine (List.Perm.cons _ ?_).trans (List.perm_append_comm (l₁ := [_]))
    simpa using hn
  · refine (h4.flatMap_right _).trans ?_
    simpa [CodeTree.leafSyms] using hl
  · rw [hsib.pairwise_iff Apart.symm, List.pairwise_cons]
    refine ⟨fun a ha => .inr ?_, hap⟩
    have := hbe a ha e1 (by simp)
    have := hbe a ha e2 (by simp)
    omega
  · intro a ha e hem
    have ha' := List.mem_cons.1 (hsib.subset ha)
    rcases (htb.mem_insert hq).1 hem with rfl | hem
    · have hmp : (e1.prio + e2.prio).toNat = e1.prio.toNat + e2.prio.toNat := by
        rw [BitVec.toNat_add]
        simp only [Config.cmax] at hsum
        exact Nat.mod_eq_of_lt (by omega)
      rcases ha' with rfl | ha'
      · simp only [hmp]; omega
      · have := hbe a ha' e1 (by simp)
        simp only [hmp]; omega
    · rcases ha' with rfl | ha'
      · have := h2q e hem
        simp only; omega
      · exact hbe a ha' e (by simp [hem])

/-- What the merge loop can do with as many iterations as entries: it ends with one entry, the invariant kept and only Internal
nodes added, or it faults with `CountOverflow` because the counts add up to more than `CMAX` (R132, R135). -/
theorem merge_spec (htb : tb.Lawful) {ft : SymTable Count} {syms : List Byte} {k : Nat} {b : Build} {fs : List (CodeTree × List Nat)}
    (hf : Forest ft syms b fs) (hk : b.pq.length ≤ k) (hs : syms.length ≤ 256) :
    (∃ b' fs' ints, merge tb k b = .ok b' ∧ Forest ft syms b' fs' ∧ b'.pq.length = min 1 b.pq.length ∧ b'.tm = b.tm ++ ints ∧
      (∀ v ∈ ints, ∃ z o, v = .internal z o)) ∨
    (merge tb k b = .error .countOverflow ∧ 2 ≤ b.pq.length ∧
      Config.cmax < (syms.map (fun x => (symGet ft x).toNat)).sum) := by
  induction k generalizing b fs with
  | zero => exact .inl ⟨b, fs, [], rfl, hf, by omega, by simp, by simp⟩
  | succ k ih =>
    obtain ⟨tm, q⟩ := b
    match q with
    | [] => exact .inl ⟨_, fs, [], rfl, hf, rfl, by simp, by simp⟩
    | [e] => exact .inl ⟨_, fs, [], rfl, hf, rfl, by simp, by simp⟩
    | e1 :: e2 :: q =>
      by_cases hsum : Config.cmax < e1.prio.toNat + e2.prio.toNat
      · refine .inr ⟨by simp only [merge, pqPop_cons, if_pos hsum], by simp, ?_⟩
        rw [← forest_weight hf.leaves]
        obtain ⟨f1, fs1, h1, he, rfl⟩ := List.forall₂_cons_left_iff.1 hf.entries
        obtain ⟨f2, fs2, h2, he, rfl⟩ := List.forall₂_cons_left_iff.1 he
        have := h1.weight; have := h2.weight
        simp only [List.map_cons, List.sum_cons]
        omega
      · have hn := forest_nodes hf.entries
        rw [hf.nodes.length_eq, hf.leaves.length_eq, List.length_range] at hn
        simp only [List.length_cons] at hn hk
        have hlen : tm.length < 511 := by omega
        obtain ⟨fs1, hf1⟩ := forest_merge htb hf hlen (by omega)
        have ha := (alloc_ok_iff (v := .internal e1.pay e2.pay) (tm := tm)).2 ⟨hlen, rfl, rfl⟩
        have hm : merge tb (k + 1) ⟨tm, e1 :: e2 :: q⟩ = merge tb k
            ⟨tm ++ [.internal e1.pay e2.pay], tb.insert ⟨e1.prio + e2.prio, BitVec.ofNat 9 tm.length⟩ q⟩ := by
          simp [merge, hsum, ha]
        have hql := htb.insert_length (List.pairwise_cons.1 (List.pairwise_cons.1 hf.sorted).2).2
          ⟨e1.prio + e2.prio, BitVec.ofNat 9 tm.length⟩
        rw [hm]
        rcases ih hf1 (by simp only [hql]; omega) with ⟨b', fs', ints, h1, h2, h3, h4, h5⟩ | ⟨h1, h2, h3⟩
        · refine .inl ⟨b', fs', .internal e1.pay e2.pay :: ints, h1, h2, ?_, by simp [h4], ?_⟩
          · simp only [hql, List.length_cons] at h3 ⊢; omega
          · intro v hv
            rcases List.mem_cons.1 hv with rfl | hv
            · exact ⟨_, _, rfl⟩
            · exact h5 v hv
        · exact .inr ⟨h1, by simp, h3⟩

/-! ## The whole construction -/

theorem all_zero_iff {ft : SymTable Count} :
    symbols.all (fun x => decide (symGet ft x = 0#32)) = true ↔ presentSyms ft = [] := by
  simp [presentSyms, List.filter_eq_nil_iff]

/-- The counts of the present symbols add up to the total count. -/
theorem presentSyms_sum (ft : SymTable Count) :
    ((presentSyms ft).map (fun x => (symGet ft x).toNat)).sum = totalCount ft := by
  unfold presentSyms totalCount
  induction symbols with
  | nil => rfl
  | cons x xs ih =>
    by_cases hx : symGet ft x = 0#32
    · simp_all
    · simp_all

theorem presentSyms_length (ft : SymTable Count) : (presentSyms ft).length ≤ 256 := by
  have := List.length_filter_le (fun x => decide (symGet ft x ≠ 0#32)) symbols
  simpa [presentSyms] using this

theorem presentSyms_nodup (ft : SymTable Count) : (presentSyms ft).Nodup := symbols_nodup.filter _

theorem mem_presentSyms {ft : SymTable Count} {x : Byte} : x ∈ presentSyms ft ↔ symGet ft x ≠ 0#32 := by
  simp [presentSyms, mem_symbols]

/-- The symbols with a nonzero count in the order in which a tie-break seeds them (R133); ascending for this block. -/
def TieBreak.seeded (tb : TieBreak) (ft : SymTable Count) : List Byte := tb.seeds.filter (fun x => symGet ft x ≠ 0#32)

theorem seeded_block (ft : SymTable Count) : blockTieBreak.seeded ft = presentSyms ft := rfl

theorem TieBreak.Lawful.seeded_perm (htb : tb.Lawful) (ft : SymTable Count) : (tb.seeded ft).Perm (presentSyms ft) := htb.2.filter _

/-- What `TB_BUILD` leaves when it succeeds: one tree over exactly the present symbols, fully using the node memory, its leaves
first and its root last, and the root's entry alone in the queue with the total count (R136, R137). -/
structure Built (tb : TieBreak) (ft : SymTable Count) (b : Build) (r : NodeId) (t : CodeTree) : Prop where
  tree : HoldsTree b.tm r t
  leaves : t.leafSyms.Perm (presentSyms ft)
  count : b.tm.length + 1 = 2 * (presentSyms ft).length
  root : r.toNat + 1 = b.tm.length
  queue : ∃ p : Count, b.pq = [⟨p, r⟩] ∧ p.toNat = totalCount ft
  layout : ∃ ints, b.tm = (tb.seeded ft).map .leaf ++ ints ∧ ∀ v ∈ ints, ∃ z o, v = .internal z o
  apart : (t.siblings ft).Pairwise Apart

/-- A forest of one tree is a finished build. -/
theorem forest_built (htb : tb.Lawful) {ft : SymTable Count} {b : Build} {fs : List (CodeTree × List Nat)}
    (hf : Forest ft (tb.seeded ft) b fs) (h1 : b.pq.length = 1)
    (hl : ∃ ints, b.tm = (tb.seeded ft).map .leaf ++ ints ∧ ∀ v ∈ ints, ∃ z o, v = .internal z o) :
    ∃ e t, b.pq = [e] ∧ Built tb ft b e.pay t := by
  replace hf : Forest ft (presentSyms ft) b fs := { hf with leaves := hf.leaves.trans (htb.seeded_perm ft) }
  obtain ⟨tm, q⟩ := b
  obtain ⟨e, rfl⟩ := List.length_eq_one_iff.1 h1
  have hw := forest_weight (ft := ft) hf.leaves
  have hn := forest_nodes hf.entries
  rw [hf.nodes.length_eq, hf.leaves.length_eq, List.length_range] at hn
  obtain ⟨⟨t, ids⟩, fs, he, hnil, rfl⟩ := List.forall₂_cons_left_iff.1 hf.entries
  obtain rfl := List.forall₂_nil_left_iff.1 hnil
  have hnodes := hf.nodes
  have hleaves := hf.leaves
  simp only [List.flatMap_cons, List.flatMap_nil, List.append_nil] at hnodes hleaves
  have hlen := presentSyms_length ft
  refine ⟨e, t, rfl, ⟨⟨ids, he.holds, hnodes, ?_⟩, hleaves, by simpa using hn, ?_, ⟨e.prio, rfl, ?_⟩, hl, by simpa using hf.apart⟩⟩
  · rw [← CodeTree.leafSyms_length, hleaves.length_eq]; exact hlen
  · have hlt : e.pay.toNat < tm.length := he.holds.root_lt
    have htop : tm.length - 1 ≤ e.pay.toNat :=
      he.top (tm.length - 1) (hnodes.symm.subset (List.mem_range.2 (show tm.length - 1 < tm.length by omega)))
    show e.pay.toNat + 1 = tm.length
    omega
  · rw [presentSyms_sum] at hw
    simpa [he.weight] using hw

/-- The seeding loop of the construction (R132, R133). -/
theorem buildTree_seeds (htb : tb.Lawful) (ft : SymTable Count) :
    ∃ b, seed tb ft tb.seeds ⟨[], []⟩ = .ok b ∧ Seeded ft b (tb.seeded ft) := by
  obtain ⟨b, h1, h2⟩ := seed_spec htb (ft := ft) (xs := tb.seeds) (done := []) (b := ⟨[], []⟩)
    (by rw [htb.2.length_eq]; simp) ⟨rfl, List.Pairwise.nil, List.Perm.refl _⟩
  exact ⟨b, h1, by simpa [TieBreak.seeded] using h2⟩

/-- Everything the construction can answer (R132 to R137). -/
theorem buildTree_spec (htb : tb.Lawful) (ft : SymTable Count) :
    (presentSyms ft = [] ∧ buildTree tb ft = .error .emptyInput) ∨
    (presentSyms ft ≠ [] ∧ ((presentSyms ft).length = 1 ∨ totalCount ft ≤ Config.cmax) ∧
      ∃ b r t, buildTree tb ft = .ok (b, r) ∧ Built tb ft b r t) ∨
    (2 ≤ (presentSyms ft).length ∧ Config.cmax < totalCount ft ∧ buildTree tb ft = .error .countOverflow) := by
  by_cases hz : presentSyms ft = []
  · exact .inl ⟨hz, by simp [buildTree, all_zero_iff.2 hz]⟩
  right
  have hall : ¬ symbols.all (fun x => decide (symGet ft x = 0#32)) = true := fun h => hz (all_zero_iff.1 h)
  have hlen := presentSyms_length ft
  obtain ⟨b0, hs0, hb0⟩ := buildTree_seeds htb ft
  have hpl := (htb.seeded_perm ft).length_eq
  obtain ⟨fs0, hf0⟩ := hb0.forest (by omega)
  have hq0 : b0.pq.length = (presentSyms ft).length := by rw [hb0.entries.length_eq, List.length_mapIdx, hpl]
  have hpos : 0 < (presentSyms ft).length := List.length_pos_iff.2 hz
  rcases merge_spec htb hf0 (Nat.le_refl _) (by omega) with ⟨b, fs, ints, hm, hf, hq, htm, hints⟩ | ⟨hm, h2, hsum⟩
  · obtain ⟨e, t, hqe, hB⟩ := forest_built htb hf (by omega) ⟨ints, by rw [htm, hb0.tm], hints⟩
    refine .inl ⟨hz, ?_, b, e.pay, t, ?_, hB⟩
    · obtain ⟨p, hp, hpt⟩ := hB.queue
      right
      have := p.isLt
      simp only [Config.cmax]
      omega
    · simp [buildTree, hall, hs0, hm, hqe]
  · refine .inr ⟨by omega, by rwa [((htb.seeded_perm ft).map _).sum_eq, presentSyms_sum] at hsum, ?_⟩
    simp [buildTree, hall, hs0, hm]

end Sys2Proof.Machine
end

