-- ==== Sys2Proof/Laws/Commands.lean ====
section
/-! SUPPORT. Said once, for every command: when it succeeds and with what effect, when it faults and with which kind, and that it can do
nothing else but be refused (60_exceptions.md R275, R276, R280, R281). Later proofs cite `exec_next_iff` and do not unfold a meaning. -/

namespace Sys2Proof.Machine

/-- The command succeeds in `s`: the state before its response is `u`, the response fields are `a` and `d`. -/
def Succeeds (i : Instr) (s u : State) (a : BitVec 16) (d : BitVec 32) : Prop :=
  match i with
  | .rst => u = clearBlock s ∧ a = 0#16 ∧ d = 0#32
  | .stat => u = s ∧ a = 0#16 ∧ d = statw s
  | .ftClr => u = { s with ft := Vector.replicate 256 0#32 } ∧ a = 0#16 ∧ d = 0#32
  | .ftInc x => (symGet s.ft x).toNat ≠ Config.cmax ∧ u = { s with ft := symSet s.ft x (symGet s.ft x + 1#32) } ∧
      a = 0#16 ∧ d = 0#32
  | .ftRd x => u = s ∧ a = 0#16 ∧ d = symGet s.ft x
  | .pqClr => u = { s with pq := [] } ∧ a = 0#16 ∧ d = 0#32
  | .pqPush pay prio => s.pq.length < Config.pqcap ∧ u = { s with pq := pqInsert ⟨prio, pay⟩ s.pq } ∧ a = 0#16 ∧ d = 0#32
  | .pqPop => ∃ e q, s.pq = e :: q ∧ u = { s with pq := q } ∧ a = payResult e.pay ∧ d = e.prio
  | .pqLen => u = s ∧ a = 0#16 ∧ d = lenResult s.pq.length
  | .tbBuild => ∃ b r, buildTree blockTieBreak s.ft = .ok (b, r) ∧ u = { installTree b.tm r s with pq := b.pq } ∧ a = 0#16 ∧
      d = lenResult b.tm.length
  | .hdClr => u = { s with hb := [] } ∧ a = 0#16 ∧ d = 0#32
  | .hdWr x => s.hb.length < Config.hbmax ∧ u = { s with hb := s.hb ++ [x] } ∧ a = 0#16 ∧ d = 0#32
  | .hdParse => ∃ r tm, parseHeader s.hb = .ok (r, tm) ∧ u = installTree tm r s ∧ a = 0#16 ∧ d = lenResult tm.length
  | .hdSer => s.rootv = true ∧ ∃ t, s.tree = some t ∧ u = emitHdr t.ser { s with hb := t.ser } ∧ a = 0#16 ∧
      d = lenResult t.ser.length
  | .hdLen => u = s ∧ a = 0#16 ∧ d = lenResult s.hb.length
  | .ctBuild => s.rootv = true ∧ ∃ t ct, s.tree = some t ∧ buildTable t = .ok ct ∧ u = { s with ct := ct, ctv := true } ∧
      a = 0#16 ∧ d = lenResult (validCount ct)
  | .ctLen x => s.ctv = true ∧ u = s ∧
      ((symGet s.ct x = none ∧ a = 0#16 ∧ d = 0#32) ∨ ∃ w, symGet s.ct x = some w ∧ a = 1#16 ∧ d = lenResult w.length)
  | .encSym x => s.ctv = true ∧ ∃ w, symGet s.ct x = some w ∧ u = emitBits w s ∧ a = 0#16 ∧ d = lenResult w.length
  | .decBit b => s.rootv = true ∧ d = 0#32 ∧
      ((s.ddead = true ∧ u = s ∧ a = 0#16) ∨
       (s.ddead = false ∧ ∃ x, readNode s.tm s.root = some (.leaf x) ∧
         ((b = false ∧ u = emitSym x s ∧ a = symResult x) ∨ (b = true ∧ u = { s with ddead := true } ∧ a = 0#16))) ∨
       (s.ddead = false ∧ ∃ rz ro z o, readNode s.tm s.root = some (.internal rz ro) ∧
         readNode s.tm s.dnode = some (.internal z o) ∧
         ((∃ x, readNode s.tm (if b then o else z) = some (.leaf x) ∧ u = emitSym x { s with dnode := s.root } ∧
            a = symResult x) ∨
          (∃ cz co, readNode s.tm (if b then o else z) = some (.internal cz co) ∧
            u = { s with dnode := if b then o else z } ∧ a = 0#16))))
  | .decEos => s.rootv = true ∧ s.dnode = s.root ∧ s.ddead = false ∧ u = s ∧ a = 0#16 ∧ d = 0#32

/-- The command faults in `s` with the kind `k`. -/
def Faults (i : Instr) (s : State) (k : ErrKind) : Prop :=
  match i with
  | .ftInc x => k = .countOverflow ∧ (symGet s.ft x).toNat = Config.cmax
  | .pqPush _ _ => k = .capacityError ∧ Config.pqcap ≤ s.pq.length
  | .pqPop => k = .queueEmpty ∧ s.pq = []
  | .tbBuild => (k = .emptyInput ∨ k = .countOverflow) ∧ buildTree blockTieBreak s.ft = .error k
  | .hdWr _ => k = .capacityError ∧ Config.hbmax ≤ s.hb.length
  | .hdParse => (k = .formatError ∨ k = .capacityError) ∧ parseHeader s.hb = .error k
  | .hdSer => k = .seqError ∧ s.rootv = false
  | .ctBuild => (k = .seqError ∧ s.rootv = false) ∨
      (k = .dupSymbol ∧ s.rootv = true ∧ ∃ t, s.tree = some t ∧ buildTable t = .error .dupSymbol)
  | .ctLen _ => k = .seqError ∧ s.ctv = false
  | .encSym x => (k = .seqError ∧ s.ctv = false) ∨ (k = .noCode ∧ s.ctv = true ∧ symGet s.ct x = none)
  | .decBit _ => k = .seqError ∧ s.rootv = false
  | .decEos => (k = .seqError ∧ s.rootv = false) ∨
      (k = .truncatedStream ∧ s.rootv = true ∧ (s.dnode ≠ s.root ∨ s.ddead = true))
  | .rst | .stat | .ftClr | .ftRd _ | .pqClr | .pqLen | .hdClr | .hdLen => False

/-- What a command does while the block is not locked: its success, or its fault. -/
def Performs (i : Instr) (s t : State) : Prop :=
  (∃ k, Faults i s k ∧ t = takeFault k s) ∨ ∃ u a d, Succeeds i s u a d ∧ t = reply stOk a d u

section

variable {s t : State}

theorem next_comm {u : State} : (Host.Outcome.next u : Result) = .next t ↔ t = u := by
  rw [Host.Outcome.next.injEq, eq_comm]

/-- A build faults only with the two kinds of R275. -/
theorem buildTree_error {tb : TieBreak} (htb : tb.Lawful) {ft : SymTable Count} {k : ErrKind} (h : buildTree tb ft = .error k) :
    k = .emptyInput ∨ k = .countOverflow := by
  rcases buildTree_spec htb ft with ⟨_, hb⟩ | ⟨_, _, _, _, _, hb, _⟩ | ⟨_, _, hb⟩ <;> rw [hb] at h
  · exact .inl (by simpa using h.symm)
  · cases h
  · exact .inr (by simpa using h.symm)

/-- The step of the walk (R204). -/
theorem followEdge_next_iff {b : Digit} :
    followEdge b s = .next t ↔ ∃ z o, readNode s.tm s.dnode = some (.internal z o) ∧
      ((∃ x, readNode s.tm (if b then o else z) = some (.leaf x) ∧
          t = reply stOk (symResult x) 0#32 (emitSym x { s with dnode := s.root })) ∨
       (∃ cz co, readNode s.tm (if b then o else z) = some (.internal cz co) ∧
          t = reply stOk 0#16 0#32 { s with dnode := if b then o else z })) := by
  unfold followEdge
  rcases readNode s.tm s.dnode with _ | ⟨x | ⟨z, o⟩⟩
  · simp
  · simp
  rcases hc : readNode s.tm (if b then o else z) with _ | ⟨x | ⟨cz, co⟩⟩
  · simp [hc]
  · simp [hc, emitDecoded]
  · simp [hc]

/-- Both ways of a command that needs no flag and has one fault condition. -/
theorem performs_one {i : Instr} {k : ErrKind} {body : Result} {c : Prop} [Decidable c] {u : State} {a : BitVec 16} {d : BitVec 32}
    (hf : ∀ j, Faults i s j ↔ j = k ∧ c) (hs : ∀ v x y, Succeeds i s v x y ↔ ¬ c ∧ v = u ∧ x = a ∧ y = d)
    (hb : body = if c then raise k s else succeed a d u) : body = .next t ↔ Performs i s t := by
  subst hb
  unfold Performs
  simp only [hf, hs]
  by_cases hc : c
  · simp [hc]
  · simp only [hc, if_false, succeed_next_iff, and_false, false_and, exists_false, false_or, not_false_eq_true, true_and]
    constructor
    · rintro rfl; exact ⟨u, a, d, ⟨rfl, rfl, rfl⟩, rfl⟩
    · rintro ⟨_, _, _, ⟨rfl, rfl, rfl⟩, rfl⟩; rfl

/-- Both ways of a command that cannot fault. -/
theorem performs_none {i : Instr} {body : Result} {u : State} {a : BitVec 16} {d : BitVec 32}
    (hf : ∀ j, ¬ Faults i s j) (hs : ∀ v x y, Succeeds i s v x y ↔ v = u ∧ x = a ∧ y = d)
    (hb : body = succeed a d u) : body = .next t ↔ Performs i s t := by
  subst hb
  unfold Performs
  simp only [hf, hs, succeed_next_iff, false_and, exists_false, false_or]
  constructor
  · rintro rfl; exact ⟨u, a, d, ⟨rfl, rfl, rfl⟩, rfl⟩
  · rintro ⟨_, _, _, ⟨rfl, rfl, rfl⟩, rfl⟩; rfl

/-- An unlocked block answers a command with its success or its fault, and goes on in no other way. -/
theorem exec_unlocked {i : Instr} (h : s.err = 0#8 ∨ i.accepted = true) : exec i s = .next t ↔ Performs i s t := by
  cases i with
  | rst => exact performs_none (fun _ h => h) (fun _ _ _ => Iff.rfl) rfl
  | stat => exact performs_none (fun _ h => h) (fun _ _ _ => Iff.rfl) rfl
  | ftClr =>
    replace h : s.err = 0#8 := by simpa [Instr.accepted] using h
    exact performs_none (fun _ h => h) (fun _ _ _ => Iff.rfl) (whenUnlocked_open h _)
  | ftInc x =>
    replace h : s.err = 0#8 := by simpa [Instr.accepted] using h
    exact performs_one (fun _ => Iff.rfl) (fun _ _ _ => Iff.rfl) (whenUnlocked_open h _)
  | ftRd x =>
    replace h : s.err = 0#8 := by simpa [Instr.accepted] using h
    exact performs_none (fun _ h => h) (fun _ _ _ => Iff.rfl) (whenUnlocked_open h _)
  | pqClr =>
    replace h : s.err = 0#8 := by simpa [Instr.accepted] using h
    exact performs_none (fun _ h => h) (fun _ _ _ => Iff.rfl) (whenUnlocked_open h _)
  | pqPush pay prio =>
    replace h : s.err = 0#8 := by simpa [Instr.accepted] using h
    exact performs_one (fun _ => Iff.rfl) (fun _ _ _ => and_congr_left' Nat.not_le.symm) (whenUnlocked_open h _)
  | pqPop =>
    replace h : s.err = 0#8 := by simpa [Instr.accepted] using h
    show execPqPop s = _ ↔ _
    rw [execPqPop, whenUnlocked_open h]
    unfold Performs Succeeds Faults
    rcases hq : s.pq with _ | ⟨e, q⟩
    · simp
    · simp [and_assoc]
  | pqLen =>
    replace h : s.err = 0#8 := by simpa [Instr.accepted] using h
    exact performs_none (fun _ h => h) (fun _ _ _ => Iff.rfl) (whenUnlocked_open h _)
  | tbBuild =>
    replace h : s.err = 0#8 := by simpa [Instr.accepted] using h
    show execTbBuild s = _ ↔ _
    rw [execTbBuild, execTbBuildWith, whenUnlocked_open h]
    unfold Performs Succeeds Faults
    rcases hb : buildTree blockTieBreak s.ft with k | ⟨b, r⟩
    · have := buildTree_error blockTieBreak_lawful hb
      simp [this]
    · simp [and_assoc]
  | hdClr =>
    replace h : s.err = 0#8 := by simpa [Instr.accepted] using h
    exact performs_none (fun _ h => h) (fun _ _ _ => Iff.rfl) (whenUnlocked_open h _)
  | hdWr x =>
    replace h : s.err = 0#8 := by simpa [Instr.accepted] using h
    exact performs_one (fun _ => Iff.rfl) (fun _ _ _ => and_congr_left' Nat.not_le.symm) (whenUnlocked_open h _)
  | hdParse =>
    replace h : s.err = 0#8 := by simpa [Instr.accepted] using h
    show execHdParse s = _ ↔ _
    rw [execHdParse, whenUnlocked_open h]
    unfold Performs Succeeds Faults
    rcases hp : parseHeader s.hb with k | ⟨r, tm⟩
    · have := parseHeader_error hp
      simp [this]
    · simp [and_assoc]
  | hdSer =>
    replace h : s.err = 0#8 := by simpa [Instr.accepted] using h
    show execHdSer s = _ ↔ _
    rw [execHdSer, whenUnlocked_open h]
    unfold Performs Succeeds Faults
    rcases hr : s.rootv with _ | _
    · simp
    · rcases ht : s.tree with _ | t
      · simp
      · simp [and_assoc]
  | hdLen =>
    replace h : s.err = 0#8 := by simpa [Instr.accepted] using h
    exact performs_none (fun _ h => h) (fun _ _ _ => Iff.rfl) (whenUnlocked_open h _)
  | ctBuild =>
    replace h : s.err = 0#8 := by simpa [Instr.accepted] using h
    show execCtBuild s = _ ↔ _
    rw [execCtBuild, whenUnlocked_open h]
    unfold Performs Succeeds Faults
    rcases hr : s.rootv with _ | _
    · simp
    · rcases ht : s.tree with _ | t
      · simp
      · rcases hb : buildTable t with k | ct
        · obtain rfl := buildTable_error hb
          simp [hb]
        · simp [hb, and_assoc]
  | ctLen x =>
    replace h : s.err = 0#8 := by simpa [Instr.accepted] using h
    show execCtLen x s = _ ↔ _
    rw [execCtLen, whenUnlocked_open h]
    unfold Performs Succeeds Faults
    rcases hc : s.ctv with _ | _
    · simp
    · rcases hx : symGet s.ct x with _ | w
      · simp [hx, and_assoc]
      · simp [hx, and_assoc]
  | encSym x =>
    replace h : s.err = 0#8 := by simpa [Instr.accepted] using h
    show execEncSym x s = _ ↔ _
    rw [execEncSym, whenUnlocked_open h]
    unfold Performs Succeeds Faults
    rcases hc : s.ctv with _ | _
    · simp
    · rcases hx : symGet s.ct x with _ | w
      · simp [hx]
      · simp [hx, and_assoc]
  | decBit b =>
    replace h : s.err = 0#8 := by simpa [Instr.accepted] using h
    show execDecBit b s = _ ↔ _
    rw [execDecBit, whenUnlocked_open h]
    unfold Performs Succeeds Faults
    by_cases hr : s.rootv = true
    · rw [requireFlag_open hr]
      by_cases hd : s.ddead = true
      · simp [hr, hd]
      · rw [if_neg hd]
        rcases hroot : readNode s.tm s.root with _ | ⟨x | ⟨rz, ro⟩⟩
        · simp [hr, hd]
        · cases b
          · simp [hr, hd]
          · simp [hr, hd]
        · simp only [followEdge_next_iff]
          constructor
          · rintro ⟨z, o, h1, ⟨x, h2, rfl⟩ | ⟨cz, co, h2, rfl⟩⟩
            · exact .inr ⟨_, _, _, ⟨hr, rfl, .inr (.inr ⟨by simpa using hd, rz, ro, z, o, rfl, h1, .inl ⟨x, h2, rfl, rfl⟩⟩)⟩, rfl⟩
            · exact .inr ⟨_, _, _, ⟨hr, rfl, .inr (.inr ⟨by simpa using hd, rz, ro, z, o, rfl, h1, .inr ⟨cz, co, h2, rfl, rfl⟩⟩)⟩, rfl⟩
          · rintro (⟨k, ⟨_, hk⟩, _⟩ | ⟨u, a, d, ⟨_, rfl, hc⟩, rfl⟩)
            · exact absurd hr (by simp [hk])
            · rcases hc with ⟨hc, _⟩ | ⟨_, x, hc, _⟩ | ⟨_, rz', ro', z, o, _, h1, h2⟩
              · exact absurd hc hd
              · cases hc
              · refine ⟨z, o, h1, ?_⟩
                rcases h2 with ⟨x, h2, rfl, rfl⟩ | ⟨cz, co, h2, rfl, rfl⟩
                · exact .inl ⟨x, h2, rfl⟩
                · exact .inr ⟨cz, co, h2, rfl⟩
    · simp [hr]
  | decEos =>
    replace h : s.err = 0#8 := by simpa [Instr.accepted] using h
    show execDecEos s = _ ↔ _
    rw [execDecEos, whenUnlocked_open h]
    unfold Performs Succeeds Faults
    by_cases hr : s.rootv = true
    · rw [requireFlag_open hr]
      by_cases hd : s.dnode ≠ s.root ∨ s.ddead = true
      · have h2 : ¬ (s.dnode = s.root ∧ s.ddead = false) := by
          rintro ⟨h1, h2⟩; simp [h1, h2] at hd
        rw [if_pos hd, raise_next_iff]
        constructor
        · rintro rfl; exact .inl ⟨_, .inr ⟨rfl, hr, hd⟩, rfl⟩
        · rintro (⟨k, ⟨_, hk⟩ | ⟨rfl, _⟩, rfl⟩ | ⟨u, a, d, ⟨_, h3, h4, _⟩, _⟩)
          · exact absurd hr (by simp [hk])
          · rfl
          · exact absurd ⟨h3, h4⟩ h2
      · have h2 : s.dnode = s.root ∧ s.ddead = false := by simpa [not_or] using hd
        rw [if_neg hd, succeed_next_iff]
        constructor
        · rintro rfl; exact .inr ⟨_, _, _, ⟨hr, h2.1, h2.2, rfl, rfl, rfl⟩, rfl⟩
        · rintro (⟨k, ⟨_, hk⟩ | ⟨_, _, hk⟩, rfl⟩ | ⟨u, a, d, ⟨_, _, _, rfl, rfl, rfl⟩, rfl⟩)
          · exact absurd hr (by simp [hk])
          · exact absurd hk hd
          · rfl
    · simp [hr]

/-- A locked block refuses every command but `RST` and `STAT` (R280). -/
theorem exec_locked {i : Instr} (h : s.err ≠ 0#8) (hi : i.accepted = false) : exec i s = .next (refuseLocked s) := by
  cases i <;> first | exact whenUnlocked_locked h _ | cases hi

/-- Everything a command can do. -/
theorem exec_next_iff {i : Instr} : exec i s = .next t ↔
    ((s.err = 0#8 ∨ i.accepted = true) ∧ Performs i s t) ∨ (s.err ≠ 0#8 ∧ i.accepted = false ∧ t = refuseLocked s) := by
  by_cases h : s.err = 0#8
  · simp [exec_unlocked (.inl h), h]
  · cases hi : i.accepted
    · simp [exec_locked h hi, h, eq_comm]
    · simp [exec_unlocked (.inr hi)]

/-! ## What every success leaves alone -/

variable {i : Instr} {u : State} {a : BitVec 16} {d : BitVec 32}

/-- A success does not touch `ERR`, except that `RST` clears it. -/
theorem Succeeds.err (h : Succeeds i s u a d) : u.err = if i = .rst then 0#8 else s.err := by
  cases i <;> simp only [Succeeds] at h
  case rst => obtain ⟨rfl, _⟩ := h; rfl
  case decBit b =>
    obtain ⟨_, _, ⟨_, rfl, _⟩ | ⟨_, x, _, ⟨_, rfl, _⟩ | ⟨_, rfl, _⟩⟩ | ⟨_, _, _, _, _, _, _, ⟨_, _, rfl, _⟩ | ⟨_, _, _, rfl, _⟩⟩⟩ := h <;> rfl
  case ctBuild => obtain ⟨_, _, _, _, _, rfl, _⟩ := h; rfl
  case ctLen x => obtain ⟨_, rfl, _⟩ := h; rfl
  case encSym x => obtain ⟨_, _, _, rfl, _⟩ := h; rfl
  case hdSer => obtain ⟨_, _, _, rfl, _⟩ := h; rfl
  case decEos => obtain ⟨_, _, _, rfl, _⟩ := h; rfl
  case pqPop => obtain ⟨_, _, _, rfl, _⟩ := h; rfl
  case tbBuild => obtain ⟨_, _, _, rfl, _⟩ := h; rfl
  case hdParse => obtain ⟨_, _, _, rfl, _⟩ := h; rfl
  case ftInc x => obtain ⟨_, rfl, _⟩ := h; rfl
  case pqPush => obtain ⟨_, rfl, _⟩ := h; rfl
  case hdWr => obtain ⟨_, rfl, _⟩ := h; rfl
  all_goals obtain ⟨rfl, _⟩ := h; rfl

/-- A success has returned nothing yet and has taken no further input. -/
theorem Succeeds.ports (h : Succeeds i s u a d) : u.rspout = s.rspout ∧ u.input = s.input := by
  cases i <;> simp only [Succeeds] at h
  case decBit b =>
    obtain ⟨_, _, ⟨_, rfl, _⟩ | ⟨_, x, _, ⟨_, rfl, _⟩ | ⟨_, rfl, _⟩⟩ | ⟨_, _, _, _, _, _, _, ⟨_, _, rfl, _⟩ | ⟨_, _, _, rfl, _⟩⟩⟩ := h <;>
      exact ⟨rfl, rfl⟩
  case ctBuild => obtain ⟨_, _, _, _, _, rfl, _⟩ := h; exact ⟨rfl, rfl⟩
  case ctLen x => obtain ⟨_, rfl, _⟩ := h; exact ⟨rfl, rfl⟩
  case encSym x => obtain ⟨_, _, _, rfl, _⟩ := h; exact ⟨rfl, rfl⟩
  case hdSer => obtain ⟨_, _, _, rfl, _⟩ := h; exact ⟨rfl, rfl⟩
  case decEos => obtain ⟨_, _, _, rfl, _⟩ := h; exact ⟨rfl, rfl⟩
  case pqPop => obtain ⟨_, _, _, rfl, _⟩ := h; exact ⟨rfl, rfl⟩
  case tbBuild => obtain ⟨_, _, _, rfl, _⟩ := h; exact ⟨rfl, rfl⟩
  case hdParse => obtain ⟨_, _, _, rfl, _⟩ := h; exact ⟨rfl, rfl⟩
  case ftInc x => obtain ⟨_, rfl, _⟩ := h; exact ⟨rfl, rfl⟩
  case pqPush => obtain ⟨_, rfl, _⟩ := h; exact ⟨rfl, rfl⟩
  case hdWr => obtain ⟨_, rfl, _⟩ := h; exact ⟨rfl, rfl⟩
  all_goals obtain ⟨rfl, _⟩ := h; exact ⟨rfl, rfl⟩

end

end Sys2Proof.Machine
end

