-- ==== Sys2Proof/Laws/TreeShape.lean ====
section
/-! SUPPORT. The tree invariant clause by clause: what a stored tree says of the entries of the node memory (10_state.md R29). -/

namespace Sys2Proof.Machine

/-- Every entry of a tree that is an Internal node has its children in the tree (R29 b). -/
theorem Holds.children_mem {tm : List Node} {t : CodeTree} {n : NodeId} {ids : List Nat} (h : Holds tm t n ids) {m z o : NodeId}
    (hm : m.toNat ∈ ids) (hr : readNode tm m = some (.internal z o)) : z.toNat ∈ ids ∧ o.toNat ∈ ids := by
  induction t generalizing n ids with
  | leaf x =>
    rw [h.2, List.mem_singleton] at hm
    rw [BitVec.eq_of_toNat_eq hm, h.1] at hr
    cases hr
  | internal tz tone hz ho =>
    obtain ⟨nz, no, iz, io, hn, h1, h2, rfl⟩ := h
    simp only [List.mem_cons, List.mem_append] at hm
    rcases hm with hm | hm | hm
    · rw [BitVec.eq_of_toNat_eq hm, hn] at hr
      simp only [Option.some.injEq, Node.internal.injEq] at hr
      obtain ⟨rfl, rfl⟩ := hr
      have := h1.root_mem; have := h2.root_mem
      simp_all
    · have := hz h1 hm; simp_all
    · have := ho h2 hm; simp_all

namespace HoldsTree

variable {tm : List Node} {r : NodeId} {t : CodeTree}

/-- The root is an allocated node (R29 a). -/
theorem root_lt (h : HoldsTree tm r t) : r.toNat < tm.length := by
  obtain ⟨_, h1, _⟩ := h
  exact h1.root_lt

/-- A complete tree uses at most 511 entries (R8, R27). -/
theorem length_le (h : HoldsTree tm r t) : tm.length ≤ 511 := by
  have h1 := h.nodeCount
  have h2 := t.nodeCount_eq
  obtain ⟨_, _, _, h3⟩ := h
  omega

/-- The children of an Internal node are allocated nodes (R29 b). -/
theorem children_lt (h : HoldsTree tm r t) {m z o : NodeId} (hr : readNode tm m = some (.internal z o)) :
    z.toNat < tm.length ∧ o.toNat < tm.length := by
  obtain ⟨ids, h1, h2, _⟩ := h
  have hm : m.toNat ∈ ids := h2.symm.subset (List.mem_range.2 (readNode_eq_some_lt hr))
  have := h1.children_mem hm hr
  exact ⟨List.mem_range.1 (h2.subset this.1), List.mem_range.1 (h2.subset this.2)⟩

/-- Both children of an Internal node can be read (R29 b). -/
theorem child_exists (h : HoldsTree tm r t) {m z o : NodeId} (hr : readNode tm m = some (.internal z o)) (b : Digit) :
    readNode tm (if b then o else z) ≠ none := by
  have := h.children_lt hr
  unfold readNode
  rw [Ne, List.getElem?_eq_none_iff]
  cases b
  · simpa using this.1
  · simpa using this.2

/-- Every allocated node is reached from the root by a finite sequence of branch choices (R29 d). -/
theorem reachable (h : HoldsTree tm r t) {j : Nat} (hj : j < tm.length) :
    ∃ p n, followPath tm r p = some n ∧ n.toNat = j := by
  obtain ⟨ids, h1, h2, _⟩ := h
  exact h1.exists_path (h2.symm.subset (List.mem_range.2 hj))

/-- No path of branch choices is longer than 255 (R29 e). -/
theorem path_length_le (h : HoldsTree tm r t) {p : List Digit} {n : NodeId} (hp : followPath tm r p = some n) :
    p.length ≤ 255 := by
  obtain ⟨ids, h1, _, h3⟩ := h
  obtain ⟨u, _, hu, _⟩ := subtree_of_followPath h1 hp
  have hd : ∀ (t : CodeTree) (p : List Digit), subtree t p = some u → p.length ≤ t.depth := by
    intro t
    induction t with
    | leaf x => intro p; cases p <;> simp [subtree]
    | internal z o hz ho =>
      intro p hp
      cases p with
      | nil => exact Nat.zero_le _
      | cons b p =>
        cases b
        · have := hz p (by simpa [subtree] using hp); simp only [List.length_cons, CodeTree.depth]; omega
        · have := ho p (by simpa [subtree] using hp); simp only [List.length_cons, CodeTree.depth]; omega
  have := hd t p hu
  have := t.depth_lt_leafCount
  omega

end HoldsTree

/-- The children of one entry. -/
def entryChildren (v : Option Node) : List Nat :=
  match v with
  | some (.internal z o) => [z.toNat, o.toNat]
  | _ => []

theorem childIds_eq (tm : List Node) : childIds tm = (List.range tm.length).flatMap (fun j => entryChildren tm[j]?) := by
  induction tm using List.reverseRecOn with
  | nil => rfl
  | append_singleton l v ih =>
    rw [List.length_append, List.length_singleton, List.range_succ, List.flatMap_append]
    have h1 : (List.range l.length).flatMap (fun j => entryChildren (l ++ [v])[j]?) =
        (List.range l.length).flatMap (fun j => entryChildren l[j]?) := by
      refine List.flatMap_congr fun j hj => ?_
      rw [List.getElem?_append_left (List.mem_range.1 hj)]
    rw [h1, ← ih]
    cases v <;> simp [childIds, entryChildren]

/-- The entries of a tree other than its root are, each once, the children of its Internal nodes. -/
theorem Holds.children_perm {tm : List Node} {t : CodeTree} {n : NodeId} {ids : List Nat} (h : Holds tm t n ids) :
    (n.toNat :: ids.flatMap (fun j => entryChildren tm[j]?)).Perm ids := by
  induction t generalizing n ids with
  | leaf x =>
    have h1 := h.1
    unfold readNode at h1
    simp [h.2, h1, entryChildren]
  | internal z o hz ho =>
    obtain ⟨nz, no, iz, io, hr, h1, h2, rfl⟩ := h
    have hz' := hz h1
    have ho' := ho h2
    unfold readNode at hr
    simp only [List.flatMap_cons, List.flatMap_append, hr, entryChildren]
    refine List.Perm.cons _ ?_
    refine List.Perm.trans ?_ (hz'.append ho')
    simp only [List.cons_append, List.nil_append]
    exact List.Perm.cons _ List.perm_middle.symm

namespace HoldsTree

variable {tm : List Node} {r : NodeId} {t : CodeTree}

/-- The child fields name every node but the root, each once (R29 c). -/
theorem childIds_perm (h : HoldsTree tm r t) : (r.toNat :: childIds tm).Perm (List.range tm.length) := by
  obtain ⟨ids, h1, h2, _⟩ := h
  rw [childIds_eq]
  refine List.Perm.trans (List.Perm.cons _ ?_) (h1.children_perm.trans h2)
  exact h2.symm.flatMap_right _

/-- Every node but the root is the child of exactly one Internal node, once; the root is the child of none (R29 c). -/
theorem childIds_count (h : HoldsTree tm r t) {j : Nat} (hj : j < tm.length) :
    (childIds tm).count j = if j = r.toNat then 0 else 1 := by
  have hc := h.childIds_perm.count_eq j
  rw [List.count_eq_one_of_mem List.nodup_range (List.mem_range.2 hj), List.count_cons] at hc
  split
  · subst_vars; simpa using hc
  · rename_i hne
    simpa [Ne.symm hne] using hc

end HoldsTree

/-- The Leaf entries of a stored tree are as many as its leaves. -/
theorem Holds.leafEntries {tm : List Node} {t : CodeTree} {n : NodeId} {ids : List Nat} (h : Holds tm t n ids) :
    ids.countP (fun j => match tm[j]? with | some (.leaf _) => true | _ => false) = t.leafCount := by
  induction t generalizing n ids with
  | leaf x =>
    have h1 := h.1
    unfold readNode at h1
    simp [h.2, h1, CodeTree.leafCount]
  | internal z o hz ho =>
    obtain ⟨nz, no, iz, io, hr, h1, h2, rfl⟩ := h
    unfold readNode at hr
    simp [hr, hz h1, ho h2, CodeTree.leafCount]

theorem leafEntries_eq (tm : List Node) :
    leafEntries tm = (List.range tm.length).countP (fun j => match tm[j]? with | some (.leaf _) => true | _ => false) := by
  induction tm using List.reverseRecOn with
  | nil => rfl
  | append_singleton l v ih =>
    rw [List.length_append, List.length_singleton, List.range_succ, List.countP_append]
    have h1 : (List.range l.length).countP (fun j => match (l ++ [v])[j]? with | some (.leaf _) => true | _ => false) =
        (List.range l.length).countP (fun j => match l[j]? with | some (.leaf _) => true | _ => false) := by
      refine List.countP_congr fun j hj => ?_
      rw [List.getElem?_append_left (List.mem_range.1 hj)]
    rw [h1, ← ih]
    cases v <;> simp [leafEntries]

/-- The number of leaves is (`NCNT` + 1)/2 and at most 256 (R29 e). -/
theorem HoldsTree.leafEntries {tm : List Node} {r : NodeId} {t : CodeTree} (h : HoldsTree tm r t) :
    2 * leafEntries tm = tm.length + 1 ∧ leafEntries tm ≤ 256 := by
  have h1 := h.nodeCount
  have h2 := t.nodeCount_eq
  obtain ⟨ids, h3, h4, h5⟩ := h
  rw [leafEntries_eq, ← h4.countP_eq, h3.leafEntries]
  omega

end Sys2Proof.Machine
end

