-- ==== Sys2Proof/Laws/Invariant.lean ====
section
/-! SUPPORT. The invariant `Inv`: what it gives (the tree, the root's entry, the decoder's place), and that each shared operation and
each command keeps it. -/

namespace Sys2Proof.Machine

namespace Inv

variable {s : State}

/-- With `ROOTV` = 1 there is a tree (R28, R29). -/
theorem exists_tree (h : Inv s) (hr : s.rootv = true) : ∃ t, HoldsTree s.tm s.root t ∧ s.tree = some t := by
  obtain ⟨t, ht⟩ := h.treeOk hr
  exact ⟨t, ht, ht.tree⟩

/-- `CTV` = 1 needs a tree (R31). -/
theorem rootv_of_ctv (h : Inv s) (hc : s.ctv = true) : s.rootv = true := by
  by_contra hr
  have := (h.noTree (by simpa using hr)).2.2.1
  simp_all

/-- With `CTV` = 1 the code table is the one of the tree (R31, R32). -/
theorem table (h : Inv s) (hc : s.ctv = true) :
    ∃ t, HoldsTree s.tm s.root t ∧ t.leafSyms.Nodup ∧ ∀ x p, symGet s.ct x = some p ↔ (p, x) ∈ t.codeWords := by
  obtain ⟨t, ht, hs⟩ := h.exists_tree (h.rootv_of_ctv hc)
  obtain ⟨u, hu, hb⟩ := h.tableOk hc
  obtain rfl : t = u := by rw [hs] at hu; simpa using hu
  exact ⟨t, ht, (buildTable_ok_iff.1 hb).1, (buildTable_ok_iff.1 hb).2⟩

/-- The decoder's place in a tree that is not degenerate (R207). -/
theorem dnode_internal (h : Inv s) (hr : s.rootv = true) {z o : NodeId} (hroot : readNode s.tm s.root = some (.internal z o)) :
    s.ddead = false ∧ ∃ z o, readNode s.tm s.dnode = some (.internal z o) := by
  have := h.decoderOk hr
  unfold DecoderOk at this
  rw [hroot] at this
  exact this

/-- The decoder's place in a degenerate tree (R207). -/
theorem dnode_root (h : Inv s) (hr : s.rootv = true) {x : Byte} (hroot : readNode s.tm s.root = some (.leaf x)) :
    s.dnode = s.root := by
  have := h.decoderOk hr
  unfold DecoderOk at this
  rw [hroot] at this
  exact this

/-! ## The shared operations keep it -/

theorem withInput (h : Inv s) (l : List PortEvent) : Inv { s with input := l } :=
  ⟨h.1, h.2, h.3, h.4, h.5, h.6, h.7, h.8, h.9⟩

theorem reply (h : Inv s) (st : BitVec 8) (a : BitVec 16) (d : BitVec 32) : Inv (reply st a d s) :=
  ⟨h.1, h.2, h.3, h.4, h.5, h.6, h.7, h.8, h.9⟩

theorem refuseLocked (h : Inv s) : Inv (refuseLocked s) := h.reply _ _ _

theorem emitHdr (h : Inv s) (b : List Byte) : Inv (emitHdr b s) := ⟨h.1, h.2, h.3, h.4, h.5, h.6, h.7, h.8, h.9⟩

theorem emitBits (h : Inv s) (ds : List Digit) : Inv (emitBits ds s) := ⟨h.1, h.2, h.3, h.4, h.5, h.6, h.7, h.8, h.9⟩

theorem emitSym (h : Inv s) (x : Byte) : Inv (emitSym x s) := ⟨h.1, h.2, h.3, h.4, h.5, h.6, h.7, h.8, h.9⟩

theorem takeFault (h : Inv s) {k : ErrKind} (hk : k ≠ .duplicateCode) : Inv (takeFault k s) :=
  Inv.reply (s := { s with err := k.code })
    ⟨.inr ⟨k, hk, rfl⟩, h.2, h.3, h.4, h.5, h.6, h.7, h.8, h.9⟩ _ _ _

theorem clearBlock (s : State) : Inv (clearBlock s) where
  errLegal := .inl rfl
  pqSorted := List.Pairwise.nil
  pqFits := Nat.zero_le _
  tmFits := Nat.zero_le _
  hbFits := Nat.zero_le _
  noTree _ := ⟨rfl, rfl, rfl, rfl, rfl⟩
  treeOk h := nomatch h
  tableOk h := nomatch h
  decoderOk h := nomatch h

theorem setFt (h : Inv s) (ft : SymTable Count) : Inv { s with ft := ft } :=
  ⟨h.1, h.2, h.3, h.4, h.5, h.6, h.7, h.8, h.9⟩

theorem setPq (h : Inv s) {q : List PQEntry} (hs : QueueSorted q) (hl : q.length ≤ 256) : Inv { s with pq := q } :=
  ⟨h.1, hs, hl, h.4, h.5, h.6, h.7, h.8, h.9⟩

theorem setHb (h : Inv s) {b : List Byte} (hl : b.length ≤ 1022) : Inv { s with hb := b } :=
  ⟨h.1, h.2, h.3, h.4, hl, h.6, h.7, h.8, h.9⟩

/-- Installing a tree that the node memory holds keeps the invariant (42_tree_builder.md R137, 43_header_codec.md R160). -/
theorem installTree (h : Inv s) {tm : List Node} {r : NodeId} {t : CodeTree} (ht : HoldsTree tm r t) :
    Inv (installTree tm r s) where
  errLegal := h.1
  pqSorted := h.2
  pqFits := h.3
  tmFits := by
    have h1 := ht.nodeCount
    have h2 := t.nodeCount_eq
    obtain ⟨_, _, _, h3⟩ := ht
    simp only [installTree_tm, Config.nnode]
    omega
  hbFits := h.5
  noTree hr := nomatch hr
  treeOk _ := ⟨t, ht⟩
  tableOk hc := nomatch hc
  decoderOk _ := by
    unfold DecoderOk
    rcases ht.readNode_root with ⟨x, _, hx⟩ | ⟨_, _, nz, no, _, hx⟩
    · simp [hx]
    · simp only [installTree_tm, installTree_root, hx, installTree_ddead, installTree_dnode, true_and]
      exact ⟨nz, no, rfl⟩

end Inv

/-- A tree laid out in pre-order fills the node memory (43_header_codec.md R160). -/
theorem holdsTree_layout {t : CodeTree} (hn : t.nodeCount ≤ 511) : HoldsTree (t.layout 0) 0#9 t := by
  have h := holds_layout t [] [] (by simpa using hn.trans (by decide))
  refine ⟨List.range' 0 t.nodeCount, by simpa using h, ?_, ?_⟩
  · rw [CodeTree.layout_length, List.range_eq_range']
  · have := t.nodeCount_eq; omega

/-- A header of a tree that the block can hold fits the buffer (R153, 49_properties.md R258). -/
theorem ser_fits {tm : List Node} {r : NodeId} {t : CodeTree} (ht : HoldsTree tm r t) : t.ser.length ≤ 1022 := by
  have h1 := t.ser_length
  have h2 := t.leafCount_eq
  obtain ⟨_, _, _, h3⟩ := ht
  omega

/-! ## Each command keeps it and completes -/

section Commands

variable {s : State}

/-- What is shown of a command: it goes on, into a state with the invariant. -/
def Keeps (r : Result) : Prop := ∃ t, r = .next t ∧ Inv t

theorem keeps_next {t : State} (h : Inv t) : Keeps (.next t) := ⟨t, rfl, h⟩

theorem keeps_succeed {t : State} (h : Inv t) (a : BitVec 16) (d : BitVec 32) : Keeps (succeed a d t) :=
  keeps_next (h.reply _ _ _)

theorem keeps_raise (h : Inv s) {k : ErrKind} (hk : k ≠ .duplicateCode) : Keeps (raise k s) := keeps_next (h.takeFault hk)

theorem keeps_whenUnlocked (h : Inv s) {body : Result} (hb : Keeps body) : Keeps (whenUnlocked s body) := by
  unfold whenUnlocked
  split
  · exact hb
  · exact keeps_next h.refuseLocked

theorem keeps_requireFlag (h : Inv s) {flag : Bool} {body : Result} (hb : flag = true → Keeps body) :
    Keeps (requireFlag flag s body) := by
  cases flag
  · exact keeps_raise h (by decide)
  · exact hb rfl

theorem illegalWord_keeps (h : Inv s) : Keeps (illegalWord s) := keeps_whenUnlocked h (keeps_raise h (by decide))

theorem execRst_keeps (s : State) : Keeps (execRst s) := keeps_succeed (Inv.clearBlock s) _ _

theorem execStat_keeps (h : Inv s) : Keeps (execStat s) := keeps_succeed h _ _

theorem execFtClr_keeps (h : Inv s) : Keeps (execFtClr s) := keeps_whenUnlocked h (keeps_succeed (h.setFt _) _ _)

theorem execFtInc_keeps (h : Inv s) (x : Byte) : Keeps (execFtInc x s) := by
  refine keeps_whenUnlocked h ?_
  split
  · exact keeps_raise h (by decide)
  · exact keeps_succeed (h.setFt _) _ _

theorem execFtRd_keeps (h : Inv s) (x : Byte) : Keeps (execFtRd x s) := keeps_whenUnlocked h (keeps_succeed h _ _)

theorem execPqClr_keeps (h : Inv s) : Keeps (execPqClr s) :=
  keeps_whenUnlocked h (keeps_succeed (h.setPq List.Pairwise.nil (Nat.zero_le _)) _ _)

theorem execPqPush_keeps (h : Inv s) (pay : NodeId) (prio : Count) : Keeps (execPqPush pay prio s) := by
  refine keeps_whenUnlocked h ?_
  split
  · exact keeps_raise h (by decide)
  · rename_i hf
    exact keeps_succeed (h.setPq (pqInsert_sorted h.pqSorted _) (by simp at hf ⊢; omega)) _ _

theorem execPqPop_keeps (h : Inv s) : Keeps (execPqPop s) := by
  refine keeps_whenUnlocked h ?_
  rcases hq : s.pq with _ | ⟨e, q⟩
  · exact keeps_raise h (by decide)
  · have h1 := h.pqSorted
    have h2 := h.pqFits
    rw [hq] at h1 h2
    exact keeps_succeed (h.setPq (List.pairwise_cons.1 h1).2 (by simp at h2; omega)) _ _

theorem execPqLen_keeps (h : Inv s) : Keeps (execPqLen s) := keeps_whenUnlocked h (keeps_succeed h _ _)

/-- `TB_BUILD` keeps the invariant under any tie-break (49_properties.md R255). -/
theorem execTbBuildWith_keeps {tb : TieBreak} (htb : tb.Lawful) (h : Inv s) : Keeps (execTbBuildWith tb s) := by
  refine keeps_whenUnlocked h ?_
  rcases buildTree_spec htb s.ft with ⟨_, hb⟩ | ⟨_, _, b, r, t, hb, hB⟩ | ⟨_, _, hb⟩
  · rw [hb]; exact keeps_raise h (by decide)
  · rw [hb]
    obtain ⟨p, hp, _⟩ := hB.queue
    exact keeps_succeed ((h.installTree hB.tree).setPq (by rw [hp]; exact List.pairwise_singleton _ _) (by simp [hp])) _ _
  · rw [hb]; exact keeps_raise h (by decide)

theorem execTbBuild_keeps (h : Inv s) : Keeps (execTbBuild s) := execTbBuildWith_keeps blockTieBreak_lawful h

theorem execHdClr_keeps (h : Inv s) : Keeps (execHdClr s) :=
  keeps_whenUnlocked h (keeps_succeed (h.setHb (Nat.zero_le _)) _ _)

theorem execHdWr_keeps (h : Inv s) (x : Byte) : Keeps (execHdWr x s) := by
  refine keeps_whenUnlocked h ?_
  split
  · exact keeps_raise h (by decide)
  · rename_i hf
    exact keeps_succeed (h.setHb (by simp at hf ⊢; omega)) _ _

theorem execHdParse_keeps (h : Inv s) : Keeps (execHdParse s) := by
  refine keeps_whenUnlocked h ?_
  rcases hp : parseHeader s.hb with k | ⟨r, tm⟩
  · rcases parseHeader_error hp with rfl | rfl <;> exact keeps_raise h (by decide)
  · obtain ⟨t, _, hn, rfl, rfl⟩ := parseHeader_ok_iff.1 hp
    exact keeps_succeed (h.installTree (holdsTree_layout hn)) _ _

theorem execHdSer_keeps (h : Inv s) : Keeps (execHdSer s) := by
  refine keeps_whenUnlocked h (keeps_requireFlag h fun hr => ?_)
  obtain ⟨t, ht, hs⟩ := h.exists_tree hr
  rw [hs]
  exact keeps_succeed ((h.setHb (ser_fits ht)).emitHdr _) _ _

theorem execHdLen_keeps (h : Inv s) : Keeps (execHdLen s) := keeps_whenUnlocked h (keeps_succeed h _ _)

theorem execCtBuild_keeps (h : Inv s) : Keeps (execCtBuild s) := by
  refine keeps_whenUnlocked h (keeps_requireFlag h fun hr => ?_)
  obtain ⟨t, ht, hs⟩ := h.exists_tree hr
  simp only [hs]
  rcases hb : buildTable t with k | ct
  · obtain rfl := buildTable_error hb
    exact keeps_raise h (by decide)
  · refine keeps_succeed (t := { s with ct := ct, ctv := true }) ?_ _ _
    exact ⟨h.1, h.2, h.3, h.4, h.5, fun hr' => absurd (hr.symm.trans hr') (by decide), h.7, fun _ => ⟨t, hs, hb⟩, h.9⟩

theorem execCtLen_keeps (h : Inv s) (x : Byte) : Keeps (execCtLen x s) := by
  refine keeps_whenUnlocked h (keeps_requireFlag h fun _ => ?_)
  split <;> exact keeps_succeed h _ _

theorem execEncSym_keeps (h : Inv s) (x : Byte) : Keeps (execEncSym x s) := by
  refine keeps_whenUnlocked h (keeps_requireFlag h fun _ => ?_)
  split
  · exact keeps_raise h (by decide)
  · exact keeps_succeed (h.emitBits _) _ _

theorem execDecBit_keeps (h : Inv s) (b : Digit) : Keeps (execDecBit b s) := by
  refine keeps_whenUnlocked h (keeps_requireFlag h fun hr => ?_)
  split
  · exact keeps_succeed h _ _
  obtain ⟨t, ht, _⟩ := h.exists_tree hr
  have dec : ∀ u : State, u.err = s.err → u.pq = s.pq → u.hb = s.hb → u.tm = s.tm → u.root = s.root → u.ctv = s.ctv →
      u.ct = s.ct → u.rootv = true → DecoderOk u → Inv u := by
    intro u e1 e2 e3 e4 e5 e6 e7 e8 e9
    have etree : u.tree = s.tree := by simp [State.tree, e4, e5]
    exact ⟨e1 ▸ h.1, e2 ▸ h.2, e2 ▸ h.3, e4 ▸ h.4, e3 ▸ h.5, fun hf => by simp [e8] at hf, fun _ => e4 ▸ e5 ▸ h.7 hr,
      fun hc => by rw [etree, e7]; exact h.8 (e6 ▸ hc), fun _ => e9⟩
  rcases hroot : readNode s.tm s.root with _ | ⟨x | ⟨z, o⟩⟩
  · have := ht.readNode_root
    simp [hroot] at this
  · cases b
    · exact keeps_succeed (h.emitSym x) _ _
    · exact keeps_succeed (dec { s with ddead := true } rfl rfl rfl rfl rfl rfl rfl hr (by
        have := h.dnode_root hr hroot
        simpa [DecoderOk, hroot] using this)) _ _
  · obtain ⟨hdead, nz, no, hd⟩ := h.dnode_internal hr hroot
    have hchild := ht.child_exists hd b
    simp only [followEdge, hd]
    rcases hc : readNode s.tm (if b then no else nz) with _ | ⟨x | ⟨z', o'⟩⟩
    · exact absurd hc hchild
    · exact keeps_succeed ((dec { s with dnode := s.root } rfl rfl rfl rfl rfl rfl rfl hr (by
        simp [DecoderOk, hroot, hdead])).emitSym x) _ _
    · exact keeps_succeed (dec { s with dnode := if b then no else nz } rfl rfl rfl rfl rfl rfl rfl hr (by
        simp [DecoderOk, hroot, hdead, hc])) _ _

theorem execDecEos_keeps (h : Inv s) : Keeps (execDecEos s) := by
  refine keeps_whenUnlocked h (keeps_requireFlag h fun _ => ?_)
  split
  · exact keeps_raise h (by decide)
  · exact keeps_succeed h _ _

end Commands

end Sys2Proof.Machine
end

