-- ==== Sys2Proof/Laws/Decoder.lean ====
section
/-! SUPPORT. The decoder: HUF's candidate loop (46_decoder.md R200), what it does on a code word, and that one `DEC_BIT` of the tree walk is
one digit of that loop (R206, R207, R208). -/

namespace Sys2Proof.Machine

/-! ## HUF's loop -/

theorem hufDigit_match {t : CodeTree} {l : HufLoop} {b : Digit} {x : Byte} (h : (l.cand ++ [b], x) ∈ t.codeWords) :
    hufDigit t l b = ⟨[], l.out ++ [x]⟩ := by
  simp [hufDigit, lookupCode_eq_some_iff.2 h]

theorem hufDigit_nomatch {t : CodeTree} {l : HufLoop} {b : Digit} (h : ∀ x, (l.cand ++ [b], x) ∉ t.codeWords) :
    hufDigit t l b = ⟨l.cand ++ [b], l.out⟩ := by
  have : lookupCode t (l.cand ++ [b]) = none := by
    rcases hl : lookupCode t (l.cand ++ [b]) with _ | x
    · rfl
    · exact absurd (lookupCode_eq_some_iff.1 hl) (h x)
  simp [hufDigit, this]

theorem hufLoop_append (t : CodeTree) (l : HufLoop) (ds es : List Digit) :
    hufLoop t l (ds ++ es) = hufLoop t (hufLoop t l ds) es := List.foldl_append

/-- From a proper prefix of a code word, the rest of it emits its symbol and empties the candidate (R200, R201). -/
theorem hufLoop_rest {t : CodeTree} {q : List Digit} {x : Byte} {l : HufLoop} (hq : q ≠ []) (h : (l.cand ++ q, x) ∈ t.codeWords) :
    hufLoop t l q = ⟨[], l.out ++ [x]⟩ := by
  induction q generalizing l with
  | nil => exact absurd rfl hq
  | cons b q ih =>
    have h' : ((l.cand ++ [b]) ++ q, x) ∈ t.codeWords := by simpa using h
    rcases eq_or_ne q [] with rfl | hne
    · simpa [hufLoop] using hufDigit_match (by simpa using h')
    · have hno : ∀ y, (l.cand ++ [b], y) ∉ t.codeWords := by
        intro y hy
        have := (CodeTree.codeWords_prefix_eq hy h' (List.prefix_append _ _)).1
        exact hne (by simpa using this)
      have hstep : hufLoop t l (b :: q) = hufLoop t (hufDigit t l b) q := rfl
      rw [hstep, hufDigit_nomatch hno]
      exact ih hne h'

/-- The loop on a code word, from an empty candidate, emits exactly its symbol. -/
theorem hufLoop_codeWord {t : CodeTree} {w : List Digit} {x : Byte} (h : (w, x) ∈ t.codeWords) (out : List Byte) :
    hufLoop t ⟨[], out⟩ w = ⟨[], out ++ [x]⟩ :=
  hufLoop_rest (CodeTree.codeWord_ne_nil h) (by simpa using h)

/-- The loop on a sequence of code words emits exactly their symbols (R227 of 47_sequences.md). -/
theorem hufLoop_codeWords {t : CodeTree} {ws : List (List Digit × Byte)} (h : ∀ c ∈ ws, c ∈ t.codeWords) (out : List Byte) :
    hufLoop t ⟨[], out⟩ (ws.flatMap Prod.fst) = ⟨[], out ++ ws.map Prod.snd⟩ := by
  induction ws generalizing out with
  | nil => simp [hufLoop]
  | cons c ws ih =>
    rw [List.flatMap_cons, hufLoop_append, hufLoop_codeWord (w := c.1) (x := c.2) (h c (by simp)),
      ih (fun d hd => h d (by simp [hd]))]
    simp

/-! ## The walk -/

/-- A nonempty path does not come back to the root (R29 c). -/
theorem HoldsTree.followPath_ne_root {tm : List Node} {r n : NodeId} {t : CodeTree} (h : HoldsTree tm r t) {p : List Digit}
    (hp : p ≠ []) (hf : followPath tm r p = some n) : n ≠ r := by
  obtain ⟨ids, h1, h2, _⟩ := h
  have hnd : ids.Nodup := h2.nodup_iff.2 List.nodup_range
  rintro rfl
  cases t with
  | leaf x =>
    cases p with
    | nil => exact hp rfl
    | cons b p => simp [followPath, h1.1] at hf
  | internal z o =>
    obtain ⟨nz, no, iz, io, hr, hz, ho, rfl⟩ := h1
    cases p with
    | nil => exact hp rfl
    | cons b p =>
      simp only [followPath, hr] at hf
      rw [List.nodup_cons, List.mem_append, not_or] at hnd
      cases b
      · obtain ⟨u, jds, hu, _⟩ := subtree_of_followPath hz hf
        obtain ⟨m, kds, hm, hk, hs⟩ := followPath_of_subtree hz hu
        obtain rfl : m = n := Option.some.inj (hm.symm.trans hf)
        exact hnd.1.1 (hs hk.root_mem)
      · obtain ⟨u, jds, hu, _⟩ := subtree_of_followPath ho hf
        obtain ⟨m, kds, hm, hk, hs⟩ := followPath_of_subtree ho hu
        obtain rfl : m = n := Option.some.inj (hm.symm.trans hf)
        exact hnd.1.2 (hs hk.root_mem)

/-- The decoder's state stands for the loop's candidate (10_state.md R34, 46_decoder.md R208): alive at the end of the candidate's
path, which is not a leaf of a tree that is not degenerate; or dead in a degenerate tree with a candidate that begins with 1. -/
def Stands (t : CodeTree) (s : State) (l : HufLoop) : Prop :=
  match t with
  | .leaf _ => s.dnode = s.root ∧ (if s.ddead then ∃ c, l.cand = true :: c else l.cand = [])
  | .internal _ _ => s.ddead = false ∧ followPath s.tm s.root l.cand = some s.dnode ∧
      ∃ z o, subtree t l.cand = some (.internal z o)

/-- A fresh decoder stands for the empty candidate. -/
theorem stands_fresh {t : CodeTree} {s : State} (ht : HoldsTree s.tm s.root t) (hd : s.dnode = s.root) (hdead : s.ddead = false)
    (out : List Byte) : Stands t s ⟨[], out⟩ := by
  cases t with
  | leaf x => simp [Stands, hd, hdead]
  | internal z o => simp [Stands, hdead, followPath, ht.root_lt, subtree, hd]

/-- The candidate is empty exactly when the decoder is at the root and alive (R34, R208). -/
theorem Stands.cand_nil_iff {t : CodeTree} {s : State} {l : HufLoop} (ht : HoldsTree s.tm s.root t) (h : Stands t s l) :
    l.cand = [] ↔ s.dnode = s.root ∧ s.ddead = false := by
  cases t with
  | leaf x =>
    obtain ⟨h1, h2⟩ := h
    cases hd : s.ddead
    · simp_all
    · simp only [hd, if_true] at h2
      obtain ⟨c, hc⟩ := h2
      simp [hc]
  | internal z o =>
    obtain ⟨h1, h2, _⟩ := h
    refine ⟨fun hc => ⟨?_, h1⟩, fun ⟨hd, _⟩ => ?_⟩
    · rw [hc] at h2
      simpa [followPath, ht.root_lt, eq_comm] using h2
    · by_contra hne
      exact ht.followPath_ne_root hne h2 hd

/-- What one `DEC_BIT` leaves unchanged (R204). -/
def DecFrame (s u : State) : Prop :=
  u = { s with dnode := u.dnode, ddead := u.ddead, symout := u.symout, rspout := u.rspout }

/-- One `DEC_BIT` is one digit of HUF's loop (R208). -/
theorem decBit_step {t : CodeTree} {s : State} {l : HufLoop} (herr : s.err = 0#8) (hr : s.rootv = true)
    (ht : HoldsTree s.tm s.root t) (h : Stands t s l) (b : Digit) :
    ∃ u new, execDecBit b s = .next u ∧ DecFrame s u ∧ Stands t u (hufDigit t l b) ∧ u.symout = s.symout ++ new ∧
      (hufDigit t l b).out = l.out ++ new ∧ ∃ v a d, u = reply stOk a d v := by
  rw [execDecBit, whenUnlocked_open herr, requireFlag_open hr]
  cases t with
  | leaf x =>
    obtain ⟨h1, h2⟩ := h
    have hroot : readNode s.tm s.root = some (.leaf x) := by
      obtain ⟨_, hh, _⟩ := ht; exact hh.1
    cases hd : s.ddead
    · simp only [hd, Bool.false_eq_true, if_false] at h2
      cases b
      · rw [hufDigit_match (x := x) (by simp [h2, CodeTree.codeWords])]
        refine ⟨_, [x], by simp only [hroot, Bool.false_eq_true, if_false]; rfl, ?_, ?_, rfl, rfl, _, _, _, rfl⟩
        · rfl
        simp [Stands, h1, hd]
      · rw [hufDigit_nomatch (by simp [h2, CodeTree.codeWords])]
        refine ⟨_, [], by simp only [hroot, Bool.false_eq_true, if_false, if_true]; rfl, ?_, ?_, by simp, by simp, _, _, _, rfl⟩
        · rfl
        simp [Stands, h1, h2]
    · simp only [hd, if_true] at h2
      obtain ⟨c, hc⟩ := h2
      rw [hufDigit_nomatch (by simp [hc, CodeTree.codeWords])]
      refine ⟨_, [], by simp only [if_true]; rfl, ?_, ?_, by simp, by simp, _, _, _, rfl⟩
      · rfl
      simp [Stands, h1, hd, hc]
  | internal z0 o0 =>
    obtain ⟨hd, hf, z, o, hs⟩ := h
    obtain ⟨ids, hh, _⟩ := id ht
    obtain ⟨m, jds, hm, hj, _⟩ := followPath_of_subtree hh hs
    obtain rfl : m = s.dnode := by simpa [hf] using hm.symm
    obtain ⟨nz, no, iz, io, hn, hz, ho, _⟩ := hj
    have hroot : ∃ a c, readNode s.tm s.root = some (.internal a c) := by
      obtain ⟨a, c, _, _, hrt, _⟩ := hh; exact ⟨a, c, hrt⟩
    obtain ⟨a, c, hroot⟩ := hroot
    have hsub : subtree (.internal z0 o0) (l.cand ++ [b]) = some (if b then o else z) := by
      rw [subtree_append, hs]; simp [subtree]
    have hfol : followPath s.tm s.root (l.cand ++ [b]) = some (if b then no else nz) := by
      refine followPath_snoc hf hn ?_
      cases b
      · exact hz.root_lt
      · exact ho.root_lt
    have hchild : Holds s.tm (if b then o else z) (if b then no else nz) (if b then io else iz) := by cases b <;> assumption
    simp only [hd, Bool.false_eq_true, if_false, hroot, followEdge, hn]
    rcases hb : (if b then o else z) with x | ⟨z', o'⟩
    · rw [hb] at hsub hchild
      rw [hufDigit_match (x := x) (subtree_leaf_iff.1 hsub)]
      refine ⟨_, [x], by simp only [hchild.1]; rfl, ?_, ?_, rfl, rfl, _, _, _, rfl⟩
      · rfl
      simp [Stands, hd, followPath, ht.root_lt, subtree]
    · rw [hb] at hsub hchild
      have hno : ∀ x, (l.cand ++ [b], x) ∉ (CodeTree.internal z0 o0).codeWords := by
        intro x hx
        have := subtree_leaf_iff.2 hx
        rw [hsub] at this
        cases this
      rw [hufDigit_nomatch hno]
      obtain ⟨_, _, _, _, hrd, _⟩ := hchild
      refine ⟨_, [], by simp only [hrd]; rfl, ?_, ?_, by simp, by simp, _, _, _, rfl⟩
      · rfl
      exact ⟨rfl, hfol, _, _, hsub⟩

end Sys2Proof.Machine
end

