-- ==== Sys2Proof/Laws/Encoding.lean ====
section
/-! SUPPORT. The fields of command and response words (30_encoding.md R70 to R77): what each field of an assembled word is, that a word is
assembled from its fields, and when each operand form accepts. -/

namespace Sys2Proof.Machine

/-- Bit `i` of the word that four fields make. -/
theorem getLsbD_fields (op r : BitVec 8) (a : BitVec 16) (d : BitVec 32) (i : Nat) :
    (op ++ r ++ a ++ d).getLsbD i =
      if i < 32 then d.getLsbD i
      else if i < 48 then a.getLsbD (i - 32)
      else if i < 56 then r.getLsbD (i - 48)
      else op.getLsbD (i - 56) := by
  rw [BitVec.getLsbD_append, BitVec.getLsbD_append, BitVec.getLsbD_append]
  repeat' split
  all_goals first | rfl | omega

@[simp] theorem opField_cmdWord (op : BitVec 8) (a : BitVec 16) (d : BitVec 32) : opField (cmdWord op a d) = op := by
  apply BitVec.eq_of_getElem_eq
  intro i hi
  simp only [opField, cmdWord, BitVec.getElem_extractLsb', getLsbD_fields]
  rw [if_neg (by omega), if_neg (by omega), if_neg (by omega), Nat.add_sub_cancel_left, BitVec.getLsbD_eq_getElem hi]

@[simp] theorem rsvField_cmdWord (op : BitVec 8) (a : BitVec 16) (d : BitVec 32) : rsvField (cmdWord op a d) = 0#8 := by
  apply BitVec.eq_of_getElem_eq
  intro i hi
  simp only [rsvField, cmdWord, BitVec.getElem_extractLsb', getLsbD_fields]
  rw [if_neg (by omega), if_neg (by omega), if_pos (by omega), Nat.add_sub_cancel_left, BitVec.getLsbD_eq_getElem hi]

@[simp] theorem aField_cmdWord (op : BitVec 8) (a : BitVec 16) (d : BitVec 32) : aField (cmdWord op a d) = a := by
  apply BitVec.eq_of_getElem_eq
  intro i hi
  simp only [aField, cmdWord, BitVec.getElem_extractLsb', getLsbD_fields]
  rw [if_neg (by omega), if_pos (by omega), Nat.add_sub_cancel_left, BitVec.getLsbD_eq_getElem hi]

@[simp] theorem dField_cmdWord (op : BitVec 8) (a : BitVec 16) (d : BitVec 32) : dField (cmdWord op a d) = d := by
  apply BitVec.eq_of_getElem_eq
  intro i hi
  simp only [dField, cmdWord, BitVec.getElem_extractLsb', getLsbD_fields]
  rw [if_pos (by omega), Nat.zero_add, BitVec.getLsbD_eq_getElem hi]

/-- A command word and a response word are laid out alike (R70, R75). -/
theorem rspWord_eq_cmdWord (st : BitVec 8) (a : BitVec 16) (d : BitVec 32) : rspWord st a d = cmdWord st a d := rfl

@[simp] theorem opField_rspWord (st : BitVec 8) (a : BitVec 16) (d : BitVec 32) : opField (rspWord st a d) = st :=
  opField_cmdWord st a d

@[simp] theorem statusField_rspWord (st : BitVec 8) (a : BitVec 16) (d : BitVec 32) : statusField (rspWord st a d) = st :=
  opField_rspWord st a d

@[simp] theorem rsvField_rspWord (st : BitVec 8) (a : BitVec 16) (d : BitVec 32) : rsvField (rspWord st a d) = 0#8 :=
  rsvField_cmdWord st a d

@[simp] theorem aField_rspWord (st : BitVec 8) (a : BitVec 16) (d : BitVec 32) : aField (rspWord st a d) = a :=
  aField_cmdWord st a d

@[simp] theorem dField_rspWord (st : BitVec 8) (a : BitVec 16) (d : BitVec 32) : dField (rspWord st a d) = d :=
  dField_cmdWord st a d

/-- A word whose reserved byte is 0 is assembled from its three other fields (R70). -/
theorem cmdWord_fields {w : CmdWord} (h : rsvField w = 0#8) : cmdWord (opField w) (aField w) (dField w) = w := by
  rw [cmdWord, ← h]
  apply BitVec.eq_of_getLsbD_eq
  intro i hi
  rw [getLsbD_fields]
  unfold opField rsvField aField dField
  simp only [BitVec.getLsbD_extractLsb']
  repeat' split
  · simp [*]
  · rw [show 32 + (i - 32) = i by omega]; simp; omega
  · rw [show 48 + (i - 48) = i by omega]; simp; omega
  · rw [show 56 + (i - 56) = i by omega]; simp; omega

/-- The fields cut out by place value are the fields cut out by bit number (R70, R9). -/
theorem ofWord_eq (w : CmdWord) : RawCmd.ofWord w = ⟨opField w, rsvField w, aField w, dField w⟩ := by
  have h : ∀ n k : Nat, BitVec.ofNat n (w.toNat / 2 ^ k) = w.extractLsb' k n := by
    intro n k
    apply BitVec.eq_of_toNat_eq
    rw [BitVec.extractLsb'_toNat, BitVec.toNat_ofNat, Nat.shiftRight_eq_div_pow]
  have h0 : BitVec.ofNat 32 w.toNat = w.extractLsb' 0 32 := by simpa using h 32 0
  simp only [RawCmd.ofWord, h, h0, opField, rsvField, aField, dField]

/-- The fields of an assembled word. -/
@[simp] theorem ofWord_cmdWord (op : BitVec 8) (a : BitVec 16) (d : BitVec 32) : RawCmd.ofWord (cmdWord op a d) = ⟨op, 0#8, a, d⟩ := by
  rw [ofWord_eq, opField_cmdWord, rsvField_cmdWord, aField_cmdWord, dField_cmdWord]

/-- An assembled word as the sum of its fields in their places, the form in which the command rules write their encodings. -/
theorem cmdWord_eq_or (op : BitVec 8) (a : BitVec 16) (d : BitVec 32) :
    cmdWord op a d = op.setWidth 64 <<< 56 ||| a.setWidth 64 <<< 32 ||| d.setWidth 64 := by
  apply BitVec.eq_of_getLsbD_eq
  intro i hi
  rw [cmdWord, getLsbD_fields]
  simp only [BitVec.getLsbD_or, BitVec.getLsbD_shiftLeft, BitVec.getLsbD_setWidth]
  by_cases h1 : i < 32
  · simp [h1, hi, show i < 56 by omega]
  · rw [BitVec.getLsbD_of_ge d i (by omega)]
    by_cases h2 : i < 48
    · simp [h1, h2, hi, show i < 56 by omega, show i - 32 < 64 by omega]
    · rw [BitVec.getLsbD_of_ge a (i - 32) (by omega)]
      by_cases h3 : i < 56
      · simp [h1, h2, h3]
      · simp [h1, h2, h3, hi, show i - 56 < 64 by omega]

/-! ## The `A` field of each operand form -/

/-- Format `N` accepts exactly `A` = 0 and `D` = 0 (R71). -/
theorem formN_eq_some_iff {a : BitVec 16} {d : BitVec 32} {i j : Instr} :
    formN a d i = some j ↔ a = 0#16 ∧ d = 0#32 ∧ j = i := by
  unfold formN
  split
  · rename_i h
    exact ⟨fun e => ⟨h.1, h.2, (Option.some.inj e).symm⟩, fun e => by rw [e.2.2]⟩
  · rename_i h
    exact ⟨fun e => (by cases e), fun e => absurd ⟨e.1, e.2.1⟩ h⟩

/-- Format `S` accepts exactly a symbol in `A` and `D` = 0 (R71). -/
theorem formS_eq_some_iff {a : BitVec 16} {d : BitVec 32} {mk : Byte → Instr} {j : Instr} :
    formS a d mk = some j ↔ ∃ x : Byte, a = 0#8 ++ x ∧ d = 0#32 ∧ j = mk x := by
  have hsplit : a = a.extractLsb' 8 8 ++ a.extractLsb' 0 8 := by
    apply BitVec.eq_of_getLsbD_eq
    intro i hi
    rw [BitVec.getLsbD_append]
    simp only [BitVec.getLsbD_extractLsb']
    split
    · simp [*]
    · rw [show 8 + (i - 8) = i by omega]; simp; omega
  have hlow : ∀ x : Byte, ((0#8 ++ x : BitVec 16).extractLsb' 0 8) = x := by
    intro x; apply BitVec.eq_of_getLsbD_eq; intro i hi
    simp only [BitVec.getLsbD_extractLsb', BitVec.getLsbD_append]
    simp [hi]
  have hhigh : ∀ x : Byte, ((0#8 ++ x : BitVec 16).extractLsb' 8 8) = 0#8 := by
    intro x; apply BitVec.eq_of_getLsbD_eq; intro i hi
    simp only [BitVec.getLsbD_extractLsb', BitVec.getLsbD_append]
    simp
  simp only [formS]
  split
  · rename_i h
    simp only [Option.some.injEq]
    constructor
    · rintro rfl; exact ⟨_, h.1 ▸ hsplit, h.2, rfl⟩
    · rintro ⟨x, rfl, _, rfl⟩; rw [hlow]
  · rename_i h
    simp only [reduceCtorEq, false_iff, not_exists]
    rintro x ⟨rfl, hd, _⟩
    exact h ⟨hhigh x, hd⟩

/-- Format `B` accepts exactly a digit in `A` and `D` = 0 (R71). -/
theorem formB_eq_some_iff {a : BitVec 16} {d : BitVec 32} {mk : Digit → Instr} {j : Instr} :
    formB a d mk = some j ↔ ∃ b : Digit, a = 0#15 ++ BitVec.ofBool b ∧ d = 0#32 ∧ j = mk b := by
  have hsplit : a = a.extractLsb' 1 15 ++ BitVec.ofBool (a.getLsbD 0) := by
    apply BitVec.eq_of_getLsbD_eq
    intro i hi
    rw [BitVec.getLsbD_append]
    simp only [BitVec.getLsbD_extractLsb', BitVec.getLsbD_ofBool]
    split
    · obtain rfl : i = 0 := by omega
      simp
    · rw [show 1 + (i - 1) = i by omega]; simp; omega
  have hlow : ∀ b : Digit, ((0#15 ++ BitVec.ofBool b : BitVec 16).getLsbD 0) = b := by decide
  have hhigh : ∀ b : Digit, ((0#15 ++ BitVec.ofBool b : BitVec 16).extractLsb' 1 15) = 0#15 := by decide
  simp only [formB]
  split
  · rename_i h
    simp only [Option.some.injEq]
    constructor
    · rintro rfl; exact ⟨_, h.1 ▸ hsplit, h.2, rfl⟩
    · rintro ⟨x, rfl, _, rfl⟩; rw [hlow]
  · rename_i h
    simp only [reduceCtorEq, false_iff, not_exists]
    rintro x ⟨rfl, hd, _⟩
    exact h ⟨hhigh x, hd⟩

/-- Format `P` accepts exactly a payload in `A`, with any priority in `D` (R71). -/
theorem formP_eq_some_iff {a : BitVec 16} {d : BitVec 32} {mk : NodeId → Count → Instr} {j : Instr} :
    formP a d mk = some j ↔ ∃ pay : NodeId, a = 0#7 ++ pay ∧ j = mk pay d := by
  have hsplit : a = a.extractLsb' 9 7 ++ a.extractLsb' 0 9 := by
    apply BitVec.eq_of_getLsbD_eq
    intro i hi
    rw [BitVec.getLsbD_append]
    simp only [BitVec.getLsbD_extractLsb']
    split
    · simp [*]
    · rw [show 9 + (i - 9) = i by omega]; simp; omega
  have hlow : ∀ x : NodeId, ((0#7 ++ x : BitVec 16).extractLsb' 0 9) = x := by
    intro x; apply BitVec.eq_of_getLsbD_eq; intro i hi
    simp only [BitVec.getLsbD_extractLsb', BitVec.getLsbD_append]
    simp [hi]
  have hhigh : ∀ x : NodeId, ((0#7 ++ x : BitVec 16).extractLsb' 9 7) = 0#7 := by
    intro x; apply BitVec.eq_of_getLsbD_eq; intro i hi
    simp only [BitVec.getLsbD_extractLsb', BitVec.getLsbD_append]
    simp
  simp only [formP]
  split
  · rename_i h
    simp only [Option.some.injEq]
    constructor
    · rintro rfl; exact ⟨_, h ▸ hsplit, rfl⟩
    · rintro ⟨x, rfl, rfl⟩; rw [hlow]
  · rename_i h
    simp only [reduceCtorEq, false_iff, not_exists]
    rintro x ⟨rfl, _⟩
    exact h (hhigh x)

/-! ## Zero extension -/

/-- Zeros above a value extend it. -/
theorem zero_append {n k : Nat} (x : BitVec n) : (0#k ++ x : BitVec (k + n)) = x.setWidth (k + n) := by
  apply BitVec.eq_of_toNat_eq
  rw [BitVec.toNat_append, BitVec.toNat_setWidth, Nat.mod_eq_of_lt]
  · simp
  · exact x.isLt.trans_le (Nat.pow_le_pow_right (by omega) (by omega))

/-- The payload field of a popped entry (R77). -/
theorem payResult_eq (pay : NodeId) : payResult pay = pay.setWidth 16 := zero_append pay

/-- The field of a refused command (R76). -/
theorem errResult_eq (e : BitVec 8) : errResult e = e.setWidth 32 := zero_append e

/-- The field of an emitted symbol is `0x0100 | sym` (46_decoder.md R204). -/
theorem symResult_eq (x : Byte) : symResult x = 0x0100#16 ||| x.setWidth 16 := by
  revert x; decide +kernel

/-- Extending an operand twice is extending it once. -/
theorem setWidth_setWidth_64 {n k : Nat} (x : BitVec n) (h : n ≤ k) : (x.setWidth k).setWidth 64 = x.setWidth 64 := by
  apply BitVec.eq_of_toNat_eq
  have h1 : x.toNat < 2 ^ k := x.isLt.trans_le (Nat.pow_le_pow_right (by omega) h)
  rw [BitVec.toNat_setWidth, BitVec.toNat_setWidth, BitVec.toNat_setWidth, Nat.mod_eq_of_lt h1]

/-- The word of a command with a symbol or a header byte (R71). -/
theorem cmdWord_symbol (op : BitVec 8) (x : Byte) : cmdWord op (0#8 ++ x) 0#32 = op.setWidth 64 <<< 56 ||| x.setWidth 64 <<< 32 := by
  rw [cmdWord_eq_or, show (0#8 ++ x : BitVec 16) = x.setWidth 16 from zero_append x, setWidth_setWidth_64 x (by omega)]
  simp

/-- The word of a command with a digit (R71). -/
theorem cmdWord_digit (op : BitVec 8) (b : Digit) :
    cmdWord op (0#15 ++ BitVec.ofBool b) 0#32 = op.setWidth 64 <<< 56 ||| (BitVec.ofBool b).setWidth 64 <<< 32 := by
  rw [cmdWord_eq_or, show (0#15 ++ BitVec.ofBool b : BitVec 16) = (BitVec.ofBool b).setWidth 16 from zero_append _,
    setWidth_setWidth_64 _ (by omega)]
  simp

/-- The word of a command with a payload and a priority (R71). -/
theorem cmdWord_pair (op : BitVec 8) (pay : NodeId) (prio : Count) :
    cmdWord op (0#7 ++ pay) prio = op.setWidth 64 <<< 56 ||| pay.setWidth 64 <<< 32 ||| prio.setWidth 64 := by
  rw [cmdWord_eq_or, show (0#7 ++ pay : BitVec 16) = pay.setWidth 16 from zero_append pay,
    setWidth_setWidth_64 pay (by omega)]

/-! ## The opcode map -/

/-- The fields of a legal command are its opcode and its operands, and no other fields decode to it (R74). -/
theorem decodeFields_eq_some_iff {op : BitVec 8} {a : BitVec 16} {d : BitVec 32} {i : Instr} :
    decodeFields op a d = some i ↔ op = i.opcode ∧ a = i.aOperand ∧ d = i.dOperand := by
  constructor
  · intro h
    rcases eq_or_ne op 0x01#8 with rfl | h01
    · obtain ⟨h1, h2, rfl⟩ := formN_eq_some_iff.1 h; exact ⟨rfl, h1, h2⟩
    rcases eq_or_ne op 0x02#8 with rfl | h02
    · obtain ⟨h1, h2, rfl⟩ := formN_eq_some_iff.1 h; exact ⟨rfl, h1, h2⟩
    rcases eq_or_ne op 0x10#8 with rfl | h10
    · obtain ⟨h1, h2, rfl⟩ := formN_eq_some_iff.1 h; exact ⟨rfl, h1, h2⟩
    rcases eq_or_ne op 0x11#8 with rfl | h11
    · obtain ⟨x, h1, h2, rfl⟩ := formS_eq_some_iff.1 h; exact ⟨rfl, h1, h2⟩
    rcases eq_or_ne op 0x12#8 with rfl | h12
    · obtain ⟨x, h1, h2, rfl⟩ := formS_eq_some_iff.1 h; exact ⟨rfl, h1, h2⟩
    rcases eq_or_ne op 0x20#8 with rfl | h20
    · obtain ⟨h1, h2, rfl⟩ := formN_eq_some_iff.1 h; exact ⟨rfl, h1, h2⟩
    rcases eq_or_ne op 0x21#8 with rfl | h21
    · obtain ⟨x, h1, rfl⟩ := formP_eq_some_iff.1 h; exact ⟨rfl, h1, rfl⟩
    rcases eq_or_ne op 0x22#8 with rfl | h22
    · obtain ⟨h1, h2, rfl⟩ := formN_eq_some_iff.1 h; exact ⟨rfl, h1, h2⟩
    rcases eq_or_ne op 0x23#8 with rfl | h23
    · obtain ⟨h1, h2, rfl⟩ := formN_eq_some_iff.1 h; exact ⟨rfl, h1, h2⟩
    rcases eq_or_ne op 0x30#8 with rfl | h30
    · obtain ⟨h1, h2, rfl⟩ := formN_eq_some_iff.1 h; exact ⟨rfl, h1, h2⟩
    rcases eq_or_ne op 0x40#8 with rfl | h40
    · obtain ⟨h1, h2, rfl⟩ := formN_eq_some_iff.1 h; exact ⟨rfl, h1, h2⟩
    rcases eq_or_ne op 0x41#8 with rfl | h41
    · obtain ⟨x, h1, h2, rfl⟩ := formS_eq_some_iff.1 h; exact ⟨rfl, h1, h2⟩
    rcases eq_or_ne op 0x42#8 with rfl | h42
    · obtain ⟨h1, h2, rfl⟩ := formN_eq_some_iff.1 h; exact ⟨rfl, h1, h2⟩
    rcases eq_or_ne op 0x43#8 with rfl | h43
    · obtain ⟨h1, h2, rfl⟩ := formN_eq_some_iff.1 h; exact ⟨rfl, h1, h2⟩
    rcases eq_or_ne op 0x44#8 with rfl | h44
    · obtain ⟨h1, h2, rfl⟩ := formN_eq_some_iff.1 h; exact ⟨rfl, h1, h2⟩
    rcases eq_or_ne op 0x50#8 with rfl | h50
    · obtain ⟨h1, h2, rfl⟩ := formN_eq_some_iff.1 h; exact ⟨rfl, h1, h2⟩
    rcases eq_or_ne op 0x51#8 with rfl | h51
    · obtain ⟨x, h1, h2, rfl⟩ := formS_eq_some_iff.1 h; exact ⟨rfl, h1, h2⟩
    rcases eq_or_ne op 0x60#8 with rfl | h60
    · obtain ⟨x, h1, h2, rfl⟩ := formS_eq_some_iff.1 h; exact ⟨rfl, h1, h2⟩
    rcases eq_or_ne op 0x70#8 with rfl | h70
    · obtain ⟨x, h1, h2, rfl⟩ := formB_eq_some_iff.1 h; exact ⟨rfl, h1, h2⟩
    rcases eq_or_ne op 0x71#8 with rfl | h71
    · obtain ⟨h1, h2, rfl⟩ := formN_eq_some_iff.1 h; exact ⟨rfl, h1, h2⟩
    rw [decodeFields, if_neg h01, if_neg h02, if_neg h10, if_neg h11, if_neg h12, if_neg h20, if_neg h21, if_neg h22, if_neg h23, if_neg h30,
      if_neg h40, if_neg h41, if_neg h42, if_neg h43, if_neg h44, if_neg h50, if_neg h51, if_neg h60, if_neg h70, if_neg h71] at h
    cases h
  · rintro ⟨rfl, rfl, rfl⟩
    cases i with
    | rst | stat | ftClr | pqClr | pqPop | pqLen | tbBuild | hdClr | hdParse | hdSer | hdLen | ctBuild | decEos =>
      exact formN_eq_some_iff.2 ⟨rfl, rfl, rfl⟩
    | ftInc x => exact (formS_eq_some_iff (mk := .ftInc)).2 ⟨x, rfl, rfl, rfl⟩
    | ftRd x => exact (formS_eq_some_iff (mk := .ftRd)).2 ⟨x, rfl, rfl, rfl⟩
    | hdWr x => exact (formS_eq_some_iff (mk := .hdWr)).2 ⟨x, rfl, rfl, rfl⟩
    | ctLen x => exact (formS_eq_some_iff (mk := .ctLen)).2 ⟨x, rfl, rfl, rfl⟩
    | encSym x => exact (formS_eq_some_iff (mk := .encSym)).2 ⟨x, rfl, rfl, rfl⟩
    | decBit b => exact (formB_eq_some_iff (mk := .decBit)).2 ⟨b, rfl, rfl, rfl⟩
    | pqPush pay prio => exact (formP_eq_some_iff (mk := .pqPush)).2 ⟨pay, rfl, rfl⟩

end Sys2Proof.Machine
end

