-- ==== Sys2Proof/Laws/Flags.lean ====
section
/-! SUPPORT. The derived flags and the bits of the status word (10_state.md R34, R37, 48_system.md R242). -/

namespace Sys2Proof.Machine

theorem dmid_iff {s : State} : dmid s = true ↔ s.rootv = true ∧ (s.dnode ≠ s.root ∨ s.ddead = true) := by
  simp [dmid]

theorem deadBit_iff {s : State} : deadBit s = true ↔ s.rootv = true ∧ s.ddead = true := by
  simp [deadBit]

theorem rootLeaf_iff {s : State} : rootLeaf s = true ↔ s.rootv = true ∧ ∃ x, readNode s.tm s.root = some (.leaf x) := by
  unfold rootLeaf
  rcases readNode s.tm s.root with _ | ⟨x | ⟨z, o⟩⟩ <;> simp

/-- A word made of a byte below five single bits below 19 zeros, bit by bit. -/
theorem getLsbD_status (a b c d f : Bool) (e : BitVec 8) (i : Nat) :
    (0#19 ++ BitVec.ofBool a ++ BitVec.ofBool b ++ BitVec.ofBool c ++ BitVec.ofBool d ++ BitVec.ofBool f ++ e).getLsbD i =
      if i < 8 then e.getLsbD i else if i = 8 then f else if i = 9 then d else if i = 10 then c
      else if i = 11 then b else if i = 12 then a else false := by
  simp only [BitVec.getLsbD_append, BitVec.getLsbD_ofBool, BitVec.getLsbD_zero]
  split
  · rfl
  rcases (by omega : i = 8 ∨ i = 9 ∨ i = 10 ∨ i = 11 ∨ i = 12 ∨ 13 ≤ i) with rfl | rfl | rfl | rfl | rfl | h
  · simp
  · simp
  · simp
  · simp
  · simp
  · simp only [show ¬ i - 8 < 1 by omega, show ¬ i - 8 - 1 < 1 by omega, show ¬ i - 8 - 1 - 1 < 1 by omega,
      show ¬ i - 8 - 1 - 1 - 1 < 1 by omega, show ¬ i - 8 - 1 - 1 - 1 - 1 < 1 by omega, if_false]
    rw [if_neg (by omega), if_neg (by omega), if_neg (by omega), if_neg (by omega), if_neg (by omega)]

/-- Every bit of the status word (R37). -/
theorem statw_getLsbD (s : State) (i : Nat) :
    (statw s).getLsbD i =
      if i < 8 then s.err.getLsbD i else if i = 8 then s.rootv else if i = 9 then s.ctv else if i = 10 then dmid s
      else if i = 11 then deadBit s else if i = 12 then rootLeaf s else false :=
  getLsbD_status _ _ _ _ _ _ _

end Sys2Proof.Machine
end

