-- ==== Sys2Proof/Laws/Greedy.lean ====
section
/-! SUPPORT. The merge loop of `TB_BUILD` joins, at every step, the two first of the waiting nodes (42_tree_builder.md R132, R139, R140,
41_priority_queue.md R112): the loop's invariant, and that seeding establishes it. -/

namespace Sys2Proof.Machine

/-- The loop's invariant: the finished merges are greedy for `W`, and the queue lists exactly the waiting nodes, keyed by their
weights, in the order in which they are removed. -/
structure Merging (ft : SymTable Count) (b : Build) (W : Nat → Nat) : Prop where
  leaf : ∀ n x, b.tm[n]? = some (.leaf x) → W n = (symGet ft x).toNat
  node : ∀ n z o, b.tm[n]? = some (.internal z o) → W n = W z.toNat + W o.toNat
  greedy : ∀ m z o, b.tm[m]? = some (.internal z o) →
    waitingAt b.tm m z.toNat ∧ waitingAt b.tm m o.toNat ∧ removedBefore W z.toNat o.toNat ∧
    ∀ n, waitingAt b.tm m n → n = z.toNat ∨ n = o.toNat ∨ removedBefore W o.toNat n
  key : ∀ e ∈ b.pq, e.prio.toNat = W e.pay.toNat
  queued : ∀ n, waitingAt b.tm b.tm.length n ↔ ∃ e ∈ b.pq, e.pay.toNat = n
  sorted : b.pq.Pairwise (fun e f => removedBefore W e.pay.toNat f.pay.toNat)

/-- What an entry below the top says does not change when a node is added. -/
theorem takenBelow_append {tm l : List Node} {m n : Nat} (hm : m ≤ tm.length) :
    takenBelow (tm ++ l) m n ↔ takenBelow tm m n := by
  unfold takenBelow
  constructor
  · rintro ⟨j, z, o, hj, hr, h⟩
    exact ⟨j, z, o, hj, by rwa [List.getElem?_append_left (by omega)] at hr, h⟩
  · rintro ⟨j, z, o, hj, hr, h⟩
    exact ⟨j, z, o, hj, by rwa [List.getElem?_append_left (by omega)], h⟩

theorem waitingAt_append {tm l : List Node} {m n : Nat} (hm : m ≤ tm.length) : waitingAt (tm ++ l) m n ↔ waitingAt tm m n := by
  unfold waitingAt
  rw [takenBelow_append hm]

/-- Who waits after one merge: the others, and the new node. -/
theorem waitingAt_merge {tm : List Node} {z o : NodeId} {n : Nat} :
    waitingAt (tm ++ [.internal z o]) (tm.length + 1) n ↔
      (waitingAt tm tm.length n ∧ n ≠ z.toNat ∧ n ≠ o.toNat) ∨
      (n = tm.length ∧ ¬ takenBelow (tm ++ [.internal z o]) (tm.length + 1) tm.length) := by
  have htop : takenBelow (tm ++ [.internal z o]) (tm.length + 1) n ↔
      takenBelow tm tm.length n ∨ z.toNat = n ∨ o.toNat = n := by
    constructor
    · rintro ⟨j, z', o', hj, hr, h⟩
      rcases Nat.lt_succ_iff_lt_or_eq.1 hj with hj | rfl
      · exact .inl ⟨j, z', o', hj, by rwa [List.getElem?_append_left hj] at hr, h⟩
      · rw [List.getElem?_concat_length] at hr
        cases hr
        exact .inr h
    · rintro (⟨j, z', o', hj, hr, h⟩ | h)
      · exact ⟨j, z', o', by omega, by rwa [List.getElem?_append_left hj], h⟩
      · exact ⟨tm.length, z, o, by omega, List.getElem?_concat_length, h⟩
  by_cases hn : n = tm.length
  · subst hn
    simp [waitingAt]
  · simp only [waitingAt, htop, hn, false_and, or_false]
    constructor
    · rintro ⟨h1, h2⟩
      rw [not_or, not_or] at h2
      exact ⟨⟨by omega, h2.1⟩, fun e => h2.2.1 e.symm, fun e => h2.2.2 e.symm⟩
    · rintro ⟨⟨h1, h2⟩, h3, h4⟩
      exact ⟨by omega, by rintro (h | h | h); exacts [h2 h, h3 h.symm, h4 h.symm]⟩

/-- One merge keeps the invariant. -/
theorem merging_step {ft : SymTable Count} {tm : List Node} {e1 e2 : PQEntry} {q : List PQEntry} {W : Nat → Nat}
    (h : Merging ft ⟨tm, e1 :: e2 :: q⟩ W) (hlen : tm.length < 511) (hsum : e1.prio.toNat + e2.prio.toNat ≤ Config.cmax) :
    ∃ W', Merging ft
      ⟨tm ++ [.internal e1.pay e2.pay], pqInsert ⟨e1.prio + e2.prio, BitVec.ofNat 9 tm.length⟩ q⟩ W' := by
  obtain ⟨hl, hn, hg, hk, hq, hs⟩ := h
  have hid : (BitVec.ofNat 9 tm.length).toNat = tm.length := toNat_nodeId (by omega)
  have hmp : (e1.prio + e2.prio).toNat = e1.prio.toNat + e2.prio.toNat := by
    rw [BitVec.toNat_add]
    simp only [Config.cmax] at hsum
    exact Nat.mod_eq_of_lt (by omega)
  have hlt : ∀ e ∈ e1 :: e2 :: q, e.pay.toNat < tm.length := fun e he => ((hq _).2 ⟨e, he, rfl⟩).1
  have hchild : ∀ (m : Nat) (z o : NodeId), tm[m]? = some (.internal z o) → z.toNat < m ∧ o.toNat < m := fun m z o hm =>
    ⟨(hg m z o hm).1.1, (hg m z o hm).2.1.1⟩
  -- the weight of the new node
  obtain ⟨W', hW', hWm⟩ : ∃ W' : Nat → Nat, (∀ n, n < tm.length → W' n = W n) ∧
      W' tm.length = e1.prio.toNat + e2.prio.toNat :=
    ⟨fun n => if n < tm.length then W n else e1.prio.toNat + e2.prio.toNat, fun n hn => by simp [hn], by simp⟩
  have hWb : ∀ a c, a < tm.length → c < tm.length → (removedBefore W' a c ↔ removedBefore W a c) := by
    intro a c ha hc
    unfold removedBefore
    rw [hW' a ha, hW' c hc]
  have hs1 := List.pairwise_cons.1 hs
  have hs2 := List.pairwise_cons.1 hs1.2
  have hkey : ∀ e ∈ e1 :: e2 :: q, e.prio.toNat = W' e.pay.toNat := fun e he => by rw [hk e he, hW' _ (hlt e he)]
  have hnt : ¬ takenBelow (tm ++ [.internal e1.pay e2.pay]) (tm.length + 1) tm.length := by
    rintro ⟨j, z, o, hj, hr, hc⟩
    rcases Nat.lt_succ_iff_lt_or_eq.1 hj with hj | rfl
    · rw [List.getElem?_append_left hj] at hr
      have := hchild j z o hr
      omega
    · rw [List.getElem?_concat_length] at hr
      cases hr
      have h1 := hlt e1 (by simp)
      have h2 := hlt e2 (by simp)
      omega
  have hsq : QueueSorted q := by
    refine hs2.2.imp_of_mem ?_
    intro e f he hf hb
    rw [BitVec.le_def, hk e (by simp [he]), hk f (by simp [hf])]
    rcases hb with hb | hb <;> omega
  obtain ⟨l, r, hlr, hins, hle, hgt⟩ := pqInsert_split hsq ⟨e1.prio + e2.prio, BitVec.ofNat 9 tm.length⟩
  have hcase : ∀ {m : Nat} {v : Node}, (tm ++ [.internal e1.pay e2.pay])[m]? = some v →
      (m < tm.length ∧ tm[m]? = some v) ∨ (m = tm.length ∧ v = .internal e1.pay e2.pay) := by
    intro m v hv
    rcases Nat.lt_or_ge m tm.length with hm | hm
    · exact .inl ⟨hm, by rwa [List.getElem?_append_left hm] at hv⟩
    · have hm' : m = tm.length := by
        have := (List.getElem?_eq_some_iff.1 hv).1
        simp at this
        omega
      subst hm'
      rw [List.getElem?_concat_length] at hv
      exact .inr ⟨rfl, (Option.some.inj hv).symm⟩
  refine ⟨W', ?_, ?_, ?_, ?_, ?_, ?_⟩
  · intro n x hx
    rcases hcase hx with ⟨hm, hv⟩ | ⟨_, hv⟩
    · rw [hW' n hm, hl n x hv]
    · cases hv
  · intro n z o hx
    rcases hcase hx with ⟨hm, hv⟩ | ⟨rfl, hv⟩
    · have := hchild n z o hv
      rw [hW' n hm, hn n z o hv, hW' _ (by omega), hW' _ (by omega)]
    · cases hv
      rw [hWm, hkey e1 (by simp), hkey e2 (by simp)]
  · intro m z o hx
    rcases hcase hx with ⟨hm, hv⟩ | ⟨rfl, hv⟩
    · have hc := hchild m z o hv
      obtain ⟨g1, g2, g3, g4⟩ := hg m z o hv
      simp only [waitingAt_append hm.le]
      refine ⟨g1, g2, (hWb _ _ (by omega) (by omega)).2 g3, fun n hn => ?_⟩
      rcases g4 n hn with h | h | h
      · exact .inl h
      · exact .inr (.inl h)
      · exact .inr (.inr ((hWb _ _ (by omega) (by have := hn.1; omega)).2 h))
    · cases hv
      simp only [waitingAt_append (le_refl tm.length)]
      refine ⟨(hq _).2 ⟨e1, by simp, rfl⟩, (hq _).2 ⟨e2, by simp, rfl⟩,
        (hWb _ _ (hlt e1 (by simp)) (hlt e2 (by simp))).2 (hs1.1 e2 (by simp)), fun n hn => ?_⟩
      obtain ⟨f, hf, rfl⟩ := (hq n).1 hn
      simp only [List.mem_cons] at hf
      rcases hf with rfl | rfl | hf
      · exact .inl rfl
      · exact .inr (.inl rfl)
      · exact .inr (.inr ((hWb _ _ (hlt e2 (by simp)) (hlt f (by simp [hf]))).2 (hs2.1 f hf)))
  · intro e he
    rcases mem_pqInsert.1 he with rfl | he
    · simp only [hid, hmp, hWm]
    · exact hkey e (by simp [he])
  · intro n
    simp only [List.length_append, List.length_singleton]
    rw [waitingAt_merge, hq]
    constructor
    · rintro (⟨⟨e, he, rfl⟩, h1, h2⟩ | ⟨rfl, _⟩)
      · simp only [List.mem_cons] at he
        rcases he with rfl | rfl | he
        · exact absurd rfl h1
        · exact absurd rfl h2
        · exact ⟨e, mem_pqInsert.2 (.inr he), rfl⟩
      · exact ⟨_, mem_pqInsert.2 (.inl rfl), hid⟩
    · rintro ⟨e, he, rfl⟩
      rcases mem_pqInsert.1 he with rfl | he
      · exact .inr ⟨hid, hnt⟩
      · refine .inl ⟨⟨e, by simp [he], rfl⟩, ?_, ?_⟩
        · intro heq
          have := hs1.1 e (by simp [he])
          rw [heq] at this
          unfold removedBefore at this
          omega
        · intro heq
          have := hs2.1 e he
          rw [heq] at this
          unfold removedBefore at this
          omega
  · show List.Pairwise _ (pqInsert _ q)
    rw [hins]
    subst hlr
    have hp : (l ++ r).Pairwise (fun e f => removedBefore W' e.pay.toNat f.pay.toNat) :=
      hs2.2.imp_of_mem fun he hf hb => (hWb _ _ (hlt _ (by simp [List.mem_append.1 he])) (hlt _ (by simp [List.mem_append.1 hf]))).2 hb
    rw [List.pairwise_append] at hp ⊢
    refine ⟨hp.1, List.pairwise_cons.2 ⟨?_, hp.2.1⟩, ?_⟩
    · intro f hf
      have h1 := BitVec.lt_def.1 (hgt f hf)
      left
      simp only [hid, hWm]
      rw [← hkey f (by simp [hf])]
      simpa [hmp] using h1
    · intro e he f hf
      rcases List.mem_cons.1 hf with rfl | hf
      · have h1 := BitVec.le_def.1 (hle e he)
        have h2 := hlt e (by simp [he])
        simp only [hmp] at h1
        have h3 := hkey e (by simp [he])
        unfold removedBefore
        simp only [hid, hWm]
        omega
      · exact hp.2.2 e he f hf

/-- The merge loop keeps the invariant (R132). -/
theorem merging_loop {ft : SymTable Count} {k : Nat} {b b' : Build} {W : Nat → Nat} (h : Merging ft b W)
    (hm : merge blockTieBreak k b = .ok b') : ∃ W', Merging ft b' W' := by
  induction k generalizing b W with
  | zero => obtain rfl : b = b' := by simpa [merge] using hm
            exact ⟨W, h⟩
  | succ k ih =>
    obtain ⟨tm, q⟩ := b
    match q with
    | [] => obtain rfl : (⟨tm, []⟩ : Build) = b' := by simpa [merge] using hm
            exact ⟨W, h⟩
    | [e] => obtain rfl : (⟨tm, [e]⟩ : Build) = b' := by simpa [merge] using hm
             exact ⟨W, h⟩
    | e1 :: e2 :: q =>
      simp only [merge, pqPop_cons] at hm
      split at hm
      · cases hm
      rename_i hsum
      obtain ⟨⟨n, tm1⟩, ha, hm⟩ := bind_ok_iff.1 hm
      obtain ⟨hlt, rfl, rfl⟩ := alloc_ok_iff.1 ha
      obtain ⟨W1, h1⟩ := merging_step h hlt (by omega)
      exact ih h1 hm

/-- One seed keeps the invariant; there is no Internal node yet (R133). -/
theorem merging_seed {ft : SymTable Count} {xs : List Byte} {b b' : Build} {W : Nat → Nat} (h : Merging ft b W)
    (hleaf : ∀ v ∈ b.tm, ∃ x, v = .leaf x) (hseed : seed blockTieBreak ft xs b = .ok b') : ∃ W', Merging ft b' W' := by
  induction xs generalizing b W with
  | nil => obtain rfl : b = b' := by simpa [seed] using hseed
           exact ⟨W, h⟩
  | cons x xs ih =>
    simp only [seed] at hseed
    split at hseed
    · exact ih h hleaf hseed
    obtain ⟨⟨n, tm1⟩, ha, hseed⟩ := bind_ok_iff.1 hseed
    obtain ⟨hlt, rfl, rfl⟩ := alloc_ok_iff.1 ha
    obtain ⟨tm, q⟩ := b
    have hid : (BitVec.ofNat 9 tm.length).toNat = tm.length := toNat_nodeId (by simp only at hlt; omega)
    have hno : ∀ {m : Nat} {z o : NodeId}, (tm ++ [Node.leaf x])[m]? ≠ some (.internal z o) := by
      intro m z o hm
      have := List.mem_of_getElem? hm
      rcases List.mem_append.1 this with h1 | h1
      · obtain ⟨y, hy⟩ := hleaf _ h1; cases hy
      · simp at h1
    have hnone : ∀ {m : Nat} {z o : NodeId}, tm[m]? ≠ some (.internal z o) := by
      intro m z o hm
      obtain ⟨y, hy⟩ := hleaf _ (List.mem_of_getElem? hm); cases hy
    have hw : ∀ {l : List Node} {m n : Nat}, (∀ (m : Nat) (z o : NodeId), l[m]? ≠ some (.internal z o)) →
        (waitingAt l m n ↔ n < m) := by
      intro l m n hl
      refine ⟨fun hw => hw.1, fun hw => ⟨hw, ?_⟩⟩
      rintro ⟨j, z, o, _, hr, _⟩
      exact hl j z o hr
    obtain ⟨hl, _, _, hk, hq, hs⟩ := h
    have hlt' : ∀ e ∈ q, e.pay.toNat < tm.length := fun e he => ((hq _).2 ⟨e, he, rfl⟩).1
    obtain ⟨W', hW', hWm⟩ : ∃ W' : Nat → Nat, (∀ n, n < tm.length → W' n = W n) ∧ W' tm.length = (symGet ft x).toNat :=
      ⟨fun n => if n < tm.length then W n else (symGet ft x).toNat, fun n hn => by simp [hn], by simp⟩
    have hWb : ∀ a c, a < tm.length → c < tm.length → (removedBefore W' a c ↔ removedBefore W a c) := by
      intro a c ha hc
      unfold removedBefore
      rw [hW' a ha, hW' c hc]
    have hkey : ∀ e ∈ q, e.prio.toNat = W' e.pay.toNat := fun e he => by rw [hk e he, hW' _ (hlt' e he)]
    have hsq : QueueSorted q := by
      refine hs.imp_of_mem ?_
      intro e f he hf hb
      rw [BitVec.le_def, hk e he, hk f hf]
      rcases hb with hb | hb <;> omega
    obtain ⟨l, r, hlr, hins, hle, hgt⟩ := pqInsert_split hsq ⟨symGet ft x, BitVec.ofNat 9 tm.length⟩
    refine ih (W := W') ⟨?_, fun n z o hx => absurd hx hno, fun m z o hx => absurd hx hno, ?_, ?_, ?_⟩ ?_ hseed
    · intro n y hy
      rcases Nat.lt_or_ge n tm.length with hn | hn
      · rw [List.getElem?_append_left hn] at hy
        rw [hW' n hn, hl n y hy]
      · have hn' : n = tm.length := by
          have := (List.getElem?_eq_some_iff.1 hy).1
          simp at this
          omega
        subst hn'
        rw [List.getElem?_concat_length] at hy
        cases hy
        exact hWm
    · intro e he
      rcases mem_pqInsert.1 he with rfl | he
      · simp only [hid, hWm]
      · exact hkey e he
    · intro n
      simp only [List.length_append, List.length_singleton]
      rw [hw (fun m z o => hno)]
      constructor
      · intro hn
        rcases Nat.lt_succ_iff_lt_or_eq.1 hn with hn | rfl
        · obtain ⟨e, he, hen⟩ := (hq n).1 ((hw (fun m z o => hnone)).2 hn)
          exact ⟨e, mem_pqInsert.2 (.inr he), hen⟩
        · exact ⟨_, mem_pqInsert.2 (.inl rfl), hid⟩
      · rintro ⟨e, he, rfl⟩
        rcases mem_pqInsert.1 he with rfl | he
        · simp only [hid]; omega
        · have := hlt' e he; omega
    · show List.Pairwise _ (pqInsert _ q)
      rw [hins]
      subst hlr
      have hp : (l ++ r).Pairwise (fun e f => removedBefore W' e.pay.toNat f.pay.toNat) :=
        hs.imp_of_mem fun he hf hb => (hWb _ _ (hlt' _ he) (hlt' _ hf)).2 hb
      rw [List.pairwise_append] at hp ⊢
      refine ⟨hp.1, List.pairwise_cons.2 ⟨?_, hp.2.1⟩, ?_⟩
      · intro f hf
        left
        simp only [hid, hWm]
        rw [← hkey f (by simp [hf])]
        exact BitVec.lt_def.1 (hgt f hf)
      · intro e he f hf
        rcases List.mem_cons.1 hf with rfl | hf
        · have h1 := BitVec.le_def.1 (hle e he)
          have h2 := hlt' e (by simp [he])
          have h3 := hkey e (by simp [he])
          simp only at h1 h2
          unfold removedBefore
          simp only [hid, hWm]
          omega
        · exact hp.2.2 e he f hf
    · intro v hv
      rcases List.mem_append.1 hv with hv | hv
      · exact hleaf v hv
      · exact ⟨x, by simpa using hv⟩

/-- The tree that `buildTree` makes is the greedy one. -/
theorem buildTree_greedy {ft : SymTable Count} {b : Build} {r : NodeId} (h : buildTree blockTieBreak ft = .ok (b, r)) : GreedyMerges ft b.tm := by
  unfold buildTree at h
  split at h
  · cases h
  obtain ⟨b0, hs, h⟩ := bind_ok_iff.1 h
  obtain ⟨b1, hm, h⟩ := bind_ok_iff.1 h
  obtain ⟨W0, h0⟩ := merging_seed (W := fun _ => 0) (b := ⟨[], []⟩)
    ⟨by simp, by simp, by simp, by simp, fun n => by simp [waitingAt], List.Pairwise.nil⟩ (by simp) hs
  obtain ⟨W1, h1⟩ := merging_loop h0 hm
  obtain rfl : b1 = b := by
    split at h
    · cases h
    · simp only [Except.ok.injEq, Prod.mk.injEq] at h; exact h.1
  exact ⟨W1, h1.leaf, h1.node, h1.greedy⟩

end Sys2Proof.Machine
end

