-- ==== Sys2Proof/Laws/Huffman.lean ====
section
/-! SUPPORT. The greedy construction puts a lower count no higher in the tree than a greater one, under any tie-break (49_properties.md R253,
R255). Of two nodes the lighter is removed from the queue in an earlier pair, so its parent is lighter too; going up both paths, the
lighter node meets the root last. -/

namespace Sys2Proof.Machine

variable {ft : SymTable Count}

/-- A node weighs no more than the whole tree (42_tree_builder.md R140). -/
theorem subtree_weight_le {t u : CodeTree} {p : List Digit} (h : subtree t p = some u) : u.weight ft ≤ t.weight ft := by
  induction p generalizing t with
  | nil => simp only [subtree, Option.some.injEq] at h; rw [h]
  | cons b p ih =>
    cases t with
    | leaf x => cases h
    | internal z o =>
      have := ih h
      rw [weight_internal]
      cases b <;> simp only [Bool.false_eq_true, if_false, if_true] at this <;> omega

/-- The children of a node of the tree are among its pairs of siblings. -/
theorem mem_siblings {t z o : CodeTree} {p : List Digit} (h : subtree t p = some (.internal z o)) :
    (z.weight ft, o.weight ft) ∈ t.siblings ft := by
  induction p generalizing t with
  | nil => simp only [subtree, Option.some.injEq] at h; rw [h]; exact List.mem_cons_self
  | cons b p ih =>
    cases t with
    | leaf x => cases h
    | internal z' o' =>
      refine List.mem_cons_of_mem _ (List.mem_append.2 ?_)
      cases b
      · exact .inl (ih h)
      · exact .inr (ih h)

/-- The children of two different nodes are two pairs of siblings, and so one pair is removed before the other. -/
theorem siblings_apart {t z o z' o' : CodeTree} {p q : List Digit} (ha : (t.siblings ft).Pairwise Apart)
    (hp : subtree t p = some (.internal z o)) (hq : subtree t q = some (.internal z' o')) (hne : p ≠ q) :
    Apart (z.weight ft, o.weight ft) (z'.weight ft, o'.weight ft) := by
  induction t generalizing p q with
  | leaf x => cases p <;> simp [subtree] at hp
  | internal tz tone ihz iho =>
    obtain ⟨h1, h2⟩ := List.pairwise_cons.1 ha
    obtain ⟨hz, ho, hzo⟩ := List.pairwise_append.1 h2
    have hroot : ∀ {b : Digit} {r : List Digit} {u v : CodeTree}, subtree (if b then tone else tz) r = some (.internal u v) →
        (u.weight ft, v.weight ft) ∈ tz.siblings ft ++ tone.siblings ft := by
      intro b r u v h
      cases b
      · exact List.mem_append_left _ (mem_siblings h)
      · exact List.mem_append_right _ (mem_siblings h)
    match p, q with
    | [], [] => exact absurd rfl hne
    | [], b :: q =>
      simp only [subtree, Option.some.injEq, CodeTree.internal.injEq] at hp
      obtain ⟨rfl, rfl⟩ := hp
      exact h1 _ (hroot hq)
    | b :: p, [] =>
      simp only [subtree, Option.some.injEq, CodeTree.internal.injEq] at hq
      obtain ⟨rfl, rfl⟩ := hq
      exact (h1 _ (hroot hp)).symm
    | false :: p, false :: q => exact ihz hz hp hq (by simpa using hne)
    | true :: p, true :: q => exact iho ho hp hq (by simpa using hne)
    | false :: p, true :: q => exact hzo _ (mem_siblings hp) _ (mem_siblings hq)
    | true :: p, false :: q => exact (hzo _ (mem_siblings hq) _ (mem_siblings hp)).symm

/-- The parent of a node that is not the root. -/
theorem subtree_parent {t u : CodeTree} {p : List Digit} {b : Digit} (h : subtree t (p ++ [b]) = some u) :
    ∃ z o, subtree t p = some (.internal z o) ∧ u = if b then o else z := by
  rw [subtree_append] at h
  obtain ⟨v, hv, h⟩ := Option.bind_eq_some_iff.1 h
  cases v with
  | leaf x => simp [subtree] at h
  | internal z o => exact ⟨z, o, hv, by simpa [subtree, eq_comm] using h⟩

/-- Of two nodes whose pairs of siblings are removed one after another, the lighter stands no higher. -/
theorem lighter_not_higher {t u v : CodeTree} {p q : List Digit} (ha : (t.siblings ft).Pairwise Apart)
    (hp : subtree t p = some u) (hq : subtree t q = some v) (hlt : u.weight ft < v.weight ft) : q.length ≤ p.length := by
  induction p using List.reverseRecOn generalizing q u v with
  | nil =>
    simp only [subtree, Option.some.injEq] at hp
    have := subtree_weight_le (ft := ft) hq
    rw [hp] at this
    omega
  | append_singleton p b ih =>
    rcases List.eq_nil_or_concat q with rfl | ⟨q, c, rfl⟩
    · simp
    rw [List.concat_eq_append] at hq ⊢
    obtain ⟨z, o, hu, rfl⟩ := subtree_parent hp
    obtain ⟨z', o', hv, rfl⟩ := subtree_parent hq
    by_cases hpq : p = q
    · simp [hpq]
    have hap := siblings_apart ha hu hv hpq
    have hw : (CodeTree.internal z o).weight ft < (CodeTree.internal z' o').weight ft := by
      rw [weight_internal, weight_internal]
      unfold Apart at hap
      simp only at hap
      cases b <;> cases c <;> simp only [Bool.false_eq_true, if_false, if_true] at hlt <;> omega
    have := ih hu hv hw
    simpa using this

/-- In the tree that `TB_BUILD` makes, a symbol of a lower count stands no higher than one of a greater count (R253, R255). -/
theorem built_monotone {tb : TieBreak} {b : Build} {r : NodeId} {t : CodeTree} (hB : Built tb ft b r t) {x y : Byte} {p q : List Digit}
    (hx : (p, x) ∈ t.paths) (hy : (q, y) ∈ t.paths) (hlt : symGet ft x < symGet ft y) : q.length ≤ p.length :=
  lighter_not_higher hB.apart (subtree_leaf_iff.2 hx) (subtree_leaf_iff.2 hy)
    (by simpa [CodeTree.weight, CodeTree.leafSyms] using BitVec.lt_def.1 hlt)

end Sys2Proof.Machine
end

