-- ==== Sys2Proof/Laws/PerInstr.lean ====
section
/-! SUPPORT. Laws of every command as syntax, one lemma per constructor. Family `Legal`: the word that the encoder makes of a command
passes the four checks of 30_encoding.md R73. -/

namespace Sys2Proof.Laws.Legal

open Sys2Proof.Machine

/-- The encoded command is a legal word (R71, R73). -/
def Statement (i : Instr) : Prop := (RawCmd.ofWord (encode i)).wellFormed = true

/-- A legal word from its parts. -/
theorem of_fields {i : Instr} (h : RawCmd.wellFormed ⟨i.opcode, 0#8, i.aOperand, i.dOperand⟩ = true) : Statement i := by
  unfold Statement encode
  rw [ofWord_cmdWord]
  exact h

theorem rst : Statement .rst := of_fields (by decide)
theorem stat : Statement .stat := of_fields (by decide)
theorem ftClr : Statement .ftClr := of_fields (by decide)
theorem ftInc (x : Byte) : Statement (.ftInc x) := of_fields (by revert x; decide +kernel)
theorem ftRd (x : Byte) : Statement (.ftRd x) := of_fields (by revert x; decide +kernel)
theorem pqClr : Statement .pqClr := of_fields (by decide)
theorem pqPush (pay : NodeId) (prio : Count) : Statement (.pqPush pay prio) := of_fields (by
  have h : (0#7 ++ pay).toNat < 512 := by
    have := pay.isLt
    rw [BitVec.toNat_append]
    simpa using this
  have hf : formatOf 0x21#8 = some .p := by decide
  simp [RawCmd.wellFormed, RawCmd.opKnown, RawCmd.rsvZero, RawCmd.aInRange, RawCmd.dInRange, hf, Instr.opcode, Instr.aOperand, h])
theorem pqPop : Statement .pqPop := of_fields (by decide)
theorem pqLen : Statement .pqLen := of_fields (by decide)
theorem tbBuild : Statement .tbBuild := of_fields (by decide)
theorem hdClr : Statement .hdClr := of_fields (by decide)
theorem hdWr (x : Byte) : Statement (.hdWr x) := of_fields (by revert x; decide +kernel)
theorem hdParse : Statement .hdParse := of_fields (by decide)
theorem hdSer : Statement .hdSer := of_fields (by decide)
theorem hdLen : Statement .hdLen := of_fields (by decide)
theorem ctBuild : Statement .ctBuild := of_fields (by decide)
theorem ctLen (x : Byte) : Statement (.ctLen x) := of_fields (by revert x; decide +kernel)
theorem encSym (x : Byte) : Statement (.encSym x) := of_fields (by revert x; decide +kernel)
theorem decBit (b : Digit) : Statement (.decBit b) := of_fields (by revert b; decide)
theorem decEos : Statement .decEos := of_fields (by decide)

end Sys2Proof.Laws.Legal
end

