-- ==== Sys2Proof/Laws/Sequences.lean ====
section
/-! SUPPORT. Command sequences: a command does not look at the host's later inputs; how a run goes on and where it stops, so that sending
the words of a sequence is performing its commands (47_sequences.md R220, R232); and what the repeated parts of the sequences do. -/

namespace Sys2Proof.Machine

/-! ## A command does not read the pending inputs -/

/-- An outcome with the pending inputs replaced. -/
def withInput (l : List PortEvent) : Result → Result
  | .next t => .next { t with input := l }
  | .fault f => .fault f
  | .refused r => .refused r

@[simp] theorem withInput_next (l : List PortEvent) (t : State) : withInput l (.next t) = .next { t with input := l } := rfl
@[simp] theorem withInput_fault (l : List PortEvent) (f : Fault) : withInput l (.fault f) = .fault f := rfl
@[simp] theorem withInput_succeed (l : List PortEvent) (a : BitVec 16) (d : BitVec 32) (s : State) :
    withInput l (succeed a d s) = succeed a d { s with input := l } := rfl
@[simp] theorem withInput_raise (l : List PortEvent) (k : ErrKind) (s : State) :
    withInput l (raise k s) = raise k { s with input := l } := rfl

theorem withInput_whenUnlocked (l : List PortEvent) (s : State) {b c : Result} (h : withInput l b = c) :
    withInput l (whenUnlocked s b) = whenUnlocked { s with input := l } c := by
  subst h; unfold whenUnlocked; split <;> rfl

theorem withInput_requireFlag (l : List PortEvent) (f : Bool) (s : State) {b c : Result} (h : withInput l b = c) :
    withInput l (requireFlag f s b) = requireFlag f { s with input := l } c := by
  subst h; cases f <;> rfl

/-- Replacing the pending inputs before a command or after it is the same. -/
theorem exec_withInput (i : Instr) (s : State) (l : List PortEvent) : exec i { s with input := l } = withInput l (exec i s) := by
  symm
  cases i with
  | rst | stat => rfl
  | ftClr | ftRd | pqClr | pqLen | hdClr | hdLen => exact withInput_whenUnlocked l s rfl
  | ftInc x =>
    refine withInput_whenUnlocked l s ?_
    dsimp only
    split <;> rfl
  | pqPush pay prio =>
    refine withInput_whenUnlocked l s ?_
    dsimp only
    split <;> rfl
  | pqPop =>
    refine withInput_whenUnlocked l s ?_
    dsimp only
    cases pqPop s.pq <;> rfl
  | tbBuild =>
    refine withInput_whenUnlocked l s ?_
    dsimp only
    cases buildTree blockTieBreak s.ft <;> rfl
  | hdWr x =>
    refine withInput_whenUnlocked l s ?_
    dsimp only
    split <;> rfl
  | hdParse =>
    refine withInput_whenUnlocked l s ?_
    dsimp only
    cases parseHeader s.hb <;> rfl
  | hdSer =>
    refine withInput_whenUnlocked l s (withInput_requireFlag l _ s ?_)
    rw [show State.tree { s with input := l } = s.tree from rfl]
    cases s.tree <;> rfl
  | ctBuild =>
    refine withInput_whenUnlocked l s (withInput_requireFlag l _ s ?_)
    rw [show State.tree { s with input := l } = s.tree from rfl]
    rcases s.tree with _ | t
    · rfl
    · dsimp only
      cases buildTable t <;> rfl
  | ctLen x =>
    refine withInput_whenUnlocked l s (withInput_requireFlag l _ s ?_)
    dsimp only
    cases symGet s.ct x <;> rfl
  | encSym x =>
    refine withInput_whenUnlocked l s (withInput_requireFlag l _ s ?_)
    dsimp only
    cases symGet s.ct x <;> rfl
  | decBit b =>
    refine withInput_whenUnlocked l s (withInput_requireFlag l _ s ?_)
    dsimp only [followEdge]
    split
    · rfl
    rcases readNode s.tm s.root with _ | ⟨x | ⟨z, o⟩⟩
    · rfl
    · cases b <;> rfl
    rcases readNode s.tm s.dnode with _ | ⟨x | ⟨z, o⟩⟩
    · rfl
    · rfl
    dsimp only
    rcases readNode s.tm (if b then o else z) with _ | ⟨x | ⟨z', o'⟩⟩ <;> rfl
  | decEos =>
    refine withInput_whenUnlocked l s (withInput_requireFlag l _ s ?_)
    dsimp only
    split <;> rfl

/-- A command leaves the pending inputs as they are. -/
theorem exec_input {i : Instr} {s t : State} (h : exec i s = .next t) : t.input = s.input := by
  have := exec_withInput i s s.input
  rw [show ({ s with input := s.input } : State) = s from rfl, h] at this
  simpa using congrArg (fun r : Result => match r with | .next u => u.input | _ => t.input) this

/-! ## One response and its status -/

/-- The failure kind of the response just given (R220). -/
@[simp] theorem lastFailure_reply (st : BitVec 8) (a : BitVec 16) (d : BitVec 32) (s : State) :
    (reply st a d s).lastFailure = if st = stOk then none else some st := by
  simp [State.lastFailure, reply]

/-- The failure kind of the last of some responses (R220). -/
theorem lastFailure_of_rspout {s : State} {rs : List RspWord} {r : RspWord} (h : s.rspout = rs ++ [r]) :
    s.lastFailure = if statusField r = stOk then none else some (statusField r) := by
  simp [State.lastFailure, h]

/-! ## The host's run -/

section

variable {perform : Instr → State → Result} {i : Instr} {is js : List Instr} {s t : State} {k : BitVec 8}

@[simp] theorem hostRun_nil : hostRun perform [] s = .next ⟨s, none⟩ := rfl

/-- After a response of `ST_OK` the host sends the next command (R220). -/
theorem hostRun_ok (h : perform i s = .next t) (hl : t.lastFailure = none) : hostRun perform (i :: is) s = hostRun perform is t := by
  rw [hostRun, h]; simp only [hl]

/-- After any other response it stops (R220, R232). -/
theorem hostRun_stop (h : perform i s = .next t) (hl : t.lastFailure = some k) : hostRun perform (i :: is) s = .next ⟨t, some k⟩ := by
  rw [hostRun, h]; simp only [hl]

/-- A run goes on behind a part that succeeded. -/
theorem hostRun_append (h : hostRun perform is s = .next ⟨t, none⟩) : hostRun perform (is ++ js) s = hostRun perform js t := by
  induction is generalizing s with
  | nil => simp at h; simp [h]
  | cons i is ih =>
    rw [hostRun] at h
    rw [List.cons_append, hostRun]
    cases hp : perform i s with
    | next u =>
      simp only [hp] at h ⊢
      cases hl : u.lastFailure with
      | none => simp only [hl] at h ⊢; exact ih h
      | some k => simp [hl] at h
    | fault f => simp [hp] at h
    | refused r => simp [hp] at h

/-- Nothing is sent behind a part that failed (R220). -/
theorem hostRun_append_stop (h : hostRun perform is s = .next ⟨t, some k⟩) : hostRun perform (is ++ js) s = .next ⟨t, some k⟩ := by
  induction is generalizing s with
  | nil => simp at h
  | cons i is ih =>
    rw [hostRun] at h
    rw [List.cons_append, hostRun]
    cases hp : perform i s with
    | next u =>
      simp only [hp] at h ⊢
      cases hl : u.lastFailure with
      | none => simp only [hl] at h ⊢; exact ih h
      | some j => simpa [hl] using h
    | fault f => simp [hp] at h
    | refused r => simp [hp] at h

/-- Two ways to send the commands of a sequence that agree on them run it alike. -/
theorem hostRun_congr {perform' : Instr → State → Result} (h : ∀ i ∈ is, ∀ s, perform i s = perform' i s) :
    hostRun perform is s = hostRun perform' is s := by
  induction is generalizing s with
  | nil => rfl
  | cons i is ih =>
    rw [hostRun, hostRun, h i (by simp)]
    cases perform' i s with
    | next t => cases ht : t.lastFailure <;> simp [ht, ih fun j hj => h j (by simp [hj])]
    | fault f => rfl
    | refused r => rfl

end

/-- To present the word of a command and step is to perform the command (R60, R63 of 20_memory.md), once `encode` is known to be undone by
`decode`. -/
theorem sendCommand_eq {i : Instr} (hdec : decode (encode i) = some i) (s : State) : sendCommand i s = exec i s :=
  step_legal (rest := s.input) rfl hdec

/-- A run on the block is performing the commands one after another (R220). -/
theorem runSequence_eq (hdec : ∀ i, decode (encode i) = some i) (is : List Instr) (s : State) : runSequence is s = performAll is s :=
  hostRun_congr fun i _ => sendCommand_eq (hdec i)

/-- A tie-break shows only where a tree is built (49_properties.md R255). -/
theorem hostRun_execWith {tb : TieBreak} {is : List Instr} {s : State} (h : .tbBuild ∉ is) :
    hostRun (execWith tb) is s = performAll is s :=
  hostRun_congr fun i hi s => if_neg (by rintro rfl; exact h hi)

section

variable {i : Instr} {is js : List Instr} {s t : State} {k : BitVec 8}

theorem performAll_cons (h : exec i s = .next t) (hl : t.lastFailure = none) : performAll (i :: is) s = performAll is t :=
  hostRun_ok h hl

theorem performAll_stop (h : exec i s = .next t) (hl : t.lastFailure = some k) : performAll (i :: is) s = .next ⟨t, some k⟩ :=
  hostRun_stop h hl

theorem performAll_append (h : performAll is s = .next ⟨t, none⟩) : performAll (is ++ js) s = performAll js t := hostRun_append h

theorem performAll_append_stop (h : performAll is s = .next ⟨t, some k⟩) : performAll (is ++ js) s = .next ⟨t, some k⟩ :=
  hostRun_append_stop h

end

/-- A command that goes on returns one response, and leaves the pending inputs (30_encoding.md R75). -/
theorem exec_responds {i : Instr} {s t : State} (h : exec i s = .next t) : ∃ r, t.rspout = s.rspout ++ [r] ∧ t.input = s.input := by
  rcases exec_next_iff.1 h with ⟨_, ⟨k, _, rfl⟩ | ⟨u, a, d, hs, rfl⟩⟩ | ⟨_, _, rfl⟩
  · exact ⟨_, rfl, rfl⟩
  · obtain ⟨h1, h2⟩ := hs.ports
    exact ⟨_, by rw [reply_rspout, h1], by rw [reply_input, h2]⟩
  · exact ⟨_, rfl, rfl⟩

/-- One more step of a machine. -/
theorem run_succ (M : Host.Core) (k : Nat) (s : M.State) :
    M.run (k + 1) s =
      match M.step s with
      | .next t => M.run k t
      | .fault f => .fault f
      | .refused r => .refused r := rfl

/-- One more step of this machine that goes on. -/
theorem core_run_next {k : Nat} {s t : State} (h : step s = .next t) : Sys2Proof.core.run (k + 1) s = Sys2Proof.core.run k t := by
  refine (run_succ Sys2Proof.core k s).trans ?_
  rw [show Sys2Proof.core.step s = .next t from h]

/-! ## The repeated parts of the host sequences -/

/-- The response of a command that succeeds with no result (R76, R77). -/
def okRsp : RspWord := rspWord stOk 0#16 0#32

/-- `HD_WR` for each byte of a string that fits (R158, R224). -/
theorem hdWr_run {h : List Byte} {s : State} (herr : s.err = 0#8) (hfit : s.hb.length + h.length ≤ 1022) :
    performAll (h.map .hdWr) s = .next ⟨{ s with hb := s.hb ++ h, rspout := s.rspout ++ List.replicate h.length okRsp }, none⟩ := by
  induction h generalizing s with
  | nil => simp [performAll]
  | cons x h ih =>
    simp only [List.length_cons] at hfit
    have hx : exec (.hdWr x) s = .next (reply stOk 0#16 0#32 { s with hb := s.hb ++ [x] }) := by
      show execHdWr x s = _
      rw [execHdWr, whenUnlocked_open herr, if_neg (by simp; omega)]
      rfl
    rw [List.map_cons, performAll_cons hx (by simp), ih (by exact herr) (by simp; omega)]
    simp [reply, okRsp, List.replicate_succ]

/-- `HD_LOAD` (R224). -/
theorem hdLoad_run {h : List Byte} {s : State} (herr : s.err = 0#8) (hfit : h.length ≤ 1022) :
    performAll (hdLoad h) s = .next ⟨{ s with hb := h, rspout := s.rspout ++ List.replicate (h.length + 1) okRsp }, none⟩ := by
  have hx : exec .hdClr s = .next (reply stOk 0#16 0#32 { s with hb := [] }) := by
    show execHdClr s = _
    rw [execHdClr, whenUnlocked_open herr]
    rfl
  rw [hdLoad, performAll_cons hx (by simp), hdWr_run (by exact herr) (by simpa using hfit)]
  simp [reply, okRsp, List.replicate_succ]

/-- The counts after `FT_INC` for each byte of a string. -/
def countUp (ft : SymTable Count) (bytes : List Byte) : SymTable Count :=
  bytes.foldl (fun ft x => symSet ft x (symGet ft x + 1#32)) ft

/-- `FT_INC` for each byte, while no count can overflow (R100, R102). -/
theorem ftInc_run {bytes : List Byte} {s : State} (herr : s.err = 0#8)
    (hfit : ∀ x, (symGet s.ft x).toNat + bytes.count x ≤ 4294967295) :
    performAll (bytes.map .ftInc) s =
      .next ⟨{ s with ft := countUp s.ft bytes, rspout := s.rspout ++ List.replicate bytes.length okRsp }, none⟩ ∧
    ∀ x, (symGet (countUp s.ft bytes) x).toNat = (symGet s.ft x).toNat + bytes.count x := by
  induction bytes generalizing s with
  | nil => simp [performAll, countUp]
  | cons y bytes ih =>
    have hy := hfit y
    rw [List.count_cons_self] at hy
    have hx : exec (.ftInc y) s =
        .next (reply stOk 0#16 0#32 { s with ft := symSet s.ft y (symGet s.ft y + 1#32) }) := by
      show execFtInc y s = _
      rw [execFtInc, whenUnlocked_open herr, if_neg (by simp; omega)]
      rfl
    have hget : ∀ x, (symGet (symSet s.ft y (symGet s.ft y + 1#32)) x).toNat =
        (symGet s.ft x).toNat + if x = y then 1 else 0 := by
      intro x
      by_cases hxy : x = y
      · subst hxy
        rw [symGet_symSet_self, BitVec.toNat_add]
        simp only [if_true, BitVec.toNat_ofNat]
        omega
      · rw [symGet_symSet_ne s.ft _ hxy]
        simp [hxy]
    obtain ⟨h1, h2⟩ := ih (s := reply stOk 0#16 0#32 { s with ft := symSet s.ft y (symGet s.ft y + 1#32) }) (by exact herr)
      (fun x => by
        have := hfit x
        rw [reply_ft]
        simp only [hget]
        rw [List.count_cons] at this
        by_cases hxy : x = y
        · subst hxy; simp at this ⊢; omega
        · rw [if_neg (by simpa using fun h => hxy h.symm)] at this
          simp only [hxy, if_false]
          omega)
    refine ⟨?_, fun x => ?_⟩
    · rw [List.map_cons, performAll_cons hx (by simp), h1]
      simp [reply, okRsp, List.replicate_succ, countUp]
    · have := h2 x
      simp only [reply_ft] at this
      rw [show countUp s.ft (y :: bytes) = countUp (symSet s.ft y (symGet s.ft y + 1#32)) bytes from rfl, this, hget,
        List.count_cons]
      by_cases hxy : x = y
      · subst hxy; simp; omega
      · rw [if_neg hxy, if_neg (by simpa using fun h => hxy h.symm)]
        omega

/-- `ENC_SYM` for each byte, each with a code word (R191, R193). -/
theorem encSym_run {w : Byte → List Digit} {bytes : List Byte} {s : State} (herr : s.err = 0#8) (hc : s.ctv = true)
    (hw : ∀ x ∈ bytes, symGet s.ct x = some (w x)) :
    performAll (bytes.map .encSym) s =
      .next ⟨{ s with bitout := s.bitout ++ bytes.flatMap w,
                      rspout := s.rspout ++ bytes.map (fun x => rspWord stOk 0#16 (lenResult (w x).length)) }, none⟩ := by
  induction bytes generalizing s with
  | nil => simp [performAll]
  | cons x bytes ih =>
    have hx : exec (.encSym x) s = .next (reply stOk 0#16 (lenResult (w x).length) (emitBits (w x) s)) := by
      show execEncSym x s = _
      rw [execEncSym, whenUnlocked_open herr, requireFlag_open hc, hw x (by simp)]
      rfl
    rw [List.map_cons, performAll_cons hx (by simp), ih (s := reply stOk 0#16 (lenResult (w x).length) (emitBits (w x) s)) herr hc
      (fun y hy => hw y (by simp [hy]))]
    simp [reply, emitBits]

/-- `DEC_BIT` for each digit is HUF's loop on the digits (R208). -/
theorem decBit_run {t : CodeTree} {ds : List Digit} {s : State} {l : HufLoop} (herr : s.err = 0#8) (hr : s.rootv = true)
    (ht : HoldsTree s.tm s.root t) (h : Stands t s l) :
    ∃ u new, performAll (ds.map .decBit) s = .next ⟨u, none⟩ ∧ DecFrame s u ∧ Stands t u (hufLoop t l ds) ∧
      u.symout = s.symout ++ new ∧ (hufLoop t l ds).out = l.out ++ new := by
  induction ds generalizing s l with
  | nil => exact ⟨s, [], rfl, rfl, h, by simp, by simp [hufLoop]⟩
  | cons b ds ih =>
    obtain ⟨u, new, h1, h2, h3, h4, h5, v, a, d, h6⟩ := decBit_step herr hr ht h b
    have e1 : u.err = 0#8 := by rw [h2]; exact herr
    have e2 : u.rootv = true := by rw [h2]; exact hr
    have e3 : u.tm = s.tm := by rw [h2]
    have e4 : u.root = s.root := by rw [h2]
    obtain ⟨w, new', g1, g2, g3, g4, g5⟩ := ih e1 e2 (by rw [e3, e4]; exact ht) h3
    refine ⟨w, new ++ new', ?_, ?_, g3, ?_, ?_⟩
    · rw [List.map_cons, performAll_cons (show exec (.decBit b) s = .next u from h1) (by simp [h6]), g1]
    · unfold DecFrame at *
      rw [g2, h2]
    · rw [g4, h4, List.append_assoc]
    · rw [show hufLoop t l (b :: ds) = hufLoop t (hufDigit t l b) ds from rfl, g5, h5, List.append_assoc]

end Sys2Proof.Machine
end

