-- ==== Sys2Proof/Tests/Slice0.lean ====
section
/-! SUPPORT. Tests of the model, each against a value of the spec's own tables (95_test_vectors.md, section named in the comment), and
for every statement with hypotheses a witness that meets them together. -/

namespace Sys2Proof.Tests

open Sys2Proof Sys2Proof.Machine

-- One evaluation at a time: many kernel evaluations waiting side by side each hold a thread and its stack.
set_option Elab.async false

/-! ## Helpers -/

/-- The response to one command word sent to the block in `s`. -/
def response (w : CmdWord) (s : State) : Option RspWord :=
  match step (presentWord w s) with
  | .next t => t.rspout.getLast?
  | .fault _ => none
  | .refused _ => none

/-- The state after one command, when there is one. -/
def after (i : Instr) (s : State) : Option State :=
  match exec i s with
  | .next t => some t
  | .fault _ => none
  | .refused _ => none

/-- The reset state with some counts. -/
def counting (l : List (Byte × Count)) : State :=
  { State.reset with ft := l.foldl (fun t c => symSet t c.1 c.2) State.reset.ft }

/-- The reset state with a queue. -/
def queueing (q : List PQEntry) : State := { State.reset with pq := q }

/-- The reset state with a header string in the buffer. -/
def loaded (h : List Byte) : State := { State.reset with hb := h }

/-- What the host has when a run ends, when it ends so. -/
def report : RunResult → Option RunReport
  | .next r => some r
  | .fault _ => none
  | .refused _ => none

/-- A tie-break other than the block's: last in, first out, and the symbols seeded in descending order. -/
def lifo : TieBreak :=
  ⟨fun e q => q.takeWhile (fun f => f.prio < e.prio) ++ e :: q.dropWhile (fun f => f.prio < e.prio), symbols.reverse⟩

/-- The tree of the header `(.a(.c.b))` (S3). -/
def abcTree : CodeTree := .internal (.leaf 0x61#8) (.internal (.leaf 0x63#8) (.leaf 0x62#8))

/-- The block after it parsed `(.a(.c.b))`. -/
def abc : State := installTree (abcTree.layout 0) 0#9 (loaded abcTree.ser)

/-- The block after it parsed `.a` (S1). -/
def sole : State := installTree ((CodeTree.leaf 0x61#8).layout 0) 0#9 (loaded (CodeTree.leaf 0x61#8).ser)

/-- The tree of the header `(.a.a)`, a repeated symbol (P9). -/
def twin : State := installTree ((CodeTree.internal (.leaf 0x61#8) (.leaf 0x61#8)).layout 0) 0#9 State.reset

/-- The code table of `(.a(.c.b))`: a `0`, c `10`, b `11` (section 2.6). -/
def abcTable : SymTable (Option (List Digit)) :=
  symSet (symSet (symSet emptyTable 0x61#8 (some [false])) 0x63#8 (some [true, false])) 0x62#8 (some [true, true])

/-- `abc` with its code table. -/
def coded : State := { abc with ct := abcTable, ctv := true }

/-- The block locked by `QueueEmpty` (section 2.9). -/
def locked : State := { State.reset with err := 0x16#8 }

/-- The counts of `aaabbc` (S3). -/
def aaabbc : State := counting [(0x61#8, 3#32), (0x62#8, 2#32), (0x63#8, 1#32)]

/-- What `TB_BUILD` leaves of them (42_tree_builder.md R142). -/
def built : State :=
  { aaabbc with
    tm := [.leaf 0x61#8, .leaf 0x62#8, .leaf 0x63#8, .internal 2#9 1#9, .internal 0#9 3#9]
    root := 4#9, rootv := true, dnode := 4#9, pq := [⟨6#32, 4#9⟩], rspout := [0x0000000000000005#64] }

/-- `aaabbc` after a build under `lifo`. -/
def builtLifo : State :=
  { installTree [.leaf 0x63#8, .leaf 0x62#8, .leaf 0x61#8, .internal 0#9 1#9, .internal 3#9 2#9] 4#9 aaabbc with
    pq := [⟨6#32, 4#9⟩], rspout := [0x0000000000000005#64] }

/-- A queue of `n` entries of priority 7. -/
def sevens (n : Nat) : List PQEntry := List.replicate n ⟨7#32, 0#9⟩

theorem loaded_hb (h : List Byte) : (loaded h).hb = h := rfl

theorem sevens_length (n : Nat) : (sevens n).length = n := List.length_replicate

/-! ## Decoding: words of section 2.1, bit for bit -/

theorem test_decode_system : decode 0x0100000000000000#64 = some .rst ∧ decode 0x0200000000000000#64 = some .stat := by decide

theorem test_decode_frequency :
    decode 0x1000000000000000#64 = some .ftClr ∧ decode 0x110000FF00000000#64 = some (.ftInc 0xFF#8) ∧
    decode 0x1200000000000000#64 = some (.ftRd 0x00#8) := by decide

theorem test_decode_queue :
    decode 0x2000000000000000#64 = some .pqClr ∧ decode 0x2100000500000064#64 = some (.pqPush 5#9 100#32) ∧
    decode 0x210001FFFFFFFFFF#64 = some (.pqPush 511#9 4294967295#32) ∧ decode 0x2100010000000000#64 = some (.pqPush 256#9 0#32) ∧
    decode 0x2200000000000000#64 = some .pqPop ∧ decode 0x2300000000000000#64 = some .pqLen := by decide

theorem test_decode_tree : decode 0x3000000000000000#64 = some .tbBuild := by decide

theorem test_decode_header :
    decode 0x4000000000000000#64 = some .hdClr ∧ decode 0x4100002800000000#64 = some (.hdWr 0x28#8) ∧
    decode 0x4200000000000000#64 = some .hdParse ∧ decode 0x4300000000000000#64 = some .hdSer ∧
    decode 0x4400000000000000#64 = some .hdLen := by decide

theorem test_decode_table :
    decode 0x5000000000000000#64 = some .ctBuild ∧ decode 0x5100006200000000#64 = some (.ctLen 0x62#8) := by decide

theorem test_decode_coder :
    decode 0x6000006300000000#64 = some (.encSym 0x63#8) ∧ decode 0x7000000000000000#64 = some (.decBit false) ∧
    decode 0x7000000100000000#64 = some (.decBit true) ∧ decode 0x7100000000000000#64 = some .decEos := by decide

/-- The illegal words of section 2.1. -/
theorem test_illegal_words :
    [0x0000000000000000#64, 0xFFFFFFFFFFFFFFFF#64, 0x0300000000000000#64, 0x7200000000000000#64, 0x0100000000000001#64,
     0x0200000100000000#64, 0x3000000000000001#64, 0x1100016100000000#64, 0x1100006100000001#64, 0x1101006100000000#64,
     0x7000000200000000#64, 0x2100020000000000#64].all (fun w => (decode w).isNone) = true := by decide

/-- The rows of the opcode map do not overlap, so a word is at most one command (30_encoding.md R74). -/
theorem test_rows_disjoint :
    opcodeRows.Pairwise (fun r q => r.pattern &&& (r.mask &&& q.mask) ≠ q.pattern &&& (r.mask &&& q.mask)) := by decide

theorem test_table_word : decodeTableWord 64 0x1100006100000000 = some (.ftInc 0x61#8) := by decide

/-! ## WellFormed: an ill-formed word for each check of R73 -/

theorem test_ill_formed_opcode : (RawCmd.mk 0x03#8 0#8 0#16 0#32).opKnown = false := by decide
theorem test_ill_formed_reserved : (RawCmd.mk 0x11#8 1#8 0x61#16 0#32).rsvZero = false := by decide
theorem test_ill_formed_a_none : (RawCmd.mk 0x02#8 0#8 1#16 0#32).aInRange = false := by decide
theorem test_ill_formed_a_symbol : (RawCmd.mk 0x11#8 0#8 0x161#16 0#32).aInRange = false := by decide
theorem test_ill_formed_a_digit : (RawCmd.mk 0x70#8 0#8 2#16 0#32).aInRange = false := by decide
theorem test_ill_formed_a_payload : (RawCmd.mk 0x21#8 0#8 0x200#16 0#32).aInRange = false := by decide
theorem test_ill_formed_d : (RawCmd.mk 0x30#8 0#8 0#16 1#32).dInRange = false := by decide

/-! ## The lock and illegal words (sections 2.1, 2.9) -/

theorem test_illegal_faults : response 0x0300000000000000#64 State.reset = some 0x1000000000000000#64 := by decide +kernel
theorem test_illegal_locked : response 0x0000000000000000#64 locked = some 0xFF00000000000016#64 := by decide +kernel
theorem test_malformed_rst_locked : response 0x0100000000000001#64 locked = some 0xFF00000000000016#64 := by decide +kernel

/-! ## System (section 2.9) -/

theorem test_rst : (after .rst locked).map (·.err) = some 0#8 := by decide +kernel
theorem test_stat_table : response 0x0200000000000000#64 coded = some 0x0000000000000300#64 := by decide +kernel
theorem test_stat_dead : response 0x0200000000000000#64 { sole with err := 4#8, ddead := true } = some 0x0000000000001D04#64 := by
  decide +kernel

/-! ## Frequency table (section 2.2) -/

theorem test_ft_clr : (after .ftClr (counting [(0x61#8, 3#32)])).map (fun t => symGet t.ft 0x61#8) = some 0#32 := by decide +kernel
theorem test_ft_inc : (after (.ftInc 0xFF#8) (counting [(0xFF#8, 0xFFFFFFFE#32)])).map (fun t => symGet t.ft 0xFF#8) = some 0xFFFFFFFF#32 := by
  decide +kernel
theorem test_ft_inc_overflow :
    response 0x1100006100000000#64 (counting [(0x61#8, 0xFFFFFFFF#32)]) = some 0x1200000000000000#64 := by decide +kernel
theorem test_ft_rd : response 0x1200006100000000#64 (counting [(0x61#8, 3#32)]) = some 0x0000000000000003#64 := by decide +kernel

/-! ## Priority queue (section 2.3) -/

theorem test_pq_clr : (after .pqClr (queueing (sevens 3))).map (·.pq) = some [] := by decide +kernel
theorem test_pq_push_between :
    (after (.pqPush 4#9 3#32) (queueing [⟨3#32, 2#9⟩, ⟨5#32, 1#9⟩, ⟨5#32, 3#9⟩])).map (·.pq) =
      some [⟨3#32, 2#9⟩, ⟨3#32, 4#9⟩, ⟨5#32, 1#9⟩, ⟨5#32, 3#9⟩] := by decide +kernel
theorem test_pq_push_full : response 0x2100000000000000#64 (queueing (sevens 256)) = some 0x1300000000000000#64 := by decide +kernel
theorem test_pq_pop : response 0x2200000000000000#64 (queueing [⟨3#32, 2#9⟩, ⟨5#32, 1#9⟩]) = some 0x0000000200000003#64 := by
  decide +kernel
theorem test_pq_pop_wide : response 0x2200000000000000#64 (queueing [⟨0#32, 256#9⟩]) = some 0x0000010000000000#64 := by decide +kernel
theorem test_pq_len : response 0x2300000000000000#64 (queueing (sevens 6)) = some 0x0000000000000006#64 := by decide +kernel

/-! ## Tree builder (section 2.4) -/

theorem test_tb_build_abracadabra :
    (after .tbBuild (counting [(0x61#8, 5#32), (0x62#8, 2#32), (0x63#8, 1#32), (0x64#8, 1#32), (0x72#8, 2#32)])).map
      (fun t => (t.tm, t.root, t.pq)) =
    some ([.leaf 0x61#8, .leaf 0x62#8, .leaf 0x63#8, .leaf 0x64#8, .leaf 0x72#8, .internal 2#9 3#9, .internal 1#9 4#9,
      .internal 5#9 6#9, .internal 0#9 7#9], 8#9, [⟨11#32, 8#9⟩]) := by decide +kernel
theorem test_build_tree_aaabbc :
    (buildTree blockTieBreak aaabbc.ft).toOption = some (⟨built.tm, built.pq⟩, 4#9) := by decide +kernel
theorem test_tb_build_aaabbc : exec .tbBuild aaabbc = .next built := by
  have h := test_build_tree_aaabbc
  show execTbBuild aaabbc = _
  rw [execTbBuild, execTbBuildWith, whenUnlocked_open rfl]
  cases hb : buildTree blockTieBreak aaabbc.ft with
  | error k => rw [hb] at h; cases h
  | ok r => rw [hb] at h; cases h; rfl
/-- The last entry among equal ones comes first, and `c`, `b`, `a` are seeded in this order: the merge of `c` and `b`, of weight 3, stands
before `a`, of weight 3. -/
theorem test_build_tree_lifo :
    (buildTree lifo aaabbc.ft).toOption = some (⟨builtLifo.tm, builtLifo.pq⟩, 4#9) := by decide +kernel

/-! ## Header codec (section 2.5) -/

theorem test_hd_clr : (after .hdClr (loaded [0x2E#8])).map (·.hb) = some [] := by decide +kernel
theorem test_hd_wr : (after (.hdWr 0x61#8) (loaded [0x2E#8])).map (·.hb) = some [0x2E#8, 0x61#8] := by decide +kernel
theorem test_hd_wr_full : response 0x4100002800000000#64 (loaded (List.replicate 1022 0x28#8)) = some 0x1300000000000000#64 := by
  decide +kernel
theorem test_hd_len : response 0x4400000000000000#64 (loaded (List.replicate 6 0x28#8)) = some 0x0000000000000006#64 := by decide +kernel
/-- The string `((.a.b).c)`. -/
theorem test_hd_parse :
    (after .hdParse (loaded [0x28#8, 0x28#8, 0x2E#8, 0x61#8, 0x2E#8, 0x62#8, 0x29#8, 0x2E#8, 0x63#8, 0x29#8])).map (fun t => (t.tm, t.root)) =
    some ([.internal 1#9 4#9, .internal 2#9 3#9, .leaf 0x61#8, .leaf 0x62#8, .leaf 0x63#8], 0#9) := by decide +kernel
theorem test_hd_parse_trailing : response 0x4200000000000000#64 (loaded [0x2E#8, 0x61#8, 0x2E#8, 0x62#8]) = some 0x0100000000000000#64 := by
  decide +kernel
theorem test_hd_ser :
    (after .hdSer { abc with hb := [] }).map (·.hdrout) =
    some [0x28#8, 0x2E#8, 0x61#8, 0x28#8, 0x2E#8, 0x63#8, 0x2E#8, 0x62#8, 0x29#8, 0x29#8] := by decide +kernel

/-! ## Code table and encoder (sections 2.6, 2.7) -/

theorem test_ct_build : 
    (after .ctBuild abc).map (fun t => (symGet t.ct 0x61#8, symGet t.ct 0x62#8, symGet t.ct 0x63#8, symGet t.ct 0x7A#8)) =
    some (some [false], some [true, true], some [true, false], none) := by decide +kernel
theorem test_ct_build_dup : response 0x5000000000000000#64 twin = some 0x1500000000000000#64 := by decide +kernel
theorem test_ct_len : response 0x5100006200000000#64 coded = some 0x0000000100000002#64 := by decide +kernel
theorem test_enc_sym : (after (.encSym 0x63#8) coded).map (·.bitout) = some [true, false] := by decide +kernel
theorem test_enc_sym_no_code : response 0x6000007A00000000#64 coded = some 0x1400000000000000#64 := by decide +kernel

/-! ## Decoder (section 2.8) -/

theorem test_dec_bit_emits : response 0x7000000000000000#64 { abc with dnode := 2#9 } = some 0x0000016300000000#64 := by decide +kernel
theorem test_dec_bit_zero_symbol :
    response 0x7000000000000000#64 { sole with tm := [.leaf 0x00#8] } = some 0x0000010000000000#64 := by decide +kernel
theorem test_dec_eos : response 0x7100000000000000#64 abc = some 0x0000000000000000#64 := by decide +kernel
theorem test_dec_eos_truncated : response 0x7100000000000000#64 { abc with dnode := 2#9 } = some 0x0400000000000000#64 := by decide +kernel

/-! ## Witnesses

For each statement with hypotheses: a state and operands that meet them together, for each clause, at the ends of the ranges. -/

/-- A command that goes on, and what holds of the state it leaves, found by evaluation. -/
theorem next_of_after {i : Instr} {s : State} {p : State → Prop} [DecidablePred p]
    (h : (after i s).any (fun t => decide (p t)) = true) : ∃ t, exec i s = .next t ∧ p t := by
  unfold after at h
  split at h
  · exact ⟨_, ‹_›, by simpa using h⟩
  · cases h
  · cases h

/-- The state after one step, when there is one. -/
def stepped (s : State) : Option State :=
  match step s with
  | .next t => some t
  | .fault _ => none
  | .refused _ => none

/-- The same for a step. -/
theorem next_of_stepped {s : State} {p : State → Prop} [DecidablePred p]
    (h : (stepped s).any (fun t => decide (p t)) = true) : ∃ t, step s = .next t ∧ p t := by
  unfold stepped at h
  split at h
  · exact ⟨_, ‹_›, by simpa using h⟩
  · cases h
  · cases h

/-- The reset state with one word at the port. -/
def sent (w : CmdWord) (s : State) : State := presentWord w s

/-- The tree `(.0(.1( …` with `n` + 1 leaves, as deep as a tree of its size can be; 511 nodes for `n` = 255 (section 2.5). -/
def chain : Nat → CodeTree
  | 0 => .leaf 0#8
  | n + 1 => .internal (.leaf (BitVec.ofNat 8 (n + 1))) (chain n)

theorem chain_nodeCount (n : Nat) : (chain n).nodeCount = 2 * n + 1 := by
  induction n with
  | zero => rfl
  | succ n ih => simp only [chain, CodeTree.nodeCount, ih]; omega

theorem chain_fits : (chain 255).nodeCount ≤ 511 := (chain_nodeCount 255).le

theorem chain_ser_fits : (chain 255).ser.length ≤ 1022 := by
  have h1 := (chain 255).ser_length
  have h2 := (chain 255).nodeCount_eq
  have h3 := (chain 255).leafCount_eq
  have h4 := chain_nodeCount 255
  omega

theorem openNodes_replicate (n : Nat) (c : List (Option CodeTree)) : openNodes (List.replicate n none ++ c) = n + openNodes c := by
  induction n with
  | zero => simp
  | succ n ih => rw [List.replicate_succ, List.cons_append, openNodes, ih]; omega

theorem openNodes_some (n : Nat) :
    openNodes (List.replicate n none ++ [some (.leaf 0x61#8)]) + (CodeTree.leaf 0x62#8).nodeCount = n + 3 := by
  rw [openNodes_replicate]
  rfl

theorem openNodes_full : openNodes (List.replicate 511 none) = 511 := by
  have h := openNodes_replicate 511 []
  rwa [List.append_nil] at h

theorem inv_reset : Inv State.reset := Inv.clearBlock State.reset

theorem inv_loaded (t : CodeTree) (hl : t.ser.length ≤ 1022) (hn : t.nodeCount ≤ 511) :
    Inv (installTree (t.layout 0) 0#9 (loaded t.ser)) := (inv_reset.setHb hl).installTree (holdsTree_layout hn)

theorem inv_abc : Inv abc := inv_loaded _ (by decide) (by decide)
theorem inv_sole : Inv sole := inv_loaded _ (by decide) (by decide)
theorem holds_abc : HoldsTree abc.tm abc.root abcTree := holdsTree_layout (by decide)
theorem holds_sole : HoldsTree sole.tm sole.root (.leaf 0x61#8) := holdsTree_layout (by decide)
theorem holds_twin : HoldsTree twin.tm twin.root (.internal (.leaf 0x61#8) (.leaf 0x61#8)) := holdsTree_layout (by decide)

theorem table_abc : buildTable abcTree = .ok abcTable := by
  have h1 : (symGet (symSet emptyTable 0x61#8 (some [false])) 0x63#8).isSome = false := by decide +kernel
  have h2 : (symGet (symSet (symSet emptyTable 0x61#8 (some [false])) 0x63#8 (some [true, false])) 0x62#8).isSome = false := by
    decide +kernel
  simp only [abcTree, buildTable, walk, symGet_emptyTable, Option.isSome_none, Bool.false_eq_true, if_false, bind, Except.bind,
    List.nil_append, List.cons_append, h1, h2, abcTable]

theorem inv_coded : Inv coded := by
  have h := inv_abc
  exact ⟨h.1, h.2, h.3, h.4, h.5, fun hr => (by cases hr), fun _ => h.7 rfl, fun _ => ⟨abcTree, by decide, table_abc⟩,
    fun _ => h.9 rfl⟩

theorem witness_OpcodeMapDecides :
    (⟨"RST", 0x0100000000000000#64, 0xFFFFFFFFFFFFFFFF#64⟩ : OpcodeRow) ∈ opcodeRows ∧
    (⟨"DEC_EOS", 0x7100000000000000#64, 0xFFFFFFFFFFFFFFFF#64⟩ : OpcodeRow) ∈ opcodeRows ∧
    decode 0x7100000000000000#64 = some .decEos := by decide

theorem witness_OperandsAreFields :
    decode 0x110000FF00000000#64 = some (.ftInc 0xFF#8) ∧ decode 0x1200000000000000#64 = some (.ftRd 0#8) ∧
    decode 0x410000FF00000000#64 = some (.hdWr 0xFF#8) ∧ decode 0x510000FF00000000#64 = some (.ctLen 0xFF#8) ∧
    decode 0x600000FF00000000#64 = some (.encSym 0xFF#8) ∧ decode 0x7000000100000000#64 = some (.decBit true) ∧
    decode 0x210001FFFFFFFFFF#64 = some (.pqPush 511#9 4294967295#32) := by decide

theorem witness_StepRunsTheDecodedCommand :
    (sent 0x3000000000000000#64 State.reset).input = .cmd 0x3000000000000000#64 :: [] ∧
    decode 0x3000000000000000#64 = some .tbBuild := by decide

/-- The six clauses of `CheckOrder`: performed, refused, illegal, out of sequence (both flags), own pseudocode. -/
theorem witness_CheckOrder :
    (sent 0x0100000000000000#64 locked).input = .cmd 0x0100000000000000#64 :: [] ∧
    decode 0x0100000000000000#64 = some .rst ∧ decode 0x0200000000000000#64 = some .stat ∧
    decode 0x2300000000000000#64 = some .pqLen ∧ locked.err ≠ 0#8 ∧ decode 0x0000000000000000#64 = none ∧
    State.reset.err = 0#8 ∧ decode 0x7100000000000000#64 = some .decEos ∧ Instr.decEos.needsTree = true ∧
    State.reset.rootv = false ∧ decode 0x6000006200000000#64 = some (.encSym 0x62#8) ∧
    (Instr.encSym 0x62#8).needsTable = true ∧ abc.ctv = false ∧ coded.ctv = true ∧ abc.rootv = true := by decide

theorem witness_CheckOrder_runs : ∃ t, step (sent 0x6000006200000000#64 coded) = .next t ∧ t.err = 0#8 :=
  next_of_stepped (by decide +kernel)

theorem witness_WaitingKeepsAllState : State.reset.input = [] ∧ coded.input = [] := by decide

theorem witness_ResetValues : ({ coded with input := [.hardReset, .cmd 0#64] } : State).input = .hardReset :: [.cmd 0#64] := rfl

theorem witness_RstClearsTheBlock : locked.err ≠ 0#8 ∧ ∃ t, exec .rst locked = .next t ∧ t.err = 0#8 :=
  ⟨by decide, next_of_after (by decide +kernel)⟩

theorem witness_unlocked : State.reset.err = 0#8 ∧ abc.err = 0#8 ∧ coded.err = 0#8 ∧ sole.err = 0#8 := by decide

/-- Both ends: the largest count that can still rise, and the largest count. -/
theorem witness_FtIncCountsOneSymbol :
    (counting [(0xFF#8, 0xFFFFFFFE#32)]).err = 0#8 ∧ symGet (counting [(0xFF#8, 0xFFFFFFFE#32)]).ft 0xFF#8 ≠ 0xFFFFFFFF#32 ∧
    (counting [(0x00#8, 0xFFFFFFFF#32)]).err = 0#8 ∧ symGet (counting [(0x00#8, 0xFFFFFFFF#32)]).ft 0x00#8 = 0xFFFFFFFF#32 := by
  decide +kernel

theorem witness_CountsAreOccurrences :
    State.reset.err = 0#8 ∧ (∀ x, symGet State.reset.ft x = 0#32) ∧ [0x61#8, 0x62#8, 0x61#8].length ≤ 4294967295 :=
  ⟨rfl, fun x => symGet_replicate _ x, by decide⟩

/-- 255 entries take one more, 256 do not. -/
theorem witness_PqPushInsertsInOrder :
    (queueing (sevens 255)).err = 0#8 ∧ (sevens 255).length < 256 ∧ QueueSorted (sevens 255) ∧
    (sevens 256).length = 256 ∧ QueueSorted (sevens 256) := by
  have h : ∀ n, QueueSorted (sevens n) := fun n => List.pairwise_replicate.2 (.inr (by decide))
  exact ⟨rfl, by rw [sevens_length]; decide, h _, sevens_length _, h _⟩

theorem witness_PqPopRemovesTheFirst :
    State.reset.err = 0#8 ∧ State.reset.pq = [] ∧
    (queueing [⟨3#32, 2#9⟩, ⟨3#32, 4#9⟩, ⟨5#32, 1#9⟩]).pq = ⟨3#32, 2#9⟩ :: [⟨3#32, 4#9⟩, ⟨5#32, 1#9⟩] ∧
    QueueSorted [⟨3#32, 2#9⟩, ⟨3#32, 4#9⟩, ⟨5#32, 1#9⟩] := ⟨rfl, rfl, rfl, by unfold QueueSorted; decide⟩

theorem witness_QueueIsAStableSort :
    State.reset.err = 0#8 ∧ State.reset.pq = [] ∧ (sevens 256).length ≤ 256 ∧
    ([⟨5#32, 1#9⟩, ⟨3#32, 2#9⟩, ⟨5#32, 3#9⟩, ⟨3#32, 4#9⟩] : List PQEntry).length ≤ 256 :=
  ⟨rfl, rfl, (sevens_length _).le, by decide⟩

theorem witness_QueueCommandsTouchOnlyTheQueue :
    Instr.pqPop.onQueue = true ∧ (∃ t, exec .pqPop (queueing (sevens 2)) = .next t ∧ t.err = 0#8) ∧
    (queueing (sevens 2)).err = ({ coded with pq := sevens 2 } : State).err ∧
    (queueing (sevens 2)).pq = ({ coded with pq := sevens 2 } : State).pq ∧
    ∃ t, exec .tbBuild aaabbc = .next t ∧ t.err = 0#8 :=
  ⟨rfl, next_of_after (by decide +kernel), rfl, rfl, built, test_tb_build_aaabbc, rfl⟩

theorem witness_EmptyInputBuildsNothing :
    State.reset.err = 0#8 ∧ (∀ x, symGet State.reset.ft x = 0#32) ∧ State.reset.hb = [] ∧ Inv abc ∧ abc.rootv = true :=
  ⟨rfl, fun x => symGet_replicate _ x, rfl, inv_abc, rfl⟩

/-- `FT['a']` = 0xFFFFFFFF, `FT['b']` = 1: the smallest sum that overflows. -/
theorem witness_PriorityOverflow :
    (counting [(0x61#8, 0xFFFFFFFF#32), (0x62#8, 1#32)]).err = 0#8 ∧
    4294967295 < totalCount (counting [(0x61#8, 0xFFFFFFFF#32), (0x62#8, 1#32)]).ft ∧
    2 ≤ (presentSyms (counting [(0x61#8, 0xFFFFFFFF#32), (0x62#8, 1#32)]).ft).length := by decide +kernel

/-- One symbol with the largest count; two symbols whose counts add up to the largest priority. -/
theorem witness_TbBuildLeavesOneTree :
    (presentSyms (counting [(0x61#8, 0xFFFFFFFF#32)]).ft).length = 1 ∧
    (presentSyms (counting [(0x61#8, 0xFFFFFFFE#32), (0x62#8, 1#32)]).ft).length = 2 ∧
    totalCount (counting [(0x61#8, 0xFFFFFFFE#32), (0x62#8, 1#32)]).ft ≤ 4294967295 := by decide +kernel

theorem witness_TbBuildMergesGreedily : aaabbc.err = 0#8 ∧ ∃ t, exec .tbBuild aaabbc = .next t ∧ t.err = 0#8 :=
  ⟨rfl, built, test_tb_build_aaabbc, rfl⟩

theorem witness_TbBuildWorkedExample :
    aaabbc.err = 0#8 ∧ symGet aaabbc.ft 0x61#8 = 3#32 ∧ symGet aaabbc.ft 0x62#8 = 2#32 ∧ symGet aaabbc.ft 0x63#8 = 1#32 ∧
    ∀ x, x ≠ 0x61#8 → x ≠ 0x62#8 → x ≠ 0x63#8 → symGet aaabbc.ft x = 0#32 := by
  refine ⟨rfl, by decide +kernel, by decide +kernel, by decide +kernel, fun x ha hb hc => ?_⟩
  simp only [aaabbc, counting, List.foldl_cons, List.foldl_nil]
  rw [symGet_symSet_ne _ _ hc, symGet_symSet_ne _ _ hb, symGet_symSet_ne _ _ ha]
  exact symGet_replicate _ x

/-- It is one of those that R255 allows. -/
theorem lifo_lawful : lifo.Lawful := by
  refine ⟨fun e q hq => ⟨_, _, List.takeWhile_append_dropWhile.symm, rfl, fun f hf => ?_, ?_⟩,
    by simpa only [lifo] using List.reverse_perm symbols⟩
  · exact BitVec.le_of_lt (by simpa using List.mem_takeWhile_imp hf)
  · induction q with
    | nil => simp
    | cons g q ih =>
      obtain ⟨hg, hq⟩ := List.pairwise_cons.1 hq
      rw [List.dropWhile_cons]
      split
      · exact ih hq
      · rename_i h
        have h : e.prio ≤ g.prio := by simpa using h
        rintro f (_ | ⟨_, hf⟩)
        · exact h
        · exact BitVec.le_trans h (hg f hf)

theorem witness_CodeLengthMonotone_lifo :
    lifo.Lawful ∧ execTbBuildWith lifo aaabbc = .next builtLifo ∧ builtLifo.err = 0#8 ∧
    (after .ctBuild builtLifo).any (fun u => u.err = 0#8) = true := by
  refine ⟨lifo_lawful, ?_, rfl, by decide +kernel⟩
  have h := test_build_tree_lifo
  rw [execTbBuildWith, whenUnlocked_open rfl]
  cases hb : buildTree lifo aaabbc.ft with
  | error k => rw [hb] at h; cases h
  | ok r => rw [hb] at h; cases h; rfl

theorem witness_CodeLengthMonotone :
    aaabbc.err = 0#8 ∧
    (∃ t, exec .tbBuild aaabbc = .next t ∧ (t.err = 0#8 ∧ (after .ctBuild t).any (fun u => u.err = 0#8) = true)) ∧
    0 < (symGet aaabbc.ft 0x63#8).toNat ∧ (symGet aaabbc.ft 0x63#8).toNat < (symGet aaabbc.ft 0x61#8).toNat :=
  ⟨rfl, ⟨built, test_tb_build_aaabbc, rfl, by decide +kernel⟩, by decide +kernel, by decide +kernel⟩

theorem witness_HdWrAppendsOneByte :
    (loaded (List.replicate 1021 0x28#8)).err = 0#8 ∧ (loaded (List.replicate 1021 0x28#8)).hb.length < 1022 ∧
    (loaded (List.replicate 1022 0x28#8)).hb.length = 1022 := by decide +kernel

/-- A header of 511 nodes, and the empty string, which is no header. -/
theorem witness_HdParseAcceptsTheGrammar :
    (loaded (chain 255).ser).hb = (chain 255).ser ∧ (chain 255).nodeCount ≤ 511 ∧
    ∀ t : CodeTree, (loaded []).hb = t.ser → 511 < t.nodeCount :=
  ⟨loaded_hb _, chain_fits, fun t h => absurd h.symm t.ser_ne_nil⟩

/-- Each of the eight ways to fail, at the largest number of nodes the clause allows. -/
theorem witness_ParseFaultIsTheFirstFailedCheck :
    openNodes (List.replicate 511 none) ≤ 511 ∧
    (loaded (openText (List.replicate 511 none))).hb = openText (List.replicate 511 none) ∧
    (loaded (openText [none, some (.leaf 0x61#8)] ++ [0x2E#8])).hb = openText [none, some (.leaf 0x61#8)] ++ [0x2E#8] ∧
    (loaded (openText [none] ++ 0x29#8 :: [])).hb = openText [none] ++ 0x29#8 :: [] ∧ 0x29#8 ≠ 0x2E#8 ∧ 0x29#8 ≠ 0x28#8 ∧
    openNodes (List.replicate 508 none ++ [some (.leaf 0x61#8)]) + (CodeTree.leaf 0x62#8).nodeCount ≤ 511 ∧
    (loaded (openText ([] ++ [some (.leaf 0x61#8)]) ++ (CodeTree.leaf 0x62#8).ser)).hb =
      openText ([] ++ [some (.leaf 0x61#8)]) ++ (CodeTree.leaf 0x62#8).ser ∧
    (loaded (openText ([] ++ [some (.leaf 0x61#8)]) ++ (CodeTree.leaf 0x62#8).ser ++ 0x5D#8 :: [])).hb =
      openText ([] ++ [some (.leaf 0x61#8)]) ++ (CodeTree.leaf 0x62#8).ser ++ 0x5D#8 :: [] ∧ 0x5D#8 ≠ 0x29#8 ∧
    (chain 255).nodeCount ≤ 511 ∧ (loaded (abcTree.ser ++ 0x29#8 :: [])).hb = abcTree.ser ++ 0x29#8 :: [] ∧
    openNodes (List.replicate 511 none) = 511 ∧
    (loaded (openText (List.replicate 511 none) ++ 0x2E#8 :: 0x61#8 :: [])).hb = openText (List.replicate 511 none) ++ 0x2E#8 :: 0x61#8 :: [] ∧
    (loaded (openText (List.replicate 511 none) ++ 0x28#8 :: [])).hb = openText (List.replicate 511 none) ++ 0x28#8 :: [] := by
  refine ⟨openNodes_full.le, loaded_hb _, loaded_hb _, loaded_hb _, by decide, by decide, (openNodes_some 508).le, loaded_hb _, loaded_hb _,
    by decide, chain_fits, loaded_hb _, openNodes_full, loaded_hb _, loaded_hb _⟩

theorem witness_HdSerWritesTheHeader :
    State.reset.rootv = false ∧ abc.rootv = true ∧ HoldsTree abc.tm abc.root abcTree ∧ HoldsTree sole.tm sole.root (.leaf 0x61#8) :=
  ⟨rfl, rfl, holds_abc, holds_sole⟩

theorem witness_HeaderRoundTrip :
    Inv abc ∧ abc.err = 0#8 ∧ abc.rootv = true ∧ ∃ t, exec .hdParse (loaded abcTree.ser) = .next t ∧ t.err = 0#8 :=
  ⟨inv_abc, rfl, rfl, next_of_after (by decide +kernel)⟩

theorem witness_CtBuildDerivesTheTable :
    abc.err = 0#8 ∧ State.reset.rootv = false ∧ abc.rootv = true ∧ HoldsTree abc.tm abc.root abcTree ∧ abcTree.leafSyms.Nodup ∧
    twin.err = 0#8 ∧ twin.rootv = true ∧ HoldsTree twin.tm twin.root (.internal (.leaf 0x61#8) (.leaf 0x61#8)) ∧
    ¬ (CodeTree.internal (.leaf 0x61#8) (.leaf 0x61#8)).leafSyms.Nodup :=
  ⟨rfl, rfl, rfl, holds_abc, by decide, rfl, rfl, holds_twin, by decide⟩

theorem witness_SoleSymbolPolicy :
    sole.err = 0#8 ∧ sole.rootv = true ∧ HoldsTree sole.tm sole.root (.leaf 0x61#8) ∧ sole.ddead = false :=
  ⟨rfl, rfl, holds_sole, rfl⟩

/-- For `CT_LEN` and `ENC_SYM`: no table, a symbol without a code word, a symbol with one. -/
theorem witness_CtLen_EncSym :
    abc.err = 0#8 ∧ abc.ctv = false ∧ coded.err = 0#8 ∧ coded.ctv = true ∧ symGet coded.ct 0x7A#8 = none ∧
    symGet coded.ct 0x62#8 = some [true, true] := by decide +kernel

/-- Every case of `DEC_BIT`: no tree, dead, degenerate with either digit, an edge to a Leaf, an edge to an Internal node. -/
theorem witness_DecBitFollowsOneEdge :
    State.reset.rootv = false ∧ ({ sole with ddead := true } : State).ddead = true ∧ sole.ddead = false ∧
    readNode sole.tm sole.root = some (.leaf 0x61#8) ∧ abc.rootv = true ∧ abc.ddead = false ∧
    readNode abc.tm abc.root = some (.internal 1#9 2#9) ∧ readNode abc.tm abc.dnode = some (.internal 1#9 2#9) ∧
    readNode abc.tm 1#9 = some (.leaf 0x61#8) ∧ readNode abc.tm 2#9 = some (.internal 3#9 4#9) ∧ Inv abc ∧ Inv sole :=
  ⟨rfl, rfl, rfl, rfl, rfl, rfl, rfl, rfl, rfl, rfl, inv_abc, inv_sole⟩

/-- `DEC_EOS`: no tree; in the middle of a code word; dead at the root of a degenerate tree; at the root. -/
theorem witness_DecEosChecksTheCandidate :
    State.reset.rootv = false ∧ ({ abc with dnode := 2#9 } : State).dnode ≠ abc.root ∧
    ({ sole with ddead := true } : State).ddead = true ∧ abc.rootv = true ∧ abc.dnode = abc.root ∧ abc.ddead = false := by decide

theorem witness_WalkImplementsHufLoop :
    (abc.err = 0#8 ∧ abc.rootv = true ∧ HoldsTree abc.tm abc.root abcTree ∧ abc.dnode = abc.root ∧ abc.ddead = false) ∧
    sole.err = 0#8 ∧ sole.rootv = true ∧ HoldsTree sole.tm sole.root (.leaf 0x61#8) ∧ sole.dnode = sole.root ∧ sole.ddead = false :=
  ⟨⟨rfl, rfl, holds_abc, rfl, rfl⟩, rfl, rfl, holds_sole, rfl, rfl⟩

theorem witness_SequenceErrors :
    State.reset.err = 0#8 ∧ Instr.hdSer.needsTree = true ∧ State.reset.rootv = false ∧ (Instr.ctLen 0#8).needsTable = true ∧
    State.reset.ctv = false ∧ ∃ t, exec .hdSer State.reset = .next t ∧ t.err = 0x11#8 :=
  ⟨rfl, rfl, rfl, rfl, rfl, next_of_after (by decide +kernel)⟩

/-- A command that faults, for `FaultsArePrecise` and `FaultsByCommand`. -/
theorem witness_Faults : State.reset.err = 0#8 ∧ ∃ t, exec .pqPop State.reset = .next t ∧ t.err ≠ 0#8 :=
  ⟨rfl, next_of_after (by decide +kernel)⟩

theorem witness_ErrKeepsTheFirstFault :
    (sent 0x4300000000000000#64 locked).err ≠ 0#8 ∧ ∃ t, step (sent 0x4300000000000000#64 locked) = .next t ∧ t.err = 0x16#8 :=
  ⟨by decide, next_of_stepped (by decide +kernel)⟩

theorem witness_StatusValues :
    (sent 0x2200000000000000#64 State.reset).input = .cmd 0x2200000000000000#64 :: [] ∧
    ∃ t, step (sent 0x2200000000000000#64 State.reset) = .next t ∧ t.err = 0x16#8 :=
  ⟨rfl, next_of_stepped (by decide +kernel)⟩

theorem witness_StepKeepsTheInvariant :
    Inv (sent 0x7000000100000000#64 coded) ∧ (∃ t, step (sent 0x7000000100000000#64 coded) = .next t ∧ t.dnode = 2#9) ∧
    lifo.Lawful ∧ Inv aaabbc ∧ execTbBuildWith lifo aaabbc = .next builtLifo :=
  ⟨inv_coded.withInput _, next_of_stepped (by decide +kernel), lifo_lawful, (Inv.clearBlock State.reset).setFt _,
    witness_CodeLengthMonotone_lifo.2.1⟩

theorem witness_EveryCommandIsAnswered :
    Inv (sent 0xFFFFFFFFFFFFFFFF#64 coded) ∧ (sent 0xFFFFFFFFFFFFFFFF#64 coded).input = .cmd 0xFFFFFFFFFFFFFFFF#64 :: [] :=
  ⟨inv_coded.withInput _, rfl⟩

/-- A run that fails: `COMPRESS` of the empty string ends with the response of `TB_BUILD` (P5 of 95_test_vectors.md, R232, log entry 14). -/
theorem test_run_ends_at_the_first_failure :
    (report (runSequence (compress []) State.reset)).map (fun r => (r.state.rspout, r.failure)) =
      some ([0x0000000000000000#64, 0x0300000000000000#64], some 0x03#8) := by decide +kernel

theorem witness_EveryCommandIsAnswered_run :
    Inv State.reset ∧ (∃ rest, compress [] = .rst :: rest) ∧
    (report (runSequence (compress []) State.reset)).map (fun r => r.failure) = some (some 0x03#8) ∧
    (report (runSequence [.ftClr, .stat] State.reset)).map (fun r => r.failure) = some none :=
  ⟨Inv.clearBlock State.reset, ⟨_, rfl⟩, by decide +kernel, by decide +kernel⟩

theorem witness_OutputsAreAppendOnlyLogs :
    (∃ t, exec .hdSer abc = .next t ∧ t.hdrout ≠ []) ∧ (∃ t, exec (.encSym 0x61#8) coded = .next t ∧ t.bitout ≠ []) ∧
    (∃ t, exec (.decBit false) abc = .next t ∧ t.symout ≠ []) ∧ ∃ t, exec .pqPop State.reset = .next t ∧ t.err ≠ 0#8 :=
  ⟨next_of_after (by decide +kernel), next_of_after (by decide +kernel), next_of_after (by decide +kernel), next_of_after (by decide +kernel)⟩

theorem witness_RootvRule :
    Inv abc ∧ abc.rootv = true ∧
    (∃ t, step (sent 0x3000000000000000#64 aaabbc) = .next t ∧ t.rootv = true) ∧ aaabbc.rootv = false ∧
    ∃ t, step (sent 0x0100000000000000#64 abc) = .next t ∧ t.rootv = false :=
  ⟨inv_abc, rfl, ⟨built, (step_legal (i := .tbBuild) rfl (by decide)).trans test_tb_build_aaabbc, rfl⟩, rfl,
    next_of_stepped (by decide +kernel)⟩

theorem witness_TreeChangeInvalidatesTheTable :
    (∃ t, step (sent 0x4200000000000000#64 { coded with hb := [0x2E#8, 0x61#8] }) = .next t ∧ (t.tm ≠ coded.tm ∧ t.err = 0#8)) ∧
    decode 0x4200000000000000#64 = some .hdParse ∧ ∃ t, step (sent 0x5000000000000000#64 abc) = .next t ∧ t.ctv = true :=
  ⟨next_of_stepped (by decide +kernel), by decide, next_of_stepped (by decide +kernel)⟩

theorem witness_ReadCommandsChangeNothing :
    (Instr.ctLen 0x61#8).readOnly = true ∧ (∃ t, exec (.ctLen 0x61#8) coded = .next t ∧ t.err = coded.err) ∧
    Instr.stat.readOnly = true ∧ ∃ t, exec .stat locked = .next t ∧ t.err = locked.err :=
  ⟨rfl, next_of_after (by decide +kernel), rfl, next_of_after (by decide +kernel)⟩

theorem witness_IdempotentCommands :
    Instr.tbBuild.idempotent = true ∧ (∃ t, exec .tbBuild aaabbc = .next t ∧ t.err = 0#8) ∧
    Instr.hdParse.idempotent = true ∧ ∃ t, exec .hdParse abc = .next t ∧ t.err = 0#8 :=
  ⟨rfl, ⟨built, test_tb_build_aaabbc, rfl⟩, rfl, next_of_after (by decide +kernel)⟩

/-- The largest tree: 511 nodes, 256 leaves, paths of length 255; and the smallest. -/
theorem witness_TreeInvariantClauses :
    Inv (installTree ((chain 255).layout 0) 0#9 (loaded (chain 255).ser)) ∧ Inv sole ∧ sole.rootv = true ∧
    readNode abc.tm 0#9 = some (.internal 1#9 2#9) ∧ followPath abc.tm abc.root [true, false] = some 3#9 :=
  ⟨inv_loaded _ chain_ser_fits chain_fits, inv_sole, rfl, rfl, rfl⟩

theorem witness_CodeTableInvariant :
    Inv coded ∧ coded.ctv = true ∧ symGet coded.ct 0x63#8 = some [true, false] := ⟨inv_coded, rfl, by decide +kernel⟩

theorem witness_CodeTableInvariant_sole : ∃ t, exec .ctBuild sole = .next t ∧ (t.ctv = true ∧ symGet t.ct 0x61#8 = some [false]) :=
  next_of_after (by decide +kernel)

/-- `aaaa` and `ab` (S1, S2), for `CompressResult` and `CompressDecompressRoundTrip`; for the latter also a block with another tie-break. -/
theorem witness_Compress :
    lifo.Lawful ∧
    ([0x61#8, 0x61#8, 0x61#8, 0x61#8] : List Byte) ≠ [] ∧ ([0x61#8, 0x62#8] : List Byte) ≠ [] ∧
    ([0x61#8, 0x62#8] : List Byte).length ≤ 4294967295 := ⟨lifo_lawful, by decide, by decide, by decide⟩

theorem witness_DecompressResult : abcTree.nodeCount ≤ 511 ∧ (chain 255).nodeCount ≤ 511 ∧ (chain 255).nodeCount = 511 :=
  ⟨by decide, chain_fits, chain_nodeCount 255⟩

/-- P8 and P9: `ENCODE_WITH "(.a(.c.b))"` of `ab`, of `az`, and with a repeated symbol. -/
theorem witness_EncodeWithReceivedCodebook :
    abcTree.nodeCount ≤ 511 ∧ abcTree.leafSyms.Nodup ∧ (∀ x ∈ [0x61#8, 0x62#8], x ∈ abcTree.leafSyms) ∧
    [0x61#8, 0x7A#8] = [0x61#8] ++ 0x7A#8 :: [] ∧ (∀ y ∈ [0x61#8], y ∈ abcTree.leafSyms) ∧ 0x7A#8 ∉ abcTree.leafSyms ∧
    ¬ (CodeTree.internal (.leaf 0x61#8) (.leaf 0x61#8)).leafSyms.Nodup := by decide

end Sys2Proof.Tests
end

section
/-! PROOF. One step on a command word (00_scope.md R6, 30_encoding.md R73). -/

namespace Sys2Proof.Machine

/-- The decoder undoes the encoder (R70 to R74). -/
theorem decode_encode (i : Instr) : decode (encode i) = some i := by
  rw [decode, encode, rsvField_cmdWord, if_pos rfl, opField_cmdWord, aField_cmdWord, dField_cmdWord]
  exact decodeFields_eq_some_iff.2 ⟨rfl, rfl, rfl⟩

/-- Placing a word at the port by its number, whatever number of bits is named, is presenting the word (log entry 13). -/
@[simp] theorem withFetchWord_toNat (s : State) (n : Nat) (w : CmdWord) : s.withFetchWord n w.toNat = presentWord w s := by
  rw [State.withFetchWord, BitVec.ofNat_toNat, BitVec.setWidth_eq]

/-- Settles O6: the step on a legal word, and for an encoded command that its word decodes to it. -/
theorem stepRunsTheDecodedCommand : Obligations.StepRunsTheDecodedCommand := by
  unfold Obligations.StepRunsTheDecodedCommand
  constructor
  · intro s w i rest hinput hdec
    exact step_legal hinput hdec
  · intro s i n
    rw [withFetchWord_toNat]
    exact sendCommand_eq (decode_encode i) s

end Sys2Proof.Machine
end

section
/-! PROOF. The reset values (10_state.md R40), the invariant at reset, and the lock (R23, 60_exceptions.md R280). -/

namespace Sys2Proof.Machine

/-- Settles O9: the table of R40 field by field, and both resets as the reset state beside untouched streams. -/
theorem resetValues : Obligations.ResetValues := by
  unfold Obligations.ResetValues
  refine ⟨reset_err, symGet_replicate _, rfl, rfl, reset_root, reset_rootv, rfl, reset_ctv, symGet_replicate _,
    reset_dnode, reset_ddead, ?_, ?_⟩
  · intro s
    exact exec_next_iff.2 (.inl ⟨.inr rfl, .inr ⟨_, _, _, ⟨rfl, rfl, rfl⟩, rfl⟩⟩)
  · intro s rest hinput
    exact step_hardReset hinput

/-- Settles O47: the reset state is a cleared block. -/
theorem resetMeetsTheInvariant : Obligations.ResetMeetsTheInvariant := Inv.clearBlock State.reset

/-- A command on a locked block changes nothing but the responses, unless it is `RST` (R280, R281). -/
theorem exec_of_locked {i : Instr} {s t : State} (hlock : s.err ≠ 0#8) (h : exec i s = .next t) :
    i = .rst ∨ t = { s with rspout := t.rspout } := by
  cases hi : i.accepted with
  | false =>
    obtain rfl : t = refuseLocked s := next_comm.1 ((exec_locked hlock hi).symm.trans h)
    exact .inr rfl
  | true =>
    cases i with
    | rst => exact .inl rfl
    | stat => exact .inr (by rw [succeed_next_iff.1 h]; rfl)
    | _ => cases hi

/-- Settles O45, by the four shapes of a step: a locked block waits, is reset, or refuses the word. -/
theorem errKeepsTheFirstFault : Obligations.ErrKeepsTheFirstFault := by
  unfold Obligations.ErrKeepsTheFirstFault
  refine ⟨reset_err, fun s t hlock h => ?_⟩
  rcases step_cases s with ⟨_, hs⟩ | ⟨rest, hin, _⟩ | ⟨w, i, rest, hin, hdec, hs⟩ | ⟨w, rest, _, _, hs⟩
  · obtain rfl : t = s := next_comm.1 (hs.symm.trans h)
    exact .inr (.inr rfl)
  · exact .inl ⟨rest, hin⟩
  · rcases exec_of_locked (s := { s with input := rest }) hlock (hs.symm.trans h) with rfl | ht
    · exact .inr (.inl ⟨w, rest, hin, hdec⟩)
    · exact .inr (.inr (by rw [ht]))
  · rcases illegalWord_next_iff.1 (hs.symm.trans h) with ⟨herr, _⟩ | ⟨_, rfl⟩
    · exact absurd herr hlock
    · exact .inr (.inr rfl)

end Sys2Proof.Machine
end

section
/-! PROOF. What a command appends to the streams, and that it does the same beside any other host (10_state.md R38, 20_memory.md R60,
49_properties.md R254). -/

namespace Sys2Proof.Machine

/-- What one command emits: nothing, a header on `HDROUT`, a code word on `BITOUT`, or a symbol on `SYMOUT` (R38). -/
inductive Emission where
  | silent
  | header (h : List Byte)
  | digits (ds : List Digit)
  | symbol (x : Byte)

namespace Emission

/-- The streams after an emission. -/
def onto : Emission → State → State
  | silent, o => o
  | header h, o => emitHdr h o
  | digits ds, o => emitBits ds o
  | symbol x, o => emitSym x o

/-- The part on `HDROUT`. -/
def hdr : Emission → List Byte
  | header h => h
  | _ => []

/-- The part on `BITOUT`. -/
def bits : Emission → List Digit
  | digits ds => ds
  | _ => []

/-- The part on `SYMOUT`. -/
def syms : Emission → List Byte
  | symbol x => [x]
  | _ => []

theorem onto_eq (e : Emission) (o : State) :
    e.onto o = { o with hdrout := o.hdrout ++ e.hdr, bitout := o.bitout ++ e.bits, symout := o.symout ++ e.syms } := by
  cases e <;> simp [onto, hdr, bits, syms, emitHdr, emitBits, emitSym]

/-- At most one stream gets something. -/
theorem one_stream (e : Emission) :
    e.bits = [] ∧ e.syms = [] ∨ e.hdr = [] ∧ e.syms = [] ∨ e.hdr = [] ∧ e.bits = [] := by
  cases e with
  | silent | header => exact .inl ⟨rfl, rfl⟩
  | digits => exact .inr (.inl ⟨rfl, rfl⟩)
  | symbol => exact .inr (.inr ⟨rfl, rfl⟩)

end Emission

section

variable {i : Instr} {s t u : State}

/-- Whether a command faults is decided by the block alone. -/
theorem Faults.besideHostOf {k : ErrKind} (h : Faults i s k) (o : State) : Faults i (s.besideHostOf o) k := by
  cases i <;> exact h

/-- A success has one emission and one effect on the block, beside whatever host. Only `HD_SER`, `ENC_SYM` and a completed `DEC_BIT` emit, none
of which a locked block performs. -/
theorem Succeeds.besideHostOf {a : BitVec 16} {d : BitVec 32} (h : Succeeds i s u a d) :
    ∃ e : Emission, (e = .silent ∨ i.accepted = false) ∧
      ∀ o, Succeeds i (s.besideHostOf o) (u.besideHostOf (e.onto o)) a d := by
  cases i with
  | rst | stat | ftClr | ftRd | pqClr | pqLen | hdClr | hdLen =>
    obtain ⟨rfl, ha, hd⟩ := h
    exact ⟨.silent, .inl rfl, fun o => ⟨rfl, ha, hd⟩⟩
  | ftInc | pqPush | hdWr | ctLen =>
    obtain ⟨hc, rfl, had⟩ := h
    exact ⟨.silent, .inl rfl, fun o => ⟨hc, rfl, had⟩⟩
  | pqPop | tbBuild | hdParse =>
    obtain ⟨x, y, hc, rfl, had⟩ := h
    exact ⟨.silent, .inl rfl, fun o => ⟨x, y, hc, rfl, had⟩⟩
  | decEos =>
    obtain ⟨hr, hn, hd, rfl, had⟩ := h
    exact ⟨.silent, .inl rfl, fun o => ⟨hr, hn, hd, rfl, had⟩⟩
  | ctBuild =>
    obtain ⟨hr, t, ct, ht, hb, rfl, had⟩ := h
    exact ⟨.silent, .inl rfl, fun o => ⟨hr, t, ct, ht, hb, rfl, had⟩⟩
  | hdSer =>
    obtain ⟨hr, t, ht, rfl, had⟩ := h
    exact ⟨.header t.ser, .inr rfl, fun o => ⟨hr, t, ht, rfl, had⟩⟩
  | encSym =>
    obtain ⟨hc, w, hw, rfl, had⟩ := h
    exact ⟨.digits w, .inr rfl, fun o => ⟨hc, w, hw, rfl, had⟩⟩
  | decBit b =>
    obtain ⟨hr, hd, ⟨hdead, rfl, ha⟩ | ⟨hlive, x, hroot, ⟨hb, rfl, ha⟩ | ⟨hb, rfl, ha⟩⟩ |
      ⟨hlive, rz, ro, z, o, hroot, hnode, ⟨x, hx, rfl, ha⟩ | ⟨cz, co, hc, rfl, ha⟩⟩⟩ := h
    · exact ⟨.silent, .inl rfl, fun _ => ⟨hr, hd, .inl ⟨hdead, rfl, ha⟩⟩⟩
    · exact ⟨.symbol x, .inr rfl, fun _ => ⟨hr, hd, .inr (.inl ⟨hlive, x, hroot, .inl ⟨hb, rfl, ha⟩⟩)⟩⟩
    · exact ⟨.silent, .inl rfl, fun _ => ⟨hr, hd, .inr (.inl ⟨hlive, x, hroot, .inr ⟨hb, rfl, ha⟩⟩)⟩⟩
    · exact ⟨.symbol x, .inr rfl, fun _ =>
        ⟨hr, hd, .inr (.inr ⟨hlive, rz, ro, z, o, hroot, hnode, .inl ⟨x, hx, rfl, ha⟩⟩)⟩⟩
    · exact ⟨.silent, .inl rfl, fun _ =>
        ⟨hr, hd, .inr (.inr ⟨hlive, rz, ro, z, o, hroot, hnode, .inr ⟨cz, co, hc, rfl, ha⟩⟩)⟩⟩

/-- A command that goes on has one emission, none if it leaves the block locked, one response, and one effect on the block, beside whatever
host. -/
theorem exec_besideHostOf (h : exec i s = .next t) :
    ∃ (e : Emission) (r : RspWord), (t.err ≠ 0#8 → e = .silent) ∧
      ∀ o, exec i (s.besideHostOf o) = .next (t.besideHostOf { e.onto o with rspout := o.rspout ++ [r] }) := by
  rcases exec_next_iff.1 h with ⟨hopen, ⟨k, hf, rfl⟩ | ⟨u, a, d, hs, rfl⟩⟩ | ⟨hlock, hi, rfl⟩
  · exact ⟨.silent, _, fun _ => rfl, fun o => exec_next_iff.2 (.inl ⟨hopen, .inl ⟨k, hf.besideHostOf o, rfl⟩⟩)⟩
  · obtain ⟨e, he, ho⟩ := hs.besideHostOf
    refine ⟨e, rspWord stOk a d, fun herr => he.resolve_right fun hi => ?_, fun o => ?_⟩
    · have hunlocked : s.err = 0#8 := hopen.resolve_right (by simp [hi])
      exact herr (by simp [hs.err, hunlocked])
    · exact exec_next_iff.2 (.inl ⟨hopen, .inr ⟨_, a, d, ho o, by rw [e.onto_eq]; rfl⟩⟩)
  · exact ⟨.silent, rspWord stLocked 0#16 (errResult s.err), fun _ => rfl,
      fun o => exec_next_iff.2 (.inr ⟨hlock, hi, rfl⟩)⟩

end

/-- Settles O50: the emission of the command, written as what it appends to each stream. -/
theorem outputsAreAppendOnlyLogs : Obligations.OutputsAreAppendOnlyLogs := by
  unfold Obligations.OutputsAreAppendOnlyLogs
  intro i s t h
  obtain ⟨e, r, hfault, ho⟩ := exec_besideHostOf h
  refine ⟨e.hdr, e.bits, e.syms, r, e.one_stream, fun herr => ?_, fun o => ?_⟩
  · rw [hfault herr]
    exact ⟨rfl, rfl, rfl⟩
  · rw [ho, e.onto_eq]

end Sys2Proof.Machine
end

section
/-! PROOF. Which commands change the present tree, and what `ROOTV` says (10_state.md R28). -/

namespace Sys2Proof.Machine

/-- A success clears the block, installs a tree, or leaves the present tree as it is (R28). -/
theorem Succeeds.tree_cases {i : Instr} {s u : State} {a : BitVec 16} {d : BitVec 32} (h : Succeeds i s u a d) :
    (i = .rst ∧ u.rootv = false) ∨ ((i = .tbBuild ∨ i = .hdParse) ∧ u.rootv = true) ∨
    (u.tm = s.tm ∧ u.root = s.root ∧ u.rootv = s.rootv) := by
  cases i with
  | rst =>
    obtain ⟨rfl, _⟩ := h
    exact .inl ⟨rfl, rfl⟩
  | tbBuild =>
    obtain ⟨_, _, _, rfl, _⟩ := h
    exact .inr (.inl ⟨.inl rfl, rfl⟩)
  | hdParse =>
    obtain ⟨_, _, _, rfl, _⟩ := h
    exact .inr (.inl ⟨.inr rfl, rfl⟩)
  | stat | ftClr | ftRd | pqClr | pqLen | hdClr | hdLen =>
    obtain ⟨rfl, _⟩ := h
    exact .inr (.inr ⟨rfl, rfl, rfl⟩)
  | ftInc | pqPush | hdWr | ctLen =>
    obtain ⟨_, rfl, _⟩ := h
    exact .inr (.inr ⟨rfl, rfl, rfl⟩)
  | pqPop | hdSer | encSym | decEos =>
    obtain ⟨_, _, _, rfl, _⟩ := h
    exact .inr (.inr ⟨rfl, rfl, rfl⟩)
  | ctBuild =>
    obtain ⟨_, _, _, _, _, rfl, _⟩ := h
    exact .inr (.inr ⟨rfl, rfl, rfl⟩)
  | decBit b =>
    obtain ⟨_, _, ⟨_, rfl, _⟩ | ⟨_, x, _, ⟨_, rfl, _⟩ | ⟨_, rfl, _⟩⟩ |
      ⟨_, _, _, _, _, _, _, ⟨_, _, rfl, _⟩ | ⟨_, _, _, rfl, _⟩⟩⟩ := h <;>
      exact .inr (.inr ⟨rfl, rfl, rfl⟩)

/-- A command clears `ROOTV`, sets it, or leaves it (R28). -/
theorem exec_rootv {i : Instr} {s t : State} (h : exec i s = .next t) :
    (i = .rst ∧ t.rootv = false) ∨
    ((i = .tbBuild ∨ i = .hdParse) ∧ t.rootv = true ∧ s.err = 0#8 ∧ t.err = 0#8) ∨ t.rootv = s.rootv := by
  rcases exec_next_iff.1 h with ⟨hopen, ⟨k, _, rfl⟩ | ⟨u, a, d, hs, rfl⟩⟩ | ⟨_, _, rfl⟩
  · exact .inr (.inr rfl)
  · rcases hs.tree_cases with hrst | ⟨hi, hv⟩ | ⟨_, _, hv⟩
    · exact .inl hrst
    · have herr : s.err = 0#8 := hopen.resolve_right (by rcases hi with rfl | rfl <;> decide)
      have hne : i ≠ .rst := by rcases hi with rfl | rfl <;> decide
      exact .inr (.inl ⟨hi, hv, herr, by rw [reply_err, hs.err, if_neg hne, herr]⟩)
    · exact .inr (.inr hv)
  · exact .inr (.inr rfl)

/-- An illegal word leaves `ROOTV`. -/
theorem illegalWord_rootv {s t : State} (h : illegalWord s = .next t) : t.rootv = s.rootv := by
  rcases illegalWord_next_iff.1 h with ⟨_, rfl⟩ | ⟨_, rfl⟩ <;> rfl

/-- A step clears `ROOTV` by one of the two resets, sets it by a build or a parse that succeeds, or leaves it (R28). -/
theorem step_rootv {s t : State} (h : step s = .next t) :
    (t.rootv = false ∧ ((∃ rest, s.input = .hardReset :: rest) ∨
      ∃ w rest, s.input = .cmd w :: rest ∧ decode w = some .rst)) ∨
    (t.rootv = true ∧ ∃ w rest, s.input = .cmd w :: rest ∧ (decode w = some .tbBuild ∨ decode w = some .hdParse) ∧
      s.err = 0#8 ∧ t.err = 0#8) ∨ t.rootv = s.rootv := by
  rcases step_cases s with ⟨_, hs⟩ | ⟨rest, hin, hs⟩ | ⟨w, i, rest, hin, hdec, hs⟩ | ⟨w, rest, _, _, hs⟩ <;>
    rw [hs] at h
  · obtain rfl : t = s := next_comm.1 h
    exact .inr (.inr rfl)
  · obtain rfl : t = _ := next_comm.1 h
    exact .inl ⟨rfl, .inl ⟨rest, hin⟩⟩
  · rcases exec_rootv h with ⟨rfl, hv⟩ | ⟨hi, hv, herr, herr'⟩ | hv
    · exact .inl ⟨hv, .inr ⟨w, rest, hin, hdec⟩⟩
    · exact .inr (.inl ⟨hv, w, rest, hin, by simpa [hdec] using hi, herr, herr'⟩)
    · exact .inr (.inr hv)
  · exact .inr (.inr (illegalWord_rootv (s := { s with input := rest }) h))

/-- Settles O51: what the invariant says of a set `ROOTV`, and the three things a step can do to it. -/
theorem rootvRule : Obligations.RootvRule := by
  unfold Obligations.RootvRule
  refine ⟨reset_root, reset_rootv, fun s hinv hv => hinv.exists_tree hv, fun s t h => ⟨fun ht hs => ?_, fun ht hs => ?_⟩⟩
  · rcases step_rootv h with ⟨hv, _⟩ | ⟨_, hset⟩ | hv
    · simp [ht] at hv
    · exact hset
    · simp [ht, hs] at hv
  · rcases step_rootv h with ⟨_, hclear⟩ | ⟨hv, _⟩ | hv
    · exact hclear
    · simp [ht] at hv
    · simp [ht, hs] at hv

end Sys2Proof.Machine
end

section
/-! PROOF. The tree invariant and the code table's invariant in the terms of their rules (10_state.md R29, R32, 49_properties.md R251). -/

namespace Sys2Proof.Machine

/-- Settles O55: each clause of R29 is a fact of the tree that the node memory holds. -/
theorem treeInvariantClauses : Obligations.TreeInvariantClauses := by
  unfold Obligations.TreeInvariantClauses
  intro s hinv hv
  obtain ⟨t, ht, _⟩ := hinv.exists_tree hv
  have hroot := ht.root_lt
  refine ⟨⟨by omega, hroot⟩, fun n z o hn => ht.children_lt hn, fun n hn hne => ?_, ?_, fun n hn => ht.reachable hn,
    ht.leafEntries, fun p m hp => ht.path_length_le hp⟩
  · rw [ht.childIds_count hn, if_neg hne]
  · rw [ht.childIds_count hroot, if_pos rfl]

/-- The leaves with their paths, read off the node memory (R13, R29). -/
theorem HoldsTree.mem_paths_iff {tm : List Node} {r : NodeId} {t : CodeTree} (h : HoldsTree tm r t) {p : List Digit} {x : Byte} :
    (p, x) ∈ t.paths ↔ ∃ n, followPath tm r p = some n ∧ readNode tm n = some (.leaf x) := by
  obtain ⟨ids, hids, _⟩ := h
  rw [← subtree_leaf_iff]
  constructor
  · intro hp
    obtain ⟨n, _, hn, hleaf, _⟩ := followPath_of_subtree hids hp
    exact ⟨n, hn, hleaf.1⟩
  · rintro ⟨n, hn, hr⟩
    obtain ⟨u, jds, hu, hh⟩ := subtree_of_followPath hids hn
    have hleaf : Holds tm (.leaf x) n [n.toNat] := ⟨hr, rfl⟩
    rw [hu, (hh.unique hleaf).1]

/-- Settles O56: the valid entries are the code words of the present tree, which are the paths of its leaves, or `"0"` alone. -/
theorem codeTableInvariant : Obligations.CodeTableInvariant := by
  unfold Obligations.CodeTableInvariant
  intro s hinv hctv
  obtain ⟨t, ht, _, hct⟩ := hinv.table hctv
  have hfits : t.leafCount ≤ 256 := by obtain ⟨_, _, _, hle⟩ := ht; exact hle
  refine ⟨t, ht, fun x w hw => ?_, fun x y v w hv hw hpre => ?_, fun hdeg x w => ?_, ?_⟩
  · have hmem := (hct x w).1 hw
    exact ⟨CodeTree.codeWord_ne_nil hmem, CodeTree.codeWord_length_le hfits hmem⟩
  · exact (CodeTree.codeWords_prefix_eq ((hct x v).1 hv) ((hct y w).1 hw) hpre).2
  · rw [hct, CodeTree.codeWords_of_degenerate_false hdeg, ht.mem_paths_iff]
  · rintro x0 rfl
    refine ⟨(hct x0 _).2 (List.mem_singleton.2 rfl), fun x hne => Option.eq_none_iff_forall_ne_some.2 fun w hw => hne ?_⟩
    exact congrArg Prod.snd (List.mem_singleton.1 ((hct x w).1 hw))

end Sys2Proof.Machine
end

section
/-! PROOF. The commands that may be repeated: the ones that only read, and the ones that are idempotent (20_memory.md R58). -/

namespace Sys2Proof.Machine

variable {i : Instr} {s t u : State} {a : BitVec 16} {d : BitVec 32} {k : ErrKind}

/-- The commands performed while the block is locked never fault (60_exceptions.md R275, R280). -/
theorem Faults.accepted_eq_false (h : Faults i s k) : i.accepted = false := by
  cases i with
  | rst | stat => exact h.elim
  | _ => rfl

/-- A read command that succeeds leaves the state as it was (R58). -/
theorem Succeeds.eq_of_readOnly (hi : i.readOnly = true) (h : Succeeds i s u a d) : u = s := by
  cases i with
  | stat | ftRd | pqLen | hdLen => exact h.1
  | ctLen => exact h.2.1
  | _ => cases hi

/-- What the success of a read command or an idempotent one depends on is, in the state it leaves, as it was: it succeeds again, with the
same result, and changes nothing more (R58). -/
theorem Succeeds.again (hi : i.readOnly = true ∨ i.idempotent = true) (h : Succeeds i s u a d) (st : BitVec 8) (a' : BitVec 16)
    (d' : BitVec 32) : Succeeds i (reply st a' d' u) (reply st a' d' u) a d := by
  cases i with
  | stat | ftRd | pqLen | hdLen | rst | ftClr | pqClr | hdClr =>
    obtain ⟨rfl, ha, hd⟩ := h
    exact ⟨rfl, ha, hd⟩
  | ctLen =>
    obtain ⟨hc, rfl, had⟩ := h
    exact ⟨hc, rfl, had⟩
  | tbBuild =>
    obtain ⟨b, r, hb, rfl, had⟩ := h
    exact ⟨b, r, hb, rfl, had⟩
  | hdParse =>
    obtain ⟨r, tm, hp, rfl, had⟩ := h
    exact ⟨r, tm, hp, rfl, had⟩
  | ctBuild =>
    obtain ⟨hr, t, ct, ht, hb, rfl, had⟩ := h
    exact ⟨hr, t, ct, ht, hb, rfl, had⟩
  | _ => simp [Instr.readOnly, Instr.idempotent] at hi

/-- The second of two such commands in a row only adds the same response (R58). -/
theorem Succeeds.exec_again (hi : i.readOnly = true ∨ i.idempotent = true) (hopen : s.err = 0#8 ∨ i.accepted = true)
    (h : Succeeds i s u a d) : exec i (reply stOk a d u) = .next (reply stOk a d (reply stOk a d u)) := by
  refine exec_next_iff.2 (.inl ⟨hopen.imp_left fun herr => ?_, .inr ⟨_, a, d, h.again hi stOk a d, rfl⟩⟩)
  rw [reply_err, h.err, herr, ite_self]

/-- A locked block refuses the repetition as it refused the command (60_exceptions.md R280). -/
theorem exec_refuseLocked (hlock : s.err ≠ 0#8) (hi : i.accepted = false) :
    exec i (refuseLocked s) = .next (refuseLocked (refuseLocked s)) :=
  exec_locked hlock hi

/-- Settles O53: a read command succeeds or is refused, and does the same again. -/
theorem readCommandsChangeNothing : Obligations.ReadCommandsChangeNothing := by
  unfold Obligations.ReadCommandsChangeNothing
  intro i s t hi h hkeep
  have twice (r : RspWord) : s.rspout ++ [r, r] = s.rspout ++ [r] ++ [r] := (List.append_assoc _ [r] [r]).symm
  rcases exec_next_iff.1 h with ⟨hopen, ⟨k, hf, rfl⟩ | ⟨u, a, d, hs, rfl⟩⟩ | ⟨hlock, hacc, rfl⟩
  · have herr : s.err = 0#8 := hopen.resolve_right (by simp [hf.accepted_eq_false])
    exact absurd (hkeep.trans herr) (code_ne_zero k)
  · obtain rfl := hs.eq_of_readOnly hi
    exact ⟨rspWord stOk a d, rfl, by rw [twice]; exact hs.exec_again (.inl hi) hopen⟩
  · exact ⟨rspWord stLocked 0#16 (errResult s.err), rfl, by rw [twice]; exact exec_refuseLocked hlock hacc⟩

/-- Settles O54: a command that leaves `ERR` = 0 was neither refused nor faulted. -/
theorem idempotentCommands : Obligations.IdempotentCommands := by
  unfold Obligations.IdempotentCommands
  intro i s t hi h hok
  rcases exec_next_iff.1 h with ⟨hopen, ⟨k, _, rfl⟩ | ⟨u, a, d, hs, rfl⟩⟩ | ⟨hlock, _, rfl⟩
  · exact absurd hok (code_ne_zero k)
  · exact ⟨rspWord stOk a d, by rw [reply_rspout, hs.ports.1], hs.exec_again (.inr hi) hopen⟩
  · exact absurd hok hlock

end Sys2Proof.Machine
end

section
/-! PROOF. A changed tree makes the code table stale and returns the decoder to the root (10_state.md R31, 20_memory.md R63,
70_reset_and_hazards.md R313). -/

namespace Sys2Proof.Machine

variable {i : Instr} {s t u : State} {a : BitVec 16} {d : BitVec 32}

/-- There is no code table, and the decoder stands at the root with an empty candidate (R31, R33, R63). -/
def AtRootUncoded (s : State) : Prop := s.ctv = false ∧ s.dnode = s.root ∧ s.ddead = false

theorem atRootUncoded_clearBlock (s : State) : AtRootUncoded (clearBlock s) := ⟨rfl, rfl, rfl⟩

theorem atRootUncoded_installTree (tm : List Node) (r : NodeId) (s : State) : AtRootUncoded (installTree tm r s) := ⟨rfl, rfl, rfl⟩

/-- A success leaves the decoder at the root without a table, or keeps the tree; then it keeps the table too, or it is the `CT_BUILD` of
a tree (R31, R313). -/
theorem Succeeds.table_cases (h : Succeeds i s u a d) :
    AtRootUncoded u ∨
    (u.tm = s.tm ∧ u.root = s.root ∧ (u.ct = s.ct ∧ u.ctv = s.ctv ∨ i = .ctBuild ∧ s.rootv = true)) := by
  cases i with
  | rst =>
    obtain ⟨rfl, _⟩ := h
    exact .inl (atRootUncoded_clearBlock s)
  | tbBuild =>
    obtain ⟨b, r, _, rfl, _⟩ := h
    exact .inl (atRootUncoded_installTree b.tm r s)
  | hdParse =>
    obtain ⟨r, tm, _, rfl, _⟩ := h
    exact .inl (atRootUncoded_installTree tm r s)
  | ctBuild =>
    obtain ⟨hr, _, _, _, _, rfl, _⟩ := h
    exact .inr ⟨rfl, rfl, .inr ⟨rfl, hr⟩⟩
  | stat | ftClr | ftRd | pqClr | pqLen | hdClr | hdLen =>
    obtain ⟨rfl, _⟩ := h
    exact .inr ⟨rfl, rfl, .inl ⟨rfl, rfl⟩⟩
  | ftInc | pqPush | hdWr | ctLen =>
    obtain ⟨_, rfl, _⟩ := h
    exact .inr ⟨rfl, rfl, .inl ⟨rfl, rfl⟩⟩
  | pqPop | hdSer | encSym | decEos =>
    obtain ⟨_, _, _, rfl, _⟩ := h
    exact .inr ⟨rfl, rfl, .inl ⟨rfl, rfl⟩⟩
  | decBit b =>
    obtain ⟨_, _, ⟨_, rfl, _⟩ | ⟨_, x, _, ⟨_, rfl, _⟩ | ⟨_, rfl, _⟩⟩ |
      ⟨_, _, _, _, _, _, _, ⟨_, _, rfl, _⟩ | ⟨_, _, _, rfl, _⟩⟩⟩ := h <;>
      exact .inr ⟨rfl, rfl, .inl ⟨rfl, rfl⟩⟩

/-- The same of every command: a fault and a refusal keep tree and table. -/
theorem exec_table_cases (h : exec i s = .next t) :
    AtRootUncoded t ∨
    (t.tm = s.tm ∧ t.root = s.root ∧ (t.ct = s.ct ∧ t.ctv = s.ctv ∨ i = .ctBuild ∧ s.err = 0#8 ∧ s.rootv = true)) := by
  rcases exec_next_iff.1 h with ⟨hopen, ⟨k, _, rfl⟩ | ⟨u, a, d, hs, rfl⟩⟩ | ⟨_, _, rfl⟩
  · exact .inr ⟨rfl, rfl, .inl ⟨rfl, rfl⟩⟩
  · rcases hs.table_cases with hu | ⟨htm, hroot, hkeep | ⟨rfl, hr⟩⟩
    · exact .inl hu
    · exact .inr ⟨htm, hroot, .inl hkeep⟩
    · exact .inr ⟨htm, hroot, .inr ⟨rfl, hopen.resolve_right (by decide), hr⟩⟩
  · exact .inr ⟨rfl, rfl, .inl ⟨rfl, rfl⟩⟩

/-- The same of every step. -/
theorem step_table_cases (h : step s = .next t) :
    AtRootUncoded t ∨
    (t.tm = s.tm ∧ t.root = s.root ∧ (t.ct = s.ct ∧ t.ctv = s.ctv ∨
      ∃ w rest, s.input = .cmd w :: rest ∧ decode w = some .ctBuild ∧ s.err = 0#8 ∧ s.rootv = true)) := by
  rcases step_cases s with ⟨_, hs⟩ | ⟨rest, _, hs⟩ | ⟨w, i, rest, hin, hdec, hs⟩ | ⟨w, rest, _, _, hs⟩ <;>
    rw [hs] at h
  · obtain rfl : t = s := next_comm.1 h
    exact .inr ⟨rfl, rfl, .inl ⟨rfl, rfl⟩⟩
  · obtain rfl : t = _ := next_comm.1 h
    exact .inl (atRootUncoded_clearBlock _)
  · rcases exec_table_cases h with ht | ⟨htm, hroot, hkeep | ⟨rfl, herr, hr⟩⟩
    · exact .inl ht
    · exact .inr ⟨htm, hroot, .inl hkeep⟩
    · exact .inr ⟨htm, hroot, .inr ⟨w, rest, hin, hdec, herr, hr⟩⟩
  · rcases illegalWord_next_iff.1 h with ⟨_, rfl⟩ | ⟨_, rfl⟩ <;> exact .inr ⟨rfl, rfl, .inl ⟨rfl, rfl⟩⟩

/-- A `TB_BUILD` or `HD_PARSE` that leaves `ERR` = 0 installed its tree (42_tree_builder.md R141, 43_header_codec.md R155). -/
theorem exec_newTree (hi : i = .tbBuild ∨ i = .hdParse) (h : exec i s = .next t) (hok : t.err = 0#8) :
    t.rootv = true ∧ AtRootUncoded t := by
  rcases exec_next_iff.1 h with ⟨_, ⟨k, _, rfl⟩ | ⟨u, a, d, hs, rfl⟩⟩ | ⟨hlock, _, rfl⟩
  · exact absurd hok (code_ne_zero k)
  · rcases hi with rfl | rfl
    · obtain ⟨b, r, _, rfl, _⟩ := hs
      exact ⟨rfl, atRootUncoded_installTree b.tm r s⟩
    · obtain ⟨r, tm, _, rfl, _⟩ := hs
      exact ⟨rfl, atRootUncoded_installTree tm r s⟩
  · exact absurd hok hlock

/-- Settles O52, by what a step can do to the tree and the table. -/
theorem treeChangeInvalidatesTheTable : Obligations.TreeChangeInvalidatesTheTable := by
  unfold Obligations.TreeChangeInvalidatesTheTable
  intro s t h
  refine ⟨fun hchange => ?_, fun hctv => ?_, fun w rest hin hdec hok => ?_⟩
  · rcases step_table_cases h with ht | ⟨htm, hroot, _⟩
    · exact ht
    · exact absurd hchange (by simp [htm, hroot])
  · rcases step_table_cases h with ⟨hno, _⟩ | ⟨htm, hroot, ⟨hct, hv⟩ | hbuild⟩
    · simp [hctv] at hno
    · exact ⟨htm, hroot, .inl ⟨hct, hv ▸ hctv⟩⟩
    · exact ⟨htm, hroot, .inr hbuild⟩
  · rcases hdec with hdec | hdec <;> rw [step_legal hin hdec] at h
    · exact exec_newTree (.inl rfl) h hok
    · exact exec_newTree (.inr rfl) h hok

end Sys2Proof.Machine
end

section
/-! PROOF. Command words: decoding and encoding, legality, the opcode map and the operands (30_encoding.md R70 to R74). -/

namespace Sys2Proof

open Machine

/-! ## Decoding against encoding -/

/-- The words of the commands, and no others, decode (R70 to R74). -/
theorem decode_eq_some_iff {w : CmdWord} {i : Instr} : decode w = some i ↔ w = encode i := by
  constructor
  · intro h
    obtain ⟨hrsv, hfields⟩ : rsvField w = 0#8 ∧ decodeFields (opField w) (aField w) (dField w) = some i := by
      simpa [decode] using h
    obtain ⟨hop, ha, hd⟩ := decodeFields_eq_some_iff.1 hfields
    rw [encode, ← hop, ← ha, ← hd, cmdWord_fields hrsv]
  · rintro rfl
    exact decode_encode i

/-- Settles O1: the fields of a legal word are those of its command, and they make up the word. -/
theorem decodeInvertsEncode : Obligations.DecodeInvertsEncode := fun _ _ => decode_eq_some_iff

/-- Settles O5: the decoder runs on each word; the illegal ones have a bad `OP`, a nonzero `RSV`, or an operand too large for its format. -/
theorem sampleWordsDecode : Obligations.SampleWordsDecode := by
  unfold Obligations.SampleWordsDecode
  decide

theorem opField_of_decode {w : CmdWord} {i : Instr} (h : decode w = some i) : opField w = i.opcode := by
  rw [decode_eq_some_iff.1 h, encode, opField_cmdWord]

theorem aField_of_decode {w : CmdWord} {i : Instr} (h : decode w = some i) : aField w = i.aOperand := by
  rw [decode_eq_some_iff.1 h, encode, aField_cmdWord]

theorem dField_of_decode {w : CmdWord} {i : Instr} (h : decode w = some i) : dField w = i.dOperand := by
  rw [decode_eq_some_iff.1 h, encode, dField_cmdWord]

/-! ## Operands -/

/-- Zeros above a value leave its number. -/
theorem toNat_zero_append {n k : Nat} (x : BitVec n) : (0#k ++ x).toNat = x.toNat := by
  rw [BitVec.toNat_append, BitVec.toNat_zero, Nat.zero_shiftLeft, Nat.zero_or]

/-- An operand that fills `A` from its bit 0 is the field of the word from bit 32 (R70, R72). -/
theorem toNat_of_aField {w : CmdWord} {n k : Nat} (hk : k + n = 16) {x : BitVec n} (h : (aField w).toNat = (0#k ++ x).toNat) :
    x.toNat = w.toNat / 2 ^ 32 % 2 ^ n := by
  rw [toNat_zero_append, aField, BitVec.extractLsb'_toNat, Nat.shiftRight_eq_div_pow] at h
  rw [← Nat.mod_eq_of_lt x.isLt, ← h, Nat.mod_mod_of_dvd _ (pow_dvd_pow 2 (by omega))]

/-- Settles O4: the operand of the command is what the encoder puts in the field, zero extended. -/
theorem operandsAreFields : Obligations.OperandsAreFields := by
  unfold Obligations.OperandsAreFields
  intro w
  refine ⟨fun x h => ?_, fun b h => ?_, fun pay prio h => ⟨?_, ?_⟩⟩
  · have ha : aField w = 0#8 ++ x := by rcases h with h | h | h | h | h <;> exact aField_of_decode h
    exact toNat_of_aField (k := 8) rfl (congrArg BitVec.toNat ha)
  · have hb : b.toNat = (BitVec.ofBool b).toNat := by cases b <;> rfl
    rw [hb]
    exact toNat_of_aField (k := 15) rfl (congrArg BitVec.toNat (aField_of_decode h))
  · exact toNat_of_aField (k := 7) rfl (congrArg BitVec.toNat (aField_of_decode h))
  · have hd : dField w = prio := dField_of_decode h
    rw [← hd, dField, BitVec.extractLsb'_toNat, Nat.shiftRight_zero]

/-! ## Legality -/

/-- The word of every command is legal, command by command. -/
theorem encode_legal : ∀ i : Instr, Laws.Legal.Statement i
  | .rst => Laws.Legal.rst
  | .stat => Laws.Legal.stat
  | .ftClr => Laws.Legal.ftClr
  | .ftInc x => Laws.Legal.ftInc x
  | .ftRd x => Laws.Legal.ftRd x
  | .pqClr => Laws.Legal.pqClr
  | .pqPush pay prio => Laws.Legal.pqPush pay prio
  | .pqPop => Laws.Legal.pqPop
  | .pqLen => Laws.Legal.pqLen
  | .tbBuild => Laws.Legal.tbBuild
  | .hdClr => Laws.Legal.hdClr
  | .hdWr x => Laws.Legal.hdWr x
  | .hdParse => Laws.Legal.hdParse
  | .hdSer => Laws.Legal.hdSer
  | .hdLen => Laws.Legal.hdLen
  | .ctBuild => Laws.Legal.ctBuild
  | .ctLen x => Laws.Legal.ctLen x
  | .encSym x => Laws.Legal.encSym x
  | .decBit b => Laws.Legal.decBit b
  | .decEos => Laws.Legal.decEos

/-- The number of operand bits at the bottom of `A` (R71, R72). -/
def Format.aBits : Format → Nat
  | .n => 0
  | .s => 8
  | .b => 1
  | .p => 9

/-- With a known opcode, the checks of R73 bound the operand in `A` and leave `D` to format `P`. -/
theorem wellFormed_iff {c : RawCmd} {f : Format} (hf : formatOf c.op = some f) :
    c.wellFormed = true ↔ c.rsv = 0#8 ∧ c.a.toNat < 2 ^ f.aBits ∧ (f = .p ∨ c.d = 0#32) := by
  cases f <;>
    simp [RawCmd.wellFormed, RawCmd.opKnown, RawCmd.rsvZero, RawCmd.aInRange, RawCmd.dInRange, hf, Format.aBits,
      ← BitVec.toNat_inj, and_assoc]

/-- The decoder reads the operands of the opcode by the format `f`. -/
def Format.Reads (f : Format) (op : BitVec 8) : Prop :=
  match f with
  | .n => ∃ i, ∀ a d, decodeFields op a d = formN a d i
  | .s => ∃ mk, ∀ a d, decodeFields op a d = formS a d mk
  | .b => ∃ mk, ∀ a d, decodeFields op a d = formB a d mk
  | .p => ∃ mk, ∀ a d, decodeFields op a d = formP a d mk

/-- The decoder reads every opcode of the map by its format (R74). -/
theorem reads_of_mem {p : BitVec 8 × Format} (hp : p ∈ opcodeFormats) : p.2.Reads p.1 := by
  fin_cases hp <;> exact ⟨_, fun _ _ => rfl⟩

/-- The same of an opcode that is found in the map. -/
theorem reads_of_formatOf {op : BitVec 8} {f : Format} (hf : formatOf op = some f) : f.Reads op := by
  obtain ⟨pre, post, hlist, _⟩ := List.lookup_eq_some_iff.1 hf
  exact reads_of_mem (p := (op, f)) (by simp [hlist])

/-- A field below `2 ^ n` is an operand of `n` bits with zeros above it. -/
theorem exists_zero_append {n k : Nat} {a : BitVec (k + n)} (h : a.toNat < 2 ^ n) : ∃ x : BitVec n, a = 0#k ++ x :=
  ⟨a.setWidth n, BitVec.eq_of_toNat_eq (by rw [toNat_zero_append, BitVec.toNat_setWidth, Nat.mod_eq_of_lt h])⟩

/-- Fields with a known opcode and operands that fit its format decode (R73). -/
theorem exists_decodeFields {op : BitVec 8} {a : BitVec 16} {d : BitVec 32} {f : Format} (hf : formatOf op = some f)
    (ha : a.toNat < 2 ^ f.aBits) (hd : f = .p ∨ d = 0#32) : ∃ i, decodeFields op a d = some i := by
  have hreads := reads_of_formatOf hf
  cases f with
  | n =>
    obtain ⟨i, hi⟩ := hreads
    have ha0 : a = 0#16 := BitVec.eq_of_toNat_eq (Nat.lt_one_iff.1 ha)
    exact ⟨i, (hi a d).trans (formN_eq_some_iff.2 ⟨ha0, hd.resolve_left nofun, rfl⟩)⟩
  | s =>
    obtain ⟨mk, hmk⟩ := hreads
    obtain ⟨x, hx⟩ := exists_zero_append (n := 8) (k := 8) ha
    exact ⟨mk x, (hmk a d).trans (formS_eq_some_iff.2 ⟨x, hx, hd.resolve_left nofun, rfl⟩)⟩
  | b =>
    obtain ⟨mk, hmk⟩ := hreads
    obtain ⟨x, hx⟩ := exists_zero_append (n := 1) (k := 15) ha
    have hbit : ∀ y : BitVec 1, y = BitVec.ofBool (y.getLsbD 0) := by decide
    exact ⟨mk _, (hmk a d).trans (formB_eq_some_iff.2 ⟨_, hbit x ▸ hx, hd.resolve_left nofun, rfl⟩)⟩
  | p =>
    obtain ⟨mk, hmk⟩ := hreads
    obtain ⟨x, hx⟩ := exists_zero_append (n := 9) (k := 7) ha
    exact ⟨mk x d, (hmk a d).trans (formP_eq_some_iff.2 ⟨x, hx, rfl⟩)⟩

/-- A word is a command exactly when it passes the four checks (R73). -/
theorem exists_decode_iff {w : CmdWord} : (∃ i, decode w = some i) ↔ (RawCmd.ofWord w).wellFormed = true := by
  constructor
  · rintro ⟨i, hi⟩
    rw [decode_eq_some_iff.1 hi]
    exact encode_legal i
  · intro hw
    rw [ofWord_eq] at hw
    obtain ⟨f, hf⟩ : ∃ f, formatOf (opField w) = some f := by
      rw [← Option.isSome_iff_exists]
      simp only [RawCmd.wellFormed, Bool.and_eq_true] at hw
      obtain ⟨⟨⟨hop, _⟩, _⟩, _⟩ := hw
      exact hop
    obtain ⟨hrsv, ha, hd⟩ := (wellFormed_iff hf).1 hw
    rw [decode, if_pos hrsv]
    exact exists_decodeFields hf ha hd

/-- Settles O3: a word is refused exactly when it is not legal. -/
theorem legalWordsDecode : Obligations.LegalWordsDecode := by
  unfold Obligations.LegalWordsDecode
  intro w
  have hlegal : (decode w).isSome = true ↔ (RawCmd.ofWord w).wellFormed = true :=
    Option.isSome_iff_exists.trans exists_decode_iff
  refine ⟨hlegal, ?_⟩
  rw [← Option.not_isSome_iff_eq_none, hlegal]
  simp only [RawCmd.wellFormed, Bool.and_eq_true, not_and_or, Bool.not_eq_true, or_assoc]

/-! ## The opcode map -/

/-- The mask of the rows of a format: the zeros are the operand bits (R74). -/
def Format.mask : Format → CmdWord
  | .n => 0xFFFFFFFFFFFFFFFF#64
  | .s => 0xFFFFFF00FFFFFFFF#64
  | .b => 0xFFFFFFFEFFFFFFFF#64
  | .p => 0xFFFFFE0000000000#64

theorem Format.opField_mask (f : Format) : opField f.mask = BitVec.allOnes 8 := by cases f <;> decide

theorem Format.rsvField_mask (f : Format) : rsvField f.mask = BitVec.allOnes 8 := by cases f <;> decide

theorem Format.aField_mask (f : Format) : aField f.mask = BitVec.allOnes 16 <<< f.aBits := by cases f <;> decide

theorem Format.dField_mask (f : Format) : dField f.mask = if f = .p then 0#32 else BitVec.allOnes 32 := by cases f <;> decide

theorem opField_and (v w : CmdWord) : opField (v &&& w) = opField v &&& opField w := BitVec.extractLsb'_and

theorem rsvField_and (v w : CmdWord) : rsvField (v &&& w) = rsvField v &&& rsvField w := BitVec.extractLsb'_and

theorem aField_and (v w : CmdWord) : aField (v &&& w) = aField v &&& aField w := BitVec.extractLsb'_and

theorem dField_and (v w : CmdWord) : dField (v &&& w) = dField v &&& dField w := BitVec.extractLsb'_and

/-- The rows of the map have the masks of their formats, and patterns without operands (R74). -/
theorem row_of_format : ∀ row ∈ opcodeRows, (formatOf (opField row.pattern)).map Format.mask = some row.mask ∧
    row.pattern = cmdWord (opField row.pattern) 0#16 0#32 := by decide

/-- A mask of the upper bits leaves nothing of a number exactly when the number fits below them. -/
theorem and_allOnes_shiftLeft_eq_zero {n k : Nat} {a : BitVec n} : a &&& BitVec.allOnes n <<< k = 0#n ↔ a.toNat < 2 ^ k := by
  rw [← BitVec.shiftLeft_ushiftRight, ← BitVec.toNat_inj, BitVec.toNat_shiftLeft, BitVec.toNat_ushiftRight, Nat.shiftLeft_eq,
    Nat.shiftRight_eq_div_pow, Nat.mod_eq_of_lt ((Nat.div_mul_le_self _ _).trans_lt a.isLt), BitVec.toNat_zero, Nat.mul_eq_zero,
    Nat.div_eq_zero_iff]
  simp

/-- A masked word is the pattern of an opcode exactly when it has that opcode and is legal (R73, R74). -/
theorem and_mask_eq_iff {op : BitVec 8} {f : Format} (hf : formatOf op = some f) {w : CmdWord} :
    w &&& f.mask = cmdWord op 0#16 0#32 ↔ opField w = op ∧ (RawCmd.ofWord w).wellFormed = true := by
  have hop : opField (w &&& f.mask) = opField w := by rw [opField_and, f.opField_mask, BitVec.and_allOnes]
  have hrsv : rsvField (w &&& f.mask) = rsvField w := by rw [rsvField_and, f.rsvField_mask, BitVec.and_allOnes]
  have ha : aField (w &&& f.mask) = 0#16 ↔ (aField w).toNat < 2 ^ f.aBits := by
    rw [aField_and, f.aField_mask, and_allOnes_shiftLeft_eq_zero]
  have hd : dField (w &&& f.mask) = 0#32 ↔ f = .p ∨ dField w = 0#32 := by
    rw [dField_and, f.dField_mask]
    by_cases hp : f = .p
    · simp [hp]
    · rw [if_neg hp, BitVec.and_allOnes, or_iff_right hp]
  rw [ofWord_eq]
  constructor
  · intro h
    have hopw : opField w = op := by rw [← hop, h, opField_cmdWord]
    refine ⟨hopw, (wellFormed_iff (by rw [hopw, hf])).2 ⟨?_, ha.1 ?_, hd.1 ?_⟩⟩
    · rw [← hrsv, h, rsvField_cmdWord]
    · rw [h, aField_cmdWord]
    · rw [h, dField_cmdWord]
  · rintro ⟨rfl, hw⟩
    obtain ⟨hrsv0, ha0, hd0⟩ := (wellFormed_iff hf).1 hw
    rw [← cmdWord_fields (hrsv.trans hrsv0), hop, ha.2 ha0, hd.2 hd0]

/-- The same of a row of the map, with the commands of its opcode (R74). -/
theorem and_row_mask_eq_iff {row : OpcodeRow} (hrow : row ∈ opcodeRows) {w : CmdWord} :
    w &&& row.mask = row.pattern ↔ ∃ i, decode w = some i ∧ i.opcode = opField row.pattern := by
  obtain ⟨hmask, hpattern⟩ := row_of_format row hrow
  obtain ⟨f, hf, hfm⟩ := Option.map_eq_some_iff.1 hmask
  rw [← hfm, hpattern, opField_cmdWord, and_mask_eq_iff hf, ← exists_decode_iff]
  constructor
  · rintro ⟨hop, i, hi⟩
    exact ⟨i, hi, (opField_of_decode hi).symm.trans hop⟩
  · rintro ⟨i, hi, hop⟩
    exact ⟨(opField_of_decode hi).trans hop, i, hi⟩

/-- Every command has a row, with its mnemonic and its opcode. -/
theorem exists_row (i : Instr) : ∃ row ∈ opcodeRows, row.mnemonic = i.mnemonic ∧ opField row.pattern = i.opcode := by
  have hany : opcodeRows.any (fun row => row.mnemonic = i.mnemonic ∧ opField row.pattern = i.opcode) = true := by cases i <;> rfl
  simpa using hany

/-- Mnemonics name the rows as opcodes do, for no two rows share either. -/
theorem mnemonic_eq_iff {row : OpcodeRow} (hrow : row ∈ opcodeRows) (i : Instr) :
    i.mnemonic = row.mnemonic ↔ i.opcode = opField row.pattern := by
  obtain ⟨own, hown, hmn, hop⟩ := exists_row i
  have hmnemonics : (opcodeRows.map (·.mnemonic)).Nodup := by decide
  have hopcodes : (opcodeRows.map fun r => opField r.pattern).Nodup := by decide
  rw [← hmn, ← hop]
  constructor
  · intro h
    rw [List.inj_on_of_nodup_map hmnemonics hown hrow h]
  · intro h
    rw [List.inj_on_of_nodup_map hopcodes hown hrow h]

/-- Settles O2: a row is decided by its opcode, which its mnemonic stands for. -/
theorem opcodeMapDecides : Obligations.OpcodeMapDecides := by
  unfold Obligations.OpcodeMapDecides
  constructor
  · intro row hrow w
    simp only [mnemonic_eq_iff hrow]
    exact and_row_mask_eq_iff hrow
  · intro w i hi
    obtain ⟨row, hrow, hmn, hop⟩ := exists_row i
    exact ⟨row, hrow, hmn, (and_row_mask_eq_iff hrow).2 ⟨i, hi, hop.symm⟩⟩

end Sys2Proof
end

section
/-! PROOF. The status values of a response, and its result fields with each (30_encoding.md R76, 60_exceptions.md R276, R280). -/

namespace Sys2Proof.Machine

variable {i : Instr} {s t : State}

/-- From `s` to `t` there is one response: a success, a fault of an unlocked block with the code that `ERR` takes, or the refusal of a
locked one, which shows `ERR` (R76). -/
def RespondsByStatus (s t : State) : Prop :=
  ∃ (st : BitVec 8) (a : BitVec 16) (d : BitVec 32), t.rspout = s.rspout ++ [rspWord st a d] ∧
    (st = 0x00#8 ∨
     (st.toNat ∈ [0x01, 0x02, 0x03, 0x04, 0x10, 0x11, 0x12, 0x13, 0x14, 0x15, 0x16] ∧ s.err = 0#8 ∧ t.err = st ∧ a = 0#16 ∧ d = 0#32) ∨
     (st = 0xFF#8 ∧ s.err ≠ 0#8 ∧ a = 0#16 ∧ d.extractLsb' 0 8 = s.err ∧ d.extractLsb' 8 24 = 0#24))

theorem code_mem (k : ErrKind) : k.code.toNat ∈ [0x01, 0x02, 0x03, 0x04, 0x10, 0x11, 0x12, 0x13, 0x14, 0x15, 0x16] := by
  cases k <;> decide

theorem respondsByStatus_takeFault (herr : s.err = 0#8) (k : ErrKind) : RespondsByStatus s (takeFault k s) :=
  ⟨k.code, 0#16, 0#32, rfl, .inr (.inl ⟨code_mem k, herr, rfl, rfl, rfl⟩)⟩

theorem respondsByStatus_refuseLocked (hlock : s.err ≠ 0#8) : RespondsByStatus s (refuseLocked s) := by
  refine ⟨stLocked, 0#16, errResult s.err, rfl, .inr (.inr ⟨rfl, hlock, rfl, ?_, ?_⟩)⟩
  · exact BitVec.extractLsb'_append_eq_right
  · exact BitVec.extractLsb'_append_eq_left

/-- A command responds by R76. -/
theorem exec_respondsByStatus (h : exec i s = .next t) : RespondsByStatus s t := by
  rcases exec_next_iff.1 h with ⟨hopen, ⟨k, hf, rfl⟩ | ⟨u, a, d, hs, rfl⟩⟩ | ⟨hlock, _, rfl⟩
  · exact respondsByStatus_takeFault (hopen.resolve_right (by simp [hf.accepted_eq_false])) k
  · exact ⟨stOk, a, d, by rw [reply_rspout, hs.ports.1], .inl rfl⟩
  · exact respondsByStatus_refuseLocked hlock

/-- An illegal word responds by R76. -/
theorem illegalWord_respondsByStatus (h : illegalWord s = .next t) : RespondsByStatus s t := by
  rcases illegalWord_next_iff.1 h with ⟨herr, rfl⟩ | ⟨hlock, rfl⟩
  · exact respondsByStatus_takeFault herr .illegalCmd
  · exact respondsByStatus_refuseLocked hlock

/-- Settles O46: taking the word from the port leaves `ERR` and the responses, and the word is a command or illegal. -/
theorem statusValues : Obligations.StatusValues := by
  unfold Obligations.StatusValues
  intro s t w rest hin h
  cases hdec : decode w with
  | some i => exact exec_respondsByStatus (s := { s with input := rest }) ((step_legal hin hdec).symm.trans h)
  | none => exact illegalWord_respondsByStatus (s := { s with input := rest }) ((step_illegal hin hdec).symm.trans h)

end Sys2Proof.Machine
end

section
/-! PROOF. The frequency table (40_frequency.md R100 to R103). -/

namespace Sys2Proof.Machine

/-- An unlocked block answers a command that succeeds. -/
theorem exec_of_succeeds {i : Instr} {s u : State} {a : BitVec 16} {d : BitVec 32} (herr : s.err = 0#8) (h : Succeeds i s u a d) :
    exec i s = .next (u.answered a d) :=
  exec_next_iff.2 (.inl ⟨.inl herr, .inr ⟨u, a, d, h, rfl⟩⟩)

/-- An unlocked block takes the fault of a command that has one. -/
theorem exec_of_faults {i : Instr} {s : State} {k : ErrKind} (herr : s.err = 0#8) (h : Faults i s k) :
    exec i s = .next (s.faulted k.code) :=
  exec_next_iff.2 (.inl ⟨.inl herr, .inl ⟨k, h, rfl⟩⟩)

/-- Counts that are occurrence counts of a string add up to its length. -/
theorem totalCount_eq_length {ft : SymTable Count} {bytes : List Byte} (h : ∀ x, (symGet ft x).toNat = bytes.count x) :
    totalCount ft = bytes.length := by
  simp only [totalCount, h, sum_counts]

/-- Settles O15: from cleared counts no count can overflow, since no symbol occurs more often than the string is long. -/
theorem countsAreOccurrences : Obligations.CountsAreOccurrences := by
  unfold Obligations.CountsAreOccurrences
  intro bytes s herr hzero hlen
  have hfit (x : Byte) : (symGet s.ft x).toNat + bytes.count x ≤ 4294967295 := by
    rw [hzero, BitVec.toNat_zero, Nat.zero_add]
    exact List.count_le_length.trans hlen
  obtain ⟨hrun, hget⟩ := ftInc_run herr hfit
  have hcount (x : Byte) : (symGet (countUp s.ft bytes) x).toNat = bytes.count x := by
    rw [hget, hzero, BitVec.toNat_zero, Nat.zero_add]
  exact ⟨_, hrun, herr, hcount, totalCount_eq_length hcount⟩

/-- Settles O12: `FT_CLR` writes the table of zeros. -/
theorem ftClrClearsEveryCount : Obligations.FtClrClearsEveryCount := by
  unfold Obligations.FtClrClearsEveryCount
  exact ⟨rfl, fun s herr => ⟨_, symGet_replicate 0#32, exec_of_succeeds herr ⟨rfl, rfl, rfl⟩⟩⟩

/-- A count is the largest, `CMAX`, by its number exactly when it is by its bits (R24). -/
theorem toNat_eq_cmax_iff {c : Count} : c.toNat = Config.cmax ↔ c = 0xFFFFFFFF#32 :=
  BitVec.toNat_inj (y := 0xFFFFFFFF#32)

/-- One more than a count below the largest does not wrap around. -/
theorem toNat_add_one_of_ne_cmax {c : Count} (h : c ≠ 0xFFFFFFFF#32) : (c + 1#32).toNat = c.toNat + 1 := by
  have hne : c.toNat ≠ 4294967295 := mt toNat_eq_cmax_iff.1 h
  have hlt := c.isLt
  rw [BitVec.toNat_add, BitVec.toNat_ofNat]
  omega

/-- Settles O13: below the largest count `FT_INC` writes one entry of the table, and at it the command faults. -/
theorem ftIncCountsOneSymbol : Obligations.FtIncCountsOneSymbol := by
  unfold Obligations.FtIncCountsOneSymbol
  refine ⟨cmdWord_symbol 0x11#8, fun s x herr => ⟨fun hbelow => ?_, fun hmax => ?_⟩⟩
  · refine ⟨symSet s.ft x (symGet s.ft x + 1#32), ?_, fun y hy => symGet_symSet_ne s.ft _ hy, ?_⟩
    · rw [symGet_symSet_self, toNat_add_one_of_ne_cmax hbelow]
    · exact exec_of_succeeds herr ⟨mt toNat_eq_cmax_iff.1 hbelow, rfl, rfl, rfl⟩
  · exact exec_of_faults (k := .countOverflow) herr ⟨rfl, toNat_eq_cmax_iff.2 hmax⟩

/-- Settles O14: `FT_RD` succeeds with the entry of the table. -/
theorem ftRdReturnsTheCount : Obligations.FtRdReturnsTheCount := by
  unfold Obligations.FtRdReturnsTheCount
  exact ⟨cmdWord_symbol 0x12#8, fun s x herr => exec_of_succeeds herr ⟨rfl, rfl, rfl⟩⟩

end Sys2Proof.Machine
end

section
/-! PROOF. The priority queue (41_priority_queue.md R111 to R119). -/

namespace Sys2Proof.Machine

/-! ## One command -/

/-- `PQ_PUSH` inserts while the queue is not full (R114). -/
theorem exec_pqPush {s : State} (herr : s.err = 0#8) (hfit : s.pq.length < 256) (e : PQEntry) :
    exec (.pqPush e.pay e.prio) s = .next (reply stOk 0#16 0#32 { s with pq := pqInsert e s.pq }) :=
  exec_of_succeeds herr ⟨hfit, rfl, rfl, rfl⟩

/-- `PQ_POP` answers with the entry of slot 0 (R115). -/
theorem exec_pqPop {s : State} {e : PQEntry} {q : List PQEntry} (herr : s.err = 0#8) (hq : s.pq = e :: q) :
    exec .pqPop s = .next (reply stOk (payResult e.pay) e.prio { s with pq := q }) :=
  exec_of_succeeds herr ⟨e, q, hq, rfl, rfl, rfl⟩

/-- Settles O16: `PQ_CLR` writes the empty queue. -/
theorem pqClrEmptiesTheQueue : Obligations.PqClrEmptiesTheQueue := by
  unfold Obligations.PqClrEmptiesTheQueue
  exact ⟨rfl, fun s herr => exec_of_succeeds herr ⟨rfl, rfl, rfl⟩⟩

/-- Settles O17: the two parts of the queue are those between which `pqInsert` puts an entry. -/
theorem pqPushInsertsInOrder : Obligations.PqPushInsertsInOrder := by
  unfold Obligations.PqPushInsertsInOrder
  refine ⟨cmdWord_pair 0x21#8, fun s pay prio herr hsorted => ⟨fun hfit => ?_, fun hfull => ?_⟩⟩
  · obtain ⟨l, r, hsplit, hins, hlow, hhigh⟩ := pqInsert_split hsorted ⟨prio, pay⟩
    refine ⟨l, r, hsplit, fun e he => BitVec.le_def.1 (hlow e he), fun e he => BitVec.lt_def.1 (hhigh e he), ?_⟩
    rw [← hins]
    exact exec_pqPush herr hfit ⟨prio, pay⟩
  · exact exec_of_faults (k := .capacityError) herr ⟨rfl, hfull.ge⟩

/-- Settles O18: slot 0 is the head of the list, and in a sorted list no later entry is lower. -/
theorem pqPopRemovesTheFirst : Obligations.PqPopRemovesTheFirst := by
  unfold Obligations.PqPopRemovesTheFirst
  refine ⟨rfl, fun s herr => ⟨fun hempty => ?_, fun e q hq => ⟨?_, fun hsorted f hf => ?_⟩⟩⟩
  · exact exec_of_faults (k := .queueEmpty) herr ⟨rfl, hempty⟩
  · rw [← payResult_eq]
    exact exec_pqPop herr hq
  · rw [hq] at hsorted
    exact BitVec.le_def.1 ((pqPop_sorted hsorted (pqPop_cons e q)).2 f hf)

/-- Settles O19: `PQ_LEN` succeeds with the length of the list. -/
theorem pqLenReturnsTheLength : Obligations.PqLenReturnsTheLength := by
  unfold Obligations.PqLenReturnsTheLength
  exact ⟨rfl, fun s herr => exec_of_succeeds herr ⟨rfl, rfl, rfl⟩⟩

/-! ## Pushing many entries and popping them all (R118) -/

/-- The queue `q` after the entries `es` have been pushed, first one first. -/
def pushAll (q es : List PQEntry) : List PQEntry := es.foldl (fun q e => pqInsert e q) q

@[simp] theorem pushAll_nil (q : List PQEntry) : pushAll q [] = q := rfl

@[simp] theorem pushAll_cons (q : List PQEntry) (e : PQEntry) (es : List PQEntry) :
    pushAll q (e :: es) = pushAll (pqInsert e q) es := rfl

/-- Pushing adds exactly the entries pushed (R118 b). -/
theorem pushAll_perm (q es : List PQEntry) : (pushAll q es).Perm (es ++ q) := by
  induction es generalizing q with
  | nil => exact .refl q
  | cons e es ih =>
    calc
      (pushAll (pqInsert e q) es).Perm (es ++ pqInsert e q) := ih _
      List.Perm _ (es ++ e :: q) := (pqInsert_perm e q).append_left es
      List.Perm _ (e :: es ++ q) := List.perm_middle

/-- Pushing keeps the queue sorted (R118 a). -/
theorem pushAll_sorted {q : List PQEntry} (hq : QueueSorted q) (es : List PQEntry) : QueueSorted (pushAll q es) := by
  induction es generalizing q with
  | nil => exact hq
  | cons e es ih => exact ih (pqInsert_sorted hq e)

/-- Among entries of one priority those pushed stand last, in the order in which they were pushed (R118 c). -/
theorem pushAll_stable {q : List PQEntry} (hq : QueueSorted q) (es : List PQEntry) (p : Count) :
    (pushAll q es).filter (fun f => f.prio = p) = q.filter (fun f => f.prio = p) ++ es.filter (fun f => f.prio = p) := by
  induction es generalizing q with
  | nil => simp
  | cons e es ih =>
    rw [pushAll_cons, ih (pqInsert_sorted hq e), pqInsert_stable hq, List.append_assoc, ← List.filter_append, List.singleton_append]

/-- `PQ_PUSH` for each of some entries that fit (R114). -/
theorem pqPush_run {es : List PQEntry} {s : State} (herr : s.err = 0#8) (hfit : s.pq.length + es.length ≤ 256) :
    performAll (es.map fun e => .pqPush e.pay e.prio) s =
      .next ⟨{ s with pq := pushAll s.pq es, rspout := s.rspout ++ List.replicate es.length okRsp }, none⟩ := by
  induction es generalizing s with
  | nil => simp [performAll]
  | cons e es ih =>
    rw [List.length_cons] at hfit
    have hpush := exec_pqPush herr (by omega) e
    rw [List.map_cons, performAll_cons hpush (by simp), ih (by exact herr) (by simp; omega)]
    simp [reply, okRsp, List.replicate_succ]

/-- The response of a `PQ_POP` that removed the entry `e` (R77, R115). -/
def popRsp (e : PQEntry) : RspWord := rspWord stOk (payResult e.pay) e.prio

/-- `PQ_POP` as often as there are entries answers with all of them, slot 0 first (R115). -/
theorem pqPop_run {q : List PQEntry} {s : State} (herr : s.err = 0#8) (hq : s.pq = q) :
    performAll (List.replicate q.length .pqPop) s = .next ⟨{ s with pq := [], rspout := s.rspout ++ q.map popRsp }, none⟩ := by
  induction q generalizing s with
  | nil =>
    cases s
    cases hq
    simp [performAll]
  | cons e q ih =>
    have hpop := exec_pqPop herr hq
    rw [List.length_cons, List.replicate_succ, performAll_cons hpop (by simp), ih (by exact herr) rfl]
    simp [reply, popRsp]

/-- Settles O20: what comes out is the queue after the pushes. -/
theorem queueIsAStableSort : Obligations.QueueIsAStableSort := by
  unfold Obligations.QueueIsAStableSort
  intro es s herr hempty hfit
  have hnil : QueueSorted [] := List.Pairwise.nil
  have hperm : (pushAll [] es).Perm es := by simpa using pushAll_perm [] es
  have hpush := pqPush_run (es := es) herr (by simpa [hempty] using hfit)
  rw [hempty] at hpush
  refine ⟨_, pushAll [] es, ?_, rfl, hperm, ?_, ?_⟩
  · have hpop := pqPop_run (q := pushAll [] es)
      (s := { s with pq := pushAll [] es, rspout := s.rspout ++ List.replicate es.length okRsp }) herr rfl
    rw [hperm.length_eq] at hpop
    rw [performAll_append hpush, hpop, ← hempty]
    simp only [← payResult_eq]
    rfl
  · exact (pushAll_sorted hnil es).imp BitVec.le_def.1
  · exact fun p => by simpa using pushAll_stable hnil es p

/-! ## The queue commands and the rest of the block (R119) -/

/-- The state `o` with the queue and `ERR` of `s`. -/
def State.withQueueOf (o s : State) : State := { o with pq := s.pq, err := s.err }

section

variable {i : Instr} {s t u : State}

/-- Whether a queue command faults is decided by the queue alone. -/
theorem Faults.withQueueOf {k : ErrKind} (hi : i.onQueue = true) (h : Faults i s k) (o : State) : Faults i (o.withQueueOf s) k := by
  cases i with
  | pqClr | pqPush | pqPop | pqLen => exact h
  | _ => cases hi

/-- A queue command that succeeds does the same to the queue beside any other state. -/
theorem Succeeds.withQueueOf {a : BitVec 16} {d : BitVec 32} (hi : i.onQueue = true) (h : Succeeds i s u a d) (o : State) :
    Succeeds i (o.withQueueOf s) (o.withQueueOf u) a d := by
  cases i with
  | pqClr | pqLen =>
    obtain ⟨rfl, had⟩ := h
    exact ⟨rfl, had⟩
  | pqPush =>
    obtain ⟨hfit, rfl, had⟩ := h
    exact ⟨hfit, rfl, had⟩
  | pqPop =>
    obtain ⟨e, q, hq, rfl, had⟩ := h
    exact ⟨e, q, hq, rfl, had⟩
  | _ => cases hi

/-- A queue command that goes on gives one response and changes the queue and `ERR`, beside any other state alike. -/
theorem exec_withQueueOf (hi : i.onQueue = true) (h : exec i s = .next t) :
    ∃ r, t = State.withQueueOf { s with rspout := s.rspout ++ [r] } t ∧
      ∀ o : State, exec i (o.withQueueOf s) = .next (State.withQueueOf { o with rspout := o.rspout ++ [r] } t) := by
  suffices hall : ∃ r, ∀ o : State, exec i (o.withQueueOf s) = .next (State.withQueueOf { o with rspout := o.rspout ++ [r] } t) by
    obtain ⟨r, ho⟩ := hall
    exact ⟨r, next_comm.1 ((ho s).symm.trans h), ho⟩
  rcases exec_next_iff.1 h with ⟨hopen, ⟨k, hf, rfl⟩ | ⟨u, a, d, hs, rfl⟩⟩ | ⟨hlock, hacc, rfl⟩
  · exact ⟨_, fun o => exec_next_iff.2 (.inl ⟨hopen, .inl ⟨k, hf.withQueueOf hi o, rfl⟩⟩)⟩
  · exact ⟨_, fun o => exec_next_iff.2 (.inl ⟨hopen, .inr ⟨_, a, d, hs.withQueueOf hi o, rfl⟩⟩)⟩
  · exact ⟨rspWord stLocked 0#16 (errResult s.err), fun o => exec_next_iff.2 (.inr ⟨hlock, hacc, rfl⟩)⟩

/-- A `TB_BUILD` that leaves `ERR` = 0 does not depend on the queue before it (42_tree_builder.md R132). -/
theorem exec_tbBuild_withQueue (h : exec .tbBuild s = .next t) (hok : t.err = 0#8) (q : List PQEntry) :
    exec .tbBuild { s with pq := q } = .next t := by
  rcases exec_next_iff.1 h with ⟨hopen, ⟨k, _, rfl⟩ | ⟨u, a, d, hs, rfl⟩⟩ | ⟨hlock, _, rfl⟩
  · exact absurd hok (code_ne_zero k)
  · obtain ⟨b, r, hbuild, rfl, had⟩ := hs
    exact exec_next_iff.2 (.inl ⟨hopen, .inr ⟨_, a, d, ⟨b, r, hbuild, rfl, had⟩, rfl⟩⟩)
  · exact absurd hok hlock

end

/-- Settles O21: a queue command does the same beside every state that has its queue and its `ERR`, its own state among them. -/
theorem queueCommandsTouchOnlyTheQueue : Obligations.QueueCommandsTouchOnlyTheQueue := by
  unfold Obligations.QueueCommandsTouchOnlyTheQueue
  refine ⟨fun i s t hi h => ?_, fun i s s' t hi h herr hpq => ?_, fun s t q h hok => exec_tbBuild_withQueue h hok q⟩
  · obtain ⟨r, ht, _⟩ := exec_withQueueOf hi h
    have hresponse : t.rspout = s.rspout ++ [r] := congrArg State.rspout ht
    rw [hresponse]
    exact ht
  · obtain ⟨r, ht, ho⟩ := exec_withQueueOf hi h
    have hs' : s'.withQueueOf s = s' := by rw [State.withQueueOf, ← herr, ← hpq]
    exact ⟨_, (congrArg (exec i) hs').symm.trans (ho s'), rfl, rfl, r, congrArg State.rspout ht, rfl⟩

end Sys2Proof.Machine
end

section
/-! PROOF. The tree builder (42_tree_builder.md R132 to R142). -/

namespace Sys2Proof.Machine

/-! ## What one `TB_BUILD` of an unlocked block does -/

section

variable {s t : State}

/-- `TB_BUILD` takes a fault exactly when the construction raises it. -/
theorem exec_tbBuild_eq_faulted_iff {k : ErrKind} (herr : s.err = 0#8) :
    exec .tbBuild s = .next (s.faulted k.code) ↔ buildTree blockTieBreak s.ft = .error k := by
  refine ⟨fun h => ?_, fun h => exec_of_faults herr ⟨buildTree_error blockTieBreak_lawful h, h⟩⟩
  rcases exec_next_iff.1 h with ⟨_, ⟨j, ⟨_, hbuild⟩, ht⟩ | ⟨u, a, d, ⟨_, _, _, rfl, _⟩, ht⟩⟩ | ⟨hlock, _⟩
  · obtain rfl : k = j := code_injective (congrArg State.err ht)
    exact hbuild
  · exact absurd ((congrArg State.err ht).trans herr) (code_ne_zero k)
  · exact absurd herr hlock

/-- A `TB_BUILD` that leaves `ERR` = 0 leaves the node memory of a construction that succeeded. -/
theorem exec_tbBuild_tm (h : exec .tbBuild s = .next t) (hok : t.err = 0#8) :
    ∃ b r, buildTree blockTieBreak s.ft = .ok (b, r) ∧ t.tm = b.tm := by
  rcases exec_next_iff.1 h with ⟨_, ⟨k, _, rfl⟩ | ⟨u, a, d, ⟨b, r, hbuild, rfl, _⟩, rfl⟩⟩ | ⟨hlock, _, rfl⟩
  · exact absurd hok (code_ne_zero k)
  · exact ⟨b, r, hbuild, rfl⟩
  · exact absurd hok hlock

end

/-- Settles O25: the merge loop's invariant at the end of the construction. -/
theorem tbBuildMergesGreedily : Obligations.TbBuildMergesGreedily := by
  unfold Obligations.TbBuildMergesGreedily
  intro s t _ h hok
  obtain ⟨b, r, hbuild, htm⟩ := exec_tbBuild_tm h hok
  rw [htm]
  exact buildTree_greedy hbuild

/-! ## The faults (R134, R135) -/

/-- The construction overflows under every tie-break alike, by the sum of the counts and the number of present symbols (R135). -/
theorem buildTree_eq_countOverflow_iff {tb : TieBreak} (htb : tb.Lawful) {ft : SymTable Count} :
    buildTree tb ft = .error .countOverflow ↔ Config.cmax < totalCount ft ∧ 2 ≤ (presentSyms ft).length := by
  rcases buildTree_spec htb ft with ⟨hnone, hb⟩ | ⟨_, hfit, b, r, t, hb, _⟩ | ⟨htwo, hsum, hb⟩
  · simp [hb, hnone]
  · have hno : ¬ (Config.cmax < totalCount ft ∧ 2 ≤ (presentSyms ft).length) := by omega
    simp [hb, hno]
  · simp [hb, htwo, hsum]

/-- Settles O23: the fault is the construction's, and what overflows is the sum of all counts. -/
theorem priorityOverflow : Obligations.PriorityOverflow := by
  unfold Obligations.PriorityOverflow
  intro s herr
  exact (exec_tbBuild_eq_faulted_iff (k := .countOverflow) herr).trans (buildTree_eq_countOverflow_iff blockTieBreak_lawful)

/-- A stored tree has a Leaf entry. -/
theorem Holds.exists_leaf {tm : List Node} {t : CodeTree} {n : NodeId} {ids : List Nat} (h : Holds tm t n ids) :
    ∃ m x, readNode tm m = some (.leaf x) := by
  induction t generalizing n ids with
  | leaf x => exact ⟨n, x, h.1⟩
  | internal z o hz _ =>
    obtain ⟨_, _, _, _, _, hzero, _⟩ := h
    exact hz hzero

/-- Settles O22: without a nonzero count the construction raises `EmptyInput`; a tree has a leaf; and a header begins with a byte. -/
theorem emptyInputBuildsNothing : Obligations.EmptyInputBuildsNothing := by
  unfold Obligations.EmptyInputBuildsNothing
  refine ⟨fun s herr hzero => ?_, fun s hinv hrootv => ?_, fun s herr hempty => ?_⟩
  · have hbuild : buildTree blockTieBreak s.ft = .error .emptyInput := by simp [buildTree, hzero]
    exact (exec_tbBuild_eq_faulted_iff herr).2 hbuild
  · obtain ⟨t, ids, hholds, _⟩ := hinv.treeOk hrootv
    exact hholds.exists_leaf
  · exact exec_of_faults (k := .formatError) herr ⟨.inl rfl, by rw [hempty]; rfl⟩

/-! ## The tree that a successful build leaves (R136 to R138) -/

/-- A tree is degenerate exactly when it has one leaf (R138). -/
theorem CodeTree.degenerate_iff {t : CodeTree} : t.degenerate = true ↔ t.leafSyms.length = 1 := by
  cases t with
  | leaf x => simp [degenerate, leafSyms]
  | internal z o =>
    have hz := z.leafCount_pos
    have ho := o.leafCount_pos
    simp only [degenerate, leafSyms_length, leafCount, Bool.false_eq_true, false_iff]
    omega

section

variable {ft : SymTable Count} {b : Build} {r : NodeId} {t : CodeTree}

/-- The root is the node allocated last (R136). -/
theorem Built.root_eq {tb : TieBreak} (h : Built tb ft b r t) : r = BitVec.ofNat 9 (2 * (presentSyms ft).length - 2) := by
  have hnum : 2 * (presentSyms ft).length - 2 = r.toNat := by
    have hroot := h.root
    have hcount := h.count
    omega
  rw [hnum, BitVec.ofNat_toNat, BitVec.setWidth_eq]

/-- The queue holds the root's entry alone, with the total count, which fits a priority (R136). -/
theorem Built.queue_eq {tb : TieBreak} (h : Built tb ft b r t) :
    totalCount ft < 2 ^ 32 ∧ b.pq = [⟨BitVec.ofNat 32 (totalCount ft), r⟩] := by
  obtain ⟨p, hq, hp⟩ := h.queue
  rw [← hp, BitVec.ofNat_toNat, BitVec.setWidth_eq]
  exact ⟨p.isLt, hq⟩

/-- No Internal node stands among the seeds (R136). -/
theorem Built.seeds_le {tb : TieBreak} (h : Built tb ft b r t) {n : Nat} {z o : NodeId}
    (hn : b.tm[n]? = some (.internal z o)) : (tb.seeded ft).length ≤ n := by
  obtain ⟨ints, htm, _⟩ := h.layout
  by_contra hlt
  rw [htm, List.getElem?_append_left (by simpa using hlt), List.getElem?_map, Option.map_eq_some_iff] at hn
  obtain ⟨x, _, hx⟩ := hn
  cases hx

/-- The block seeds the present symbols in ascending order (R133, R136). -/
theorem Built.take_eq (h : Built blockTieBreak ft b r t) :
    b.tm.take (presentSyms ft).length = (presentSyms ft).map .leaf := by
  obtain ⟨ints, htm, _⟩ := h.layout
  rw [htm, seeded_block]
  exact List.take_left' (List.length_map _)

end

/-- Merged nodes wait below the node that joins them (R131, R132). -/
theorem GreedyMerges.children_lt {ft : SymTable Count} {tm : List Node} (h : GreedyMerges ft tm) {n : Nat} {z o : NodeId}
    (hn : tm[n]? = some (.internal z o)) : z.toNat < n ∧ o.toNat < n := by
  obtain ⟨weight, _, _, hmerges⟩ := h
  obtain ⟨hz, ho, _⟩ := hmerges n z o hn
  exact ⟨hz.1, ho.1⟩

/-- The construction succeeds when there is a symbol and no sum can overflow (R134, R135). -/
theorem exists_built {tb : TieBreak} (htb : tb.Lawful) {ft : SymTable Count}
    (h : (presentSyms ft).length = 1 ∨ 2 ≤ (presentSyms ft).length ∧ totalCount ft ≤ Config.cmax) :
    ∃ b r t, buildTree tb ft = .ok (b, r) ∧ Built tb ft b r t := by
  rcases buildTree_spec htb ft with ⟨hnone, _⟩ | ⟨_, _, hbuilt⟩ | ⟨htwo, hsum, _⟩
  · simp [hnone] at h
  · exact hbuilt
  · omega

/-- Settles O24: the construction ends with `Built`, whose children are below their parents because the merges are greedy. -/
theorem tbBuildLeavesOneTree : Obligations.TbBuildLeavesOneTree := by
  unfold Obligations.TbBuildLeavesOneTree
  refine ⟨rfl, ?_⟩
  rintro s L herr rfl hfit
  obtain ⟨b, r, t, hbuild, hB⟩ := exists_built blockTieBreak_lawful hfit
  obtain ⟨htotal, hqueue⟩ := hB.queue_eq
  have hlen : b.tm.length = 2 * (presentSyms s.ft).length - 1 := by
    have hcount := hB.count
    omega
  rw [← hB.root_eq, ← hlen, ← hqueue]
  refine ⟨b.tm, t, exec_of_succeeds herr ⟨b, r, hbuild, rfl, rfl, rfl⟩, rfl, htotal, hB.take_eq,
    fun n z o hn => ⟨hB.seeds_le hn, (buildTree_greedy hbuild).children_lt hn⟩, hB.tree, hB.leaves, ?_⟩
  rw [CodeTree.degenerate_iff, hB.leaves.length_eq]

/-! ## The worked example (R142) -/

/-- The seeding loop passes over the symbols that do not occur (R133). -/
theorem seed_filter (tb : TieBreak) (ft : SymTable Count) (xs : List Byte) (b : Build) :
    seed tb ft (xs.filter (fun x => symGet ft x ≠ 0#32)) b = seed tb ft xs b := by
  induction xs generalizing b with
  | nil => rfl
  | cons x xs ih =>
    by_cases hx : symGet ft x = 0#32
    · simp [seed, hx, ← ih]
    · simp [seed, hx, ← ih]

/-- The block seeds as if only the present symbols were looked at. -/
theorem seed_block (ft : SymTable Count) (b : Build) :
    seed blockTieBreak ft blockTieBreak.seeds b = seed blockTieBreak ft (presentSyms ft) b :=
  (seed_filter blockTieBreak ft symbols b).symm

/-- The two merges of the example: `c` and `b` to a node of weight 3, which stands behind `a`; then `a` and that node. -/
theorem merge_example :
    merge blockTieBreak 3 ⟨[.leaf 0x61#8, .leaf 0x62#8, .leaf 0x63#8], [⟨1#32, 2#9⟩, ⟨2#32, 1#9⟩, ⟨3#32, 0#9⟩]⟩ =
    .ok ⟨[.leaf 0x61#8, .leaf 0x62#8, .leaf 0x63#8, .internal 2#9 1#9, .internal 0#9 3#9], [⟨6#32, 4#9⟩]⟩ := rfl

section

variable {ft : SymTable Count} (ha : symGet ft 0x61#8 = 3#32) (hb : symGet ft 0x62#8 = 2#32) (hc : symGet ft 0x63#8 = 1#32)
include ha hb hc

/-- The present symbols of the example. -/
theorem presentSyms_example (hother : ∀ x, x ≠ 0x61#8 → x ≠ 0x62#8 → x ≠ 0x63#8 → symGet ft x = 0#32) :
    presentSyms ft = [0x61#8, 0x62#8, 0x63#8] := by
  have hiff (x : Byte) : symGet ft x ≠ 0#32 ↔ x ∈ [0x61#8, 0x62#8, 0x63#8] := by
    constructor
    · intro hx
      by_contra hmem
      simp only [List.mem_cons, List.not_mem_nil, or_false, not_or] at hmem
      exact hx (hother x hmem.1 hmem.2.1 hmem.2.2)
    · simp only [List.mem_cons, List.not_mem_nil, or_false]
      rintro (rfl | rfl | rfl)
      · simp [ha]
      · simp [hb]
      · simp [hc]
  simp only [presentSyms, hiff]
  decide

/-- The queue of the example after seeding: `c`, `b`, `a`. -/
theorem seed_example : seed blockTieBreak ft [0x61#8, 0x62#8, 0x63#8] ⟨[], []⟩ =
    .ok ⟨[.leaf 0x61#8, .leaf 0x62#8, .leaf 0x63#8], [⟨1#32, 2#9⟩, ⟨2#32, 1#9⟩, ⟨3#32, 0#9⟩]⟩ := by
  simp [seed, ha, hb, hc, alloc, blockTieBreak, pqInsert]

/-- The construction of the example. -/
theorem buildTree_example (hother : ∀ x, x ≠ 0x61#8 → x ≠ 0x62#8 → x ≠ 0x63#8 → symGet ft x = 0#32) :
    buildTree blockTieBreak ft =
    .ok (⟨[.leaf 0x61#8, .leaf 0x62#8, .leaf 0x63#8, .internal 2#9 1#9, .internal 0#9 3#9], [⟨6#32, 4#9⟩]⟩, 4#9) := by
  have hsyms := presentSyms_example ha hb hc hother
  have hall : ¬ symbols.all (fun x => decide (symGet ft x = 0#32)) = true := by
    rw [all_zero_iff, hsyms]
    exact List.cons_ne_nil _ _
  rw [buildTree, if_neg hall, seed_block, hsyms, seed_example ha hb hc, ok_bind]
  show (merge blockTieBreak 3 _ >>= _) = _
  rw [merge_example, ok_bind]

end

/-- Settles O26: the construction run on the three symbols that are present. -/
theorem tbBuildWorkedExample : Obligations.TbBuildWorkedExample := by
  unfold Obligations.TbBuildWorkedExample
  intro s herr ha hb hc hother
  exact exec_of_succeeds herr ⟨_, _, buildTree_example ha hb hc hother, rfl, rfl, rfl⟩

end Sys2Proof.Machine
end

section
/-! PROOF. The header codec: the buffer commands, the parser's faults, and the round trip (43_header_codec.md R150 to R163). -/

namespace Sys2Proof.Machine

/-! ## The header buffer (R157 to R159) -/

/-- Settles O28: `HD_CLR` writes the empty buffer. -/
theorem hdClrEmptiesTheBuffer : Obligations.HdClrEmptiesTheBuffer := by
  unfold Obligations.HdClrEmptiesTheBuffer
  exact ⟨rfl, fun s herr => exec_of_succeeds herr ⟨rfl, rfl, rfl⟩⟩

/-- Settles O29: `HD_WR` appends while the buffer is not full, and at 1022 bytes the command faults. -/
theorem hdWrAppendsOneByte : Obligations.HdWrAppendsOneByte := by
  unfold Obligations.HdWrAppendsOneByte
  refine ⟨cmdWord_symbol 0x41#8, fun s x herr => ⟨fun hfit => ?_, fun hfull => ?_⟩⟩
  · exact exec_of_succeeds herr ⟨hfit, rfl, rfl, rfl⟩
  · exact exec_of_faults (k := .capacityError) herr ⟨rfl, hfull.ge⟩

/-- Settles O30: `HD_LEN` succeeds with the length of the buffer. -/
theorem hdLenReturnsTheLength : Obligations.HdLenReturnsTheLength := by
  unfold Obligations.HdLenReturnsTheLength
  exact ⟨rfl, fun s herr => exec_of_succeeds herr ⟨rfl, rfl, rfl⟩⟩

/-! ## What one `HD_SER` and one `HD_PARSE` of an unlocked block do (R152, R155) -/

section

variable {s t : State} {tree : CodeTree}

/-- `HD_SER` puts the header of the stored tree into the buffer and emits it (R152). -/
theorem exec_hdSer (herr : s.err = 0#8) (hrootv : s.rootv = true) (htree : HoldsTree s.tm s.root tree) :
    exec .hdSer s = .next ({ s with hb := tree.ser, hdrout := s.hdrout ++ tree.ser }.answered 0#16 (lenResult tree.ser.length)) :=
  exec_of_succeeds herr ⟨hrootv, tree, htree.tree, rfl, rfl, rfl⟩

/-- `HD_PARSE` of the header of a tree that fits installs that tree, laid out in pre-order (R155, R160). -/
theorem exec_hdParse (herr : s.err = 0#8) (hb : s.hb = tree.ser) (hfit : tree.nodeCount ≤ 511) :
    exec .hdParse s = .next ((installTree (tree.layout 0) 0#9 s).answered 0#16 (lenResult tree.nodeCount)) := by
  rw [← tree.layout_length 0]
  exact exec_of_succeeds herr ⟨0#9, tree.layout 0, parseHeader_ok_iff.2 ⟨tree, hb, hfit, rfl, rfl⟩, rfl, rfl, rfl⟩

/-- `HD_PARSE` takes the fault that the parse raises (R155). -/
theorem exec_hdParse_fault {k : ErrKind} {h : List Byte} (herr : s.err = 0#8) (hb : s.hb = h) (hparse : parseHeader h = .error k) :
    exec .hdParse s = .next (s.faulted k.code) :=
  exec_of_faults herr ⟨parseHeader_error hparse, hb ▸ hparse⟩

/-- An `HD_PARSE` that leaves `ERR` = 0 has read the header of a tree that fits and installed it (R155, R160). -/
theorem exec_hdParse_tree (h : exec .hdParse s = .next t) (hok : t.err = 0#8) :
    ∃ tree : CodeTree, s.hb = tree.ser ∧ t.rootv = true ∧ HoldsTree t.tm t.root tree := by
  rcases exec_next_iff.1 h with ⟨_, ⟨k, _, rfl⟩ | ⟨u, a, d, ⟨r, tm, hparse, rfl, _⟩, rfl⟩⟩ | ⟨hlock, _, rfl⟩
  · exact absurd hok (code_ne_zero k)
  · obtain ⟨tree, hb, hfit, rfl, rfl⟩ := parseHeader_ok_iff.1 hparse
    exact ⟨tree, hb, rfl, holdsTree_layout hfit⟩
  · exact absurd hok hlock

end

/-- The header of a tree with L leaves has 4L - 2 bytes (R153). -/
theorem CodeTree.ser_length_add_two (t : CodeTree) : t.ser.length + 2 = 4 * t.leafCount := by
  have hlen := t.ser_length
  have hleaves := t.leafCount_eq
  omega

/-- Settles O33: with `ROOTV` = 0 the sequence check fails, and a stored tree has a header that fits the buffer. -/
theorem hdSerWritesTheHeader : Obligations.HdSerWritesTheHeader := by
  unfold Obligations.HdSerWritesTheHeader
  refine ⟨rfl, fun t => ⟨t.ser_length, t.ser_length_add_two⟩, fun s herr => ⟨fun hno => ?_, fun hrootv t htree => ?_⟩⟩
  · exact exec_of_faults (k := .seqError) herr ⟨rfl, hno⟩
  · exact ⟨ser_fits htree, exec_hdSer herr hrootv htree⟩

/-- Settles O31: the parser accepts exactly the headers of trees that fit, and has two faults for the rest. -/
theorem hdParseAcceptsTheGrammar : Obligations.HdParseAcceptsTheGrammar := by
  unfold Obligations.HdParseAcceptsTheGrammar
  refine ⟨rfl, fun s herr => ⟨fun t hb hfit => ?_, fun hnone => ?_⟩⟩
  · exact ⟨exec_hdParse herr hb hfit, holdsTree_layout hfit, t.layout_length 0⟩
  · cases hparse : parseHeader s.hb with
    | ok p =>
      obtain ⟨t, hb, hfit, _⟩ := parseHeader_ok_iff.1 hparse
      exact absurd hfit (hnone t hb).not_ge
    | error k =>
      have hfault := exec_hdParse_fault herr rfl hparse
      rcases parseHeader_error hparse with rfl | rfl
      · exact .inl hfault
      · exact .inr hfault

/-- Settles O34: what `HD_SER` leaves in the buffer is the header of the stored tree, and what `HD_PARSE` accepts is the header of the tree
it stores. -/
theorem headerRoundTrip : Obligations.HeaderRoundTrip := by
  unfold Obligations.HeaderRoundTrip
  constructor
  · intro s hinv herr hrootv
    obtain ⟨tree, htree, _⟩ := hinv.exists_tree hrootv
    have hfit : tree.nodeCount ≤ 511 := htree.nodeCount.trans_le htree.length_le
    exact ⟨_, _, tree, exec_hdSer herr hrootv htree, exec_hdParse herr rfl hfit, herr, htree, holdsTree_layout hfit⟩
  · intro s t _ hparse hok
    obtain ⟨tree, hb, hrootv, htree⟩ := exec_hdParse_tree hparse hok
    rw [hb]
    exact ⟨_, exec_hdSer hok hrootv htree, hok, rfl, rfl⟩

/-! ## The parser's faults, check by check (R155, R161) -/

section

variable {c : List (Option CodeTree)} {str rest : List Byte} {tm : List Node} {k : Nat} {b x : Byte} {z o t : CodeTree}

theorem lpar_ne_dot : Config.lpar ≠ Config.dot := by decide

/-- The string is exhausted where a tree must begin. -/
theorem parse_nil (k : Nat) (tm : List Node) : parse k [] tm = .error .formatError := by cases k <;> rfl

/-- The string ends after a dot. -/
theorem parse_dot_nil (k : Nat) (tm : List Node) : parse k [Config.dot] tm = .error .formatError := by cases k <;> rfl

/-- Another byte stands where a dot or a `(` is expected. -/
theorem parse_of_ne (hdot : b ≠ Config.dot) (hlpar : b ≠ Config.lpar) : parse k (b :: str) tm = .error .formatError := by
  cases k with
  | zero => rfl
  | succ k => simp only [parse, if_neg hdot, if_neg hlpar]

/-- A full node memory has no room for the leaf. -/
theorem parse_leaf_full (hk : 0 < k) (hfull : 511 ≤ tm.length) :
    parse k (Config.dot :: x :: rest) tm = .error .capacityError := by
  obtain ⟨k, rfl⟩ := Nat.exists_eq_add_one.2 hk
  have halloc : alloc (.leaf x) tm = .error .capacityError := alloc_error_iff.2 ⟨hfull, rfl⟩
  simp only [parse, if_true, halloc, error_bind]

/-- A full node memory has no room for the node that a `(` opens. -/
theorem parse_internal_full (hk : 0 < k) (hfull : 511 ≤ tm.length) :
    parse k (Config.lpar :: rest) tm = .error .capacityError := by
  obtain ⟨k, rfl⟩ := Nat.exists_eq_add_one.2 hk
  have halloc : alloc (.internal 0#9 0#9) tm = .error .capacityError := alloc_error_iff.2 ⟨hfull, rfl⟩
  simp only [parse, if_neg lpar_ne_dot, if_true, halloc, error_bind]

/-- After both children of a `(` the string ends, or another byte stands where `)` is due. -/
theorem parse_unclosed (hclose : rest.head? ≠ some Config.rpar) (hk : (Config.lpar :: (z.ser ++ (o.ser ++ rest))).length ≤ k)
    (hfit : tm.length + 1 + z.nodeCount + o.nodeCount ≤ 511) :
    parse k (Config.lpar :: (z.ser ++ (o.ser ++ rest))) tm = .error .formatError := by
  have hzero := z.depth_lt_nodeCount
  have hone := o.depth_lt_nodeCount
  have hzlen := z.nodeCount_le_ser_length
  have holen := o.nodeCount_le_ser_length
  simp only [List.length_cons, List.length_append] at hk
  obtain ⟨k, rfl⟩ : ∃ j, k = j + 1 := ⟨k - 1, by omega⟩
  have halloc : alloc (.internal 0#9 0#9) tm = .ok (BitVec.ofNat 9 tm.length, tm ++ [.internal 0#9 0#9]) :=
    alloc_ok_iff.2 ⟨by omega, rfl, rfl⟩
  simp only [parse, if_neg lpar_ne_dot, if_true, halloc, ok_bind]
  rw [parse_ser z (o.ser ++ rest) (by omega) (by simp; omega), ok_bind]
  dsimp only
  rw [parse_ser o rest (by omega) (by simp; omega), ok_bind]
  cases rest with
  | nil => rfl
  | cons b rest => exact if_neg (by simpa using hclose)

/-! ## The same of the whole header -/

/-- The fault at the place where a tree must begin is that of the whole header. -/
theorem parseHeader_openText_error {e : ErrKind} (hopen : openNodes c ≤ 511)
    (h : ∀ (tm : List Node) (k : Nat), tm.length = openNodes c → str.length ≤ k → parse k str tm = .error e) :
    parseHeader (openText c ++ str) = .error e := by
  have hparse : parse (openText c ++ str).length (openText c ++ str) [] = .error e :=
    parse_open_error (by simpa using hopen) le_rfl fun tm k hlen => h tm k (by simpa using hlen)
  rw [parseHeader, hparse, error_bind]

/-- Bytes after a complete tree are a `FormatError` (R162). -/
theorem parseHeader_trailing (hfit : t.nodeCount ≤ 511) : parseHeader (t.ser ++ b :: rest) = .error .formatError := by
  have hdepth := t.depth_lt_nodeCount
  have hlen := t.nodeCount_le_ser_length
  rw [parseHeader, parse_ser t (b :: rest) (by rw [List.length_append]; omega) (by simpa using hfit)]
  rfl

theorem openText_append_some (c : List (Option CodeTree)) (z : CodeTree) :
    openText (c ++ [some z]) = openText c ++ Config.lpar :: z.ser := by
  induction c with
  | nil => simp [openText]
  | cons v c ih => cases v <;> simp [openText, ih]

theorem openNodes_append_some (c : List (Option CodeTree)) (z : CodeTree) :
    openNodes (c ++ [some z]) = openNodes c + 1 + z.nodeCount := by
  induction c with
  | nil => simp [openNodes]
  | cons v c ih => cases v <;> simp only [List.cons_append, openNodes, ih] <;> omega

/-- A `)` is due after the one-child of the innermost open bracket. -/
theorem parseHeader_unclosed (hclose : rest.head? ≠ some Config.rpar) (hfit : openNodes (c ++ [some z]) + o.nodeCount ≤ 511) :
    parseHeader (openText (c ++ [some z]) ++ o.ser ++ rest) = .error .formatError := by
  rw [openNodes_append_some] at hfit
  rw [openText_append_some, List.append_assoc, List.append_assoc, List.cons_append]
  exact parseHeader_openText_error (by omega) fun tm k hlen hk => parse_unclosed hclose hk (by omega)

end

/-- Settles O32: the fault of the parse at the place that the consumed beginning leads to. -/
theorem parseFaultIsTheFirstFailedCheck : Obligations.ParseFaultIsTheFirstFailedCheck := by
  unfold Obligations.ParseFaultIsTheFirstFailedCheck
  intro s c rest b x z o t herr
  refine ⟨fun hopen hb => ?_, fun hopen hb => ?_, fun hopen hb hdot hlpar => ?_, fun hfit hb => ?_, fun hfit hb hclose => ?_,
    fun hfit hb => ?_, fun hopen hb => ?_, fun hopen hb => ?_⟩
  · rw [← List.append_nil (openText c)] at hb
    exact exec_hdParse_fault herr hb (parseHeader_openText_error hopen fun tm k _ _ => parse_nil k tm)
  · exact exec_hdParse_fault herr hb (parseHeader_openText_error hopen fun tm k _ _ => parse_dot_nil k tm)
  · exact exec_hdParse_fault herr hb (parseHeader_openText_error hopen fun _ _ _ _ => parse_of_ne hdot hlpar)
  · rw [← List.append_nil (openText _ ++ o.ser)] at hb
    exact exec_hdParse_fault herr hb (parseHeader_unclosed (by simp) hfit)
  · exact exec_hdParse_fault herr hb (parseHeader_unclosed (by simpa using hclose) hfit)
  · exact exec_hdParse_fault herr hb (parseHeader_trailing hfit)
  · exact exec_hdParse_fault herr hb (parseHeader_openText_error hopen.le fun _ _ hlen hk =>
      parse_leaf_full (Nat.zero_lt_of_lt hk) (hlen.trans hopen).ge)
  · exact exec_hdParse_fault herr hb (parseHeader_openText_error hopen.le fun _ _ hlen hk =>
      parse_internal_full (Nat.zero_lt_of_lt hk) (hlen.trans hopen).ge)

end Sys2Proof.Machine
end

section
/-! PROOF. The code-table commands `CT_BUILD` and `CT_LEN`, and the policy for a tree of one leaf (44_code_table.md R170 to R177). -/

namespace Sys2Proof.Machine

/-- Settles O37: with `CTV` = 1 the entry of the symbol decides the answer, and without it the sequence check fails. -/
theorem ctLenReturnsTheLength : Obligations.CtLenReturnsTheLength := by
  unfold Obligations.CtLenReturnsTheLength
  refine ⟨cmdWord_symbol 0x51#8, fun s x herr => ⟨fun hno => ?_, fun hctv hnone => ?_, fun hctv w hw => ?_⟩⟩
  · exact exec_of_faults (k := .seqError) herr ⟨rfl, hno⟩
  · exact exec_of_succeeds herr ⟨hctv, rfl, .inl ⟨hnone, rfl, rfl⟩⟩
  · exact exec_of_succeeds herr ⟨hctv, rfl, .inr ⟨w, hw, rfl, rfl⟩⟩

/-- A tree whose leaves carry distinct symbols has a code table (R172). -/
theorem exists_buildTable {t : CodeTree} (hnodup : t.leafSyms.Nodup) : ∃ ct, buildTable t = .ok ct := by
  cases t with
  | leaf x => exact ⟨_, rfl⟩
  | internal z o => exact walk_total [] hnodup fun x _ => symGet_emptyTable x

/-- A tree with a repeated symbol has no code table, and `DupSymbol` is the only fault the builder knows (R176). -/
theorem buildTable_eq_dupSymbol {t : CodeTree} (hdup : ¬ t.leafSyms.Nodup) : buildTable t = .error .dupSymbol := by
  cases hbuild : buildTable t with
  | ok ct => exact absurd (buildTable_ok_iff.1 hbuild).1 hdup
  | error e => rw [buildTable_error hbuild]

section

variable {s : State} {t : CodeTree}

/-- `CT_BUILD` of an unlocked block on a stored tree with distinct symbols writes the table of that tree (R172). -/
theorem exec_ctBuild (herr : s.err = 0#8) (hrootv : s.rootv = true) (htree : HoldsTree s.tm s.root t) (hnodup : t.leafSyms.Nodup) :
    ∃ ct, exec .ctBuild s = .next ({ s with ct := ct, ctv := true }.answered 0#16 (lenResult t.leafCount)) ∧
      ∀ x w, symGet ct x = some w ↔ (w, x) ∈ t.codeWords := by
  obtain ⟨ct, hbuild⟩ := exists_buildTable hnodup
  refine ⟨ct, ?_, (buildTable_ok_iff.1 hbuild).2⟩
  rw [← validCount_eq hbuild]
  exact exec_of_succeeds herr ⟨hrootv, t, ct, htree.tree, hbuild, rfl, rfl, rfl⟩

/-- `CT_BUILD` of an unlocked block on a stored tree with a repeated symbol takes the fault `DupSymbol` (R172, R176). -/
theorem exec_ctBuild_dup (herr : s.err = 0#8) (hrootv : s.rootv = true) (htree : HoldsTree s.tm s.root t) (hdup : ¬ t.leafSyms.Nodup) :
    exec .ctBuild s = .next (s.faulted 0x15#8) :=
  exec_of_faults (k := .dupSymbol) herr (.inr ⟨rfl, hrootv, t, htree.tree, buildTable_eq_dupSymbol hdup⟩)

end

/-- Settles O35: whether the leaves' symbols are distinct decides between the table of the tree and `DupSymbol`. -/
theorem ctBuildDerivesTheTable : Obligations.CtBuildDerivesTheTable := by
  unfold Obligations.CtBuildDerivesTheTable
  refine ⟨rfl, fun s herr => ⟨fun hno => ?_, fun hrootv t htree => ⟨fun hnodup => ?_, fun hdup => ?_⟩⟩⟩
  · exact exec_of_faults (k := .seqError) herr (.inl ⟨rfl, hno⟩)
  · exact exec_ctBuild herr hrootv htree hnodup
  · exact exec_ctBuild_dup herr hrootv htree hdup

/-- A table whose valid entries are the code words of a tree of one leaf has the one entry `"0"`, at the leaf's symbol (R174). -/
theorem soleEntry_of_leaf {ct : SymTable (Option (List Digit))} {x : Byte}
    (hct : ∀ y w, symGet ct y = some w ↔ (w, y) ∈ (CodeTree.leaf x).codeWords) :
    symGet ct x = some [false] ∧ ∀ y, y ≠ x → symGet ct y = none := by
  refine ⟨(hct x _).2 (List.mem_singleton.2 rfl), fun y hne => Option.eq_none_iff_forall_ne_some.2 fun w hw => hne ?_⟩
  exact congrArg Prod.snd (List.mem_singleton.1 ((hct y w).1 hw))

/-- Settles O36: the table, the header and the decoder on the tree that is one leaf. -/
theorem soleSymbolPolicy : Obligations.SoleSymbolPolicy := by
  unfold Obligations.SoleSymbolPolicy
  intro s x herr hrootv htree
  refine ⟨?_, ⟨_, exec_hdSer herr hrootv htree, rfl⟩, fun halive => ?_⟩
  · obtain ⟨ct, hexec, hct⟩ := exec_ctBuild herr hrootv htree (List.nodup_singleton x)
    exact ⟨ct, hexec, soleEntry_of_leaf hct⟩
  · obtain ⟨ids, ⟨hroot, _⟩, _⟩ := htree
    rw [← symResult_eq]
    exact exec_of_succeeds herr ⟨hrootv, rfl, .inr (.inl ⟨halive, x, hroot, .inl ⟨rfl, rfl, rfl⟩⟩)⟩

end Sys2Proof.Machine
end

section
/-! PROOF. The encoder (45_encoder.md R191, R192). -/

namespace Sys2Proof.Machine

/-- Settles O38: a clear `CTV` and a symbol without a code word are the two faults of `ENC_SYM`; with a code word it succeeds. -/
theorem encSymEmitsTheCodeWord : Obligations.EncSymEmitsTheCodeWord := by
  unfold Obligations.EncSymEmitsTheCodeWord
  refine ⟨cmdWord_symbol 0x60#8, fun s x herr => ⟨fun hctv => ?_, fun hctv hnone => ?_, fun hctv w hw => ?_⟩⟩
  · exact exec_of_faults (k := .seqError) herr (.inl ⟨rfl, hctv⟩)
  · exact exec_of_faults (k := .noCode) herr (.inr ⟨rfl, hctv, hnone⟩)
  · exact exec_of_succeeds herr ⟨hctv, w, hw, rfl, rfl, rfl⟩

end Sys2Proof.Machine
end

section
/-! PROOF. The decoder: `DEC_BIT`, `DEC_EOS`, and the walk of the tree against HUF's loop (46_decoder.md R204 to R208). -/

namespace Sys2Proof.Machine

/-! ## The walk and HUF's loop (R208) -/

/-- While alive, the decoder is at the end of the candidate's path (R34, R208 b). -/
theorem Stands.followPath_cand {t : CodeTree} {s : State} {l : HufLoop} (ht : HoldsTree s.tm s.root t) (h : Stands t s l)
    (halive : s.ddead = false) : followPath s.tm s.root l.cand = some s.dnode := by
  cases t with
  | leaf x =>
    obtain ⟨hroot, -⟩ := id h
    rw [(h.cand_nil_iff ht).2 ⟨hroot, halive⟩, hroot]
    exact if_pos ht.root_lt
  | internal z o =>
    obtain ⟨-, hpath, -⟩ := h
    exact hpath

/-- A dead candidate is one of a degenerate tree, whose only code word is `"0"`, and begins with 1: no code word extends it (R208 c). -/
theorem Stands.lookupCode_dead {t : CodeTree} {s : State} {l : HufLoop} (h : Stands t s l) (hdead : s.ddead = true)
    (more : List Digit) : lookupCode t (l.cand ++ more) = none := by
  cases t with
  | leaf x =>
    obtain ⟨-, hcand⟩ := h
    rw [if_pos hdead] at hcand
    obtain ⟨c, hcand⟩ := hcand
    rw [hcand]
    rfl
  | internal z o =>
    obtain ⟨halive, -⟩ := h
    rw [halive] at hdead
    cases hdead

/-- Settles O41: what the decoder's state stands for after each digit is the candidate of HUF's loop. -/
theorem walkImplementsHufLoop : Obligations.WalkImplementsHufLoop := by
  unfold Obligations.WalkImplementsHufLoop
  intro s t ds herr hrootv htree hroot halive
  obtain ⟨u, out, hrun, hframe, hstands, hsym, hout⟩ := decBit_run (ds := ds) herr hrootv htree (stands_fresh htree hroot halive [])
  have htree' : HoldsTree u.tm u.root t := by rw [hframe]; exact htree
  refine ⟨u, hrun, ?_, hstands.followPath_cand htree', fun hdead => ⟨fun hnil => ?_, hstands.lookupCode_dead hdead⟩,
    hstands.cand_nil_iff htree'⟩
  · rw [hsym, hout, List.nil_append]
  · obtain ⟨-, hlive⟩ := (hstands.cand_nil_iff htree').1 hnil
    exact absurd hdead (by simp [hlive])

/-! ## The cases of `DEC_BIT` (R204) -/

section

variable {s : State} {x : Byte} {rz ro z o : NodeId}

/-- A dead candidate consumes the digit. -/
theorem succeeds_decBit_of_dead (hrootv : s.rootv = true) (hdead : s.ddead = true) (b : Digit) :
    Succeeds (.decBit b) s s 0#16 0#32 :=
  ⟨hrootv, rfl, .inl ⟨hdead, rfl, rfl⟩⟩

/-- The digit 0 is the code word of a degenerate tree. -/
theorem succeeds_decBit_zero_of_degenerate (hrootv : s.rootv = true) (halive : s.ddead = false)
    (hroot : readNode s.tm s.root = some (.leaf x)) : Succeeds (.decBit false) s (emitSym x s) (symResult x) 0#32 :=
  ⟨hrootv, rfl, .inr (.inl ⟨halive, x, hroot, .inl ⟨rfl, rfl, rfl⟩⟩)⟩

/-- No code word of a degenerate tree begins with the digit 1. -/
theorem succeeds_decBit_one_of_degenerate (hrootv : s.rootv = true) (halive : s.ddead = false)
    (hroot : readNode s.tm s.root = some (.leaf x)) : Succeeds (.decBit true) s { s with ddead := true } 0#16 0#32 :=
  ⟨hrootv, rfl, .inr (.inl ⟨halive, x, hroot, .inr ⟨rfl, rfl, rfl⟩⟩)⟩

variable (hrootv : s.rootv = true) (halive : s.ddead = false) (hroot : readNode s.tm s.root = some (.internal rz ro))
  (hdnode : readNode s.tm s.dnode = some (.internal z o)) {b : Digit}

include hrootv halive hroot hdnode

/-- An edge to a Leaf completes its symbol, and the decoder is at the root again. -/
theorem succeeds_decBit_to_leaf (hchild : readNode s.tm (if b then o else z) = some (.leaf x)) :
    Succeeds (.decBit b) s (emitSym x { s with dnode := s.root }) (symResult x) 0#32 :=
  ⟨hrootv, rfl, .inr (.inr ⟨halive, rz, ro, z, o, hroot, hdnode, .inl ⟨x, hchild, rfl, rfl⟩⟩)⟩

/-- An edge to an Internal node moves the decoder there. -/
theorem succeeds_decBit_to_internal {cz co : NodeId} (hchild : readNode s.tm (if b then o else z) = some (.internal cz co)) :
    Succeeds (.decBit b) s { s with dnode := if b then o else z } 0#16 0#32 :=
  ⟨hrootv, rfl, .inr (.inr ⟨halive, rz, ro, z, o, hroot, hdnode, .inr ⟨cz, co, hchild, rfl, rfl⟩⟩)⟩

end

/-- With the invariant and a tree, some case of `DEC_BIT` applies, so that the digit is consumed (R204, R207). -/
theorem Inv.decBit_succeeds {s : State} (h : Inv s) (hrootv : s.rootv = true) (b : Digit) :
    ∃ u a, Succeeds (.decBit b) s u a 0#32 := by
  obtain ⟨t, htree, -⟩ := h.exists_tree hrootv
  cases hdead : s.ddead with
  | true => exact ⟨_, _, succeeds_decBit_of_dead hrootv hdead b⟩
  | false =>
    obtain ⟨x, -, hroot⟩ | ⟨-, -, rz, ro, -, hroot⟩ := htree.readNode_root
    · cases b with
      | false => exact ⟨_, _, succeeds_decBit_zero_of_degenerate hrootv hdead hroot⟩
      | true => exact ⟨_, _, succeeds_decBit_one_of_degenerate hrootv hdead hroot⟩
    · obtain ⟨-, z, o, hdnode⟩ := h.dnode_internal hrootv hroot
      obtain ⟨v, hchild⟩ := Option.ne_none_iff_exists'.1 (htree.child_exists hdnode b)
      cases v with
      | leaf x => exact ⟨_, _, succeeds_decBit_to_leaf hrootv hdead hroot hdnode hchild⟩
      | internal cz co => exact ⟨_, _, succeeds_decBit_to_internal hrootv hdead hroot hdnode hchild⟩

/-- Settles O39: one way of `DEC_BIT` to succeed per case, and with the invariant the decoder's place makes one of them apply. -/
theorem decBitFollowsOneEdge : Obligations.DecBitFollowsOneEdge := by
  unfold Obligations.DecBitFollowsOneEdge
  refine ⟨cmdWord_digit 0x70#8, fun s b herr => ⟨fun hno => ?_, fun hrootv hdead => ?_, fun hrootv halive x hroot => ⟨?_, ?_⟩,
    fun hrootv halive rz ro z o c hroot hdnode hc => ?_⟩, fun s hinv hrootv => ⟨fun rz ro hroot => ?_, fun x hroot => ?_,
    fun herr b => ?_⟩⟩
  · exact exec_of_faults (k := .seqError) herr ⟨rfl, hno⟩
  · exact exec_of_succeeds herr (succeeds_decBit_of_dead hrootv hdead b)
  · rintro rfl
    rw [← symResult_eq]
    exact exec_of_succeeds herr (succeeds_decBit_zero_of_degenerate hrootv halive hroot)
  · rintro rfl
    exact exec_of_succeeds herr (succeeds_decBit_one_of_degenerate hrootv halive hroot)
  · obtain rfl : c = if b then o else z := by rw [hc]; cases b <;> rfl
    refine ⟨fun x hchild => ?_, fun cz co hchild => ?_⟩
    · rw [← symResult_eq]
      exact exec_of_succeeds herr (succeeds_decBit_to_leaf hrootv halive hroot hdnode hchild)
    · exact exec_of_succeeds herr (succeeds_decBit_to_internal hrootv halive hroot hdnode hchild)
  · obtain ⟨halive, z, o, hdnode⟩ := hinv.dnode_internal hrootv hroot
    exact ⟨readNode_eq_some_lt hdnode, ⟨z, o, hdnode⟩, halive⟩
  · exact hinv.dnode_root hrootv hroot
  · obtain ⟨u, a, hsucceeds⟩ := hinv.decBit_succeeds hrootv b
    exact ⟨_, exec_of_succeeds herr hsucceeds, hsucceeds.err.trans herr⟩

/-! ## The end of the stream (R205) -/

/-- Settles O40: a clear `ROOTV` and a code word in progress are the two faults of `DEC_EOS`. -/
theorem decEosChecksTheCandidate : Obligations.DecEosChecksTheCandidate := by
  unfold Obligations.DecEosChecksTheCandidate
  refine ⟨rfl, fun s herr => ⟨fun hno => ?_, fun hrootv hmid => ?_, fun hrootv hroot halive => ?_⟩⟩
  · exact exec_of_faults (k := .seqError) herr (.inl ⟨rfl, hno⟩)
  · exact exec_of_faults (k := .truncatedStream) herr (.inr ⟨rfl, hrootv, hmid⟩)
  · exact exec_of_succeeds herr ⟨hrootv, hroot, halive, rfl, rfl, rfl⟩

end Sys2Proof.Machine
end

section
/-! PROOF. Every step from a state with the invariant goes on and keeps it (10_state.md R23 to R33, 70_reset_and_hazards.md R322,
49_properties.md R255). -/

namespace Sys2Proof.Machine

variable {s t : State}

/-- Every command completes and keeps the invariant. -/
theorem exec_keeps (h : Inv s) (i : Instr) : Keeps (exec i s) := by
  cases i with
  | rst => exact execRst_keeps s
  | stat => exact execStat_keeps h
  | ftClr => exact execFtClr_keeps h
  | ftInc x => exact execFtInc_keeps h x
  | ftRd x => exact execFtRd_keeps h x
  | pqClr => exact execPqClr_keeps h
  | pqPush pay prio => exact execPqPush_keeps h pay prio
  | pqPop => exact execPqPop_keeps h
  | pqLen => exact execPqLen_keeps h
  | tbBuild => exact execTbBuild_keeps h
  | hdClr => exact execHdClr_keeps h
  | hdWr x => exact execHdWr_keeps h x
  | hdParse => exact execHdParse_keeps h
  | hdSer => exact execHdSer_keeps h
  | hdLen => exact execHdLen_keeps h
  | ctBuild => exact execCtBuild_keeps h
  | ctLen x => exact execCtLen_keeps h x
  | encSym x => exact execEncSym_keeps h x
  | decBit b => exact execDecBit_keeps h b
  | decEos => exact execDecEos_keeps h

/-- Every step goes on and keeps the invariant (R322). -/
theorem step_keeps (h : Inv s) : Keeps (step s) := by
  rcases step_cases s with ⟨_, hs⟩ | ⟨rest, _, hs⟩ | ⟨w, i, rest, _, _, hs⟩ | ⟨w, rest, _, _, hs⟩ <;> rw [hs]
  · exact keeps_next h
  · exact keeps_next (Inv.clearBlock _)
  · exact exec_keeps (h.withInput rest) i
  · exact illegalWord_keeps (h.withInput rest)

/-- Where a result that keeps the invariant goes on to, the invariant holds. -/
theorem Keeps.inv {r : Result} (hk : Keeps r) (h : r = .next t) : Inv t := by
  obtain ⟨u, hu, hinv⟩ := hk
  obtain rfl : t = u := next_comm.1 (hu.symm.trans h)
  exact hinv

/-- Settles O48: each command, the illegal words and the builds under every tie-break keep the invariant. -/
theorem stepKeepsTheInvariant : Obligations.StepKeepsTheInvariant := by
  unfold Obligations.StepKeepsTheInvariant
  intro s t hinv
  exact ⟨(step_keeps hinv).inv, fun tb htb => (execTbBuildWith_keeps htb hinv).inv⟩

end Sys2Proof.Machine
end

section
/-! PROOF. Every command word is answered, and the host's run of a sequence ends at its first failure (47_sequences.md R220, R232,
30_encoding.md R75, 70_reset_and_hazards.md R322). -/

namespace Sys2Proof.Machine

/-! ## One command word -/

section

variable {i : Instr} {s t : State}

/-- A step on a command word takes that word and no later input (R220). -/
theorem step_cmd_input {w : CmdWord} {rest : List PortEvent} (hin : s.input = .cmd w :: rest) (h : step s = .next t) :
    t.input = rest := by
  cases hdec : decode w with
  | some i => exact exec_input ((step_legal hin hdec).symm.trans h)
  | none => rcases illegalWord_next_iff.1 ((step_illegal hin hdec).symm.trans h) with ⟨_, rfl⟩ | ⟨_, rfl⟩ <;> rfl

/-- From a state with the invariant a command word gets one response, whose reserved byte is 0 (R75). -/
theorem step_cmd_responds (hinv : Inv s) {w : CmdWord} {rest : List PortEvent} (hin : s.input = .cmd w :: rest) :
    ∃ t r, step s = .next t ∧ t.input = rest ∧ t.rspout = s.rspout ++ [r] ∧ rsvField r = 0#8 := by
  obtain ⟨t, hstep, _⟩ := step_keeps hinv
  obtain ⟨st, a, d, hrsp, _⟩ := statusValues s t w rest hin hstep
  exact ⟨t, rspWord st a d, hstep, step_cmd_input hin hstep, hrsp, rsvField_rspWord st a d⟩

/-- After a command on an unlocked block, or an `RST`, `ERR` is 0 or the failure kind that the response reports (60_exceptions.md R276). -/
theorem exec_err_eq_lastFailure (hopen : s.err = 0#8 ∨ i = .rst) (h : exec i s = .next t) : t.err = t.lastFailure.getD 0#8 := by
  rcases exec_next_iff.1 h with ⟨_, ⟨k, _, rfl⟩ | ⟨u, a, d, hs, rfl⟩⟩ | ⟨hlock, hi, _⟩
  · have hne : k.code ≠ stOk := code_ne_zero k
    simp [takeFault, hne]
  · have hu : u.err = 0#8 := by rw [hs.err, ite_eq_left_iff]; exact hopen.resolve_right
    simp [hu]
  · rcases hopen with herr | rfl
    · exact absurd herr hlock
    · cases hi

end

/-! ## The host's run -/

/-- The responses of a run: one of `ST_OK` per command when the host reports no failure; else those of the commands before the failing
one, and last the response whose `ST` is the failure kind reported (R220, R232). -/
def RunResponses (is : List Instr) (failure : Option (BitVec 8)) (rs : List RspWord) : Prop :=
  (failure = none → rs.length = is.length ∧ ∀ r ∈ rs, statusField r = stOk) ∧
  ∀ k, failure = some k → k ≠ stOk ∧ rs.length ≤ is.length ∧
    ∃ before last, rs = before ++ [last] ∧ (∀ r ∈ before, statusField r = stOk) ∧ statusField last = k

theorem runResponses_nil : RunResponses [] none [] := ⟨by simp, by simp⟩

/-- A run ends with a response that is not `ST_OK`. -/
theorem runResponses_stop {i : Instr} {is : List Instr} {r : RspWord} (h : statusField r ≠ stOk) :
    RunResponses (i :: is) (some (statusField r)) [r] := by
  refine ⟨by simp, fun k hk => ?_⟩
  obtain rfl : statusField r = k := Option.some.inj hk
  exact ⟨h, by simp, [], r, rfl, by simp, rfl⟩

/-- A run goes on after a response of `ST_OK`. -/
theorem RunResponses.cons {i : Instr} {is : List Instr} {failure : Option (BitVec 8)} {r : RspWord} {rs : List RspWord}
    (hr : statusField r = stOk) (h : RunResponses is failure rs) : RunResponses (i :: is) failure (r :: rs) := by
  obtain ⟨hall, hlast⟩ := h
  refine ⟨fun hf => ?_, fun k hk => ?_⟩
  · obtain ⟨hlen, hok⟩ := hall hf
    exact ⟨by simp [hlen], List.forall_mem_cons.2 ⟨hr, hok⟩⟩
  · obtain ⟨hne, hlen, before, last, rfl, hok, hst⟩ := hlast k hk
    exact ⟨hne, by simpa using hlen, r :: before, last, rfl, List.forall_mem_cons.2 ⟨hr, hok⟩, hst⟩

/-- Where every command gets one response, a run adds the responses that its report says (R220). -/
theorem hostRun_responses {perform : Instr → State → Result}
    (hperform : ∀ i s t, perform i s = .next t → ∃ r, t.rspout = s.rspout ++ [r]) {is : List Instr} {s t : State}
    {failure : Option (BitVec 8)} (h : hostRun perform is s = .next ⟨t, failure⟩) :
    ∃ rs, t.rspout = s.rspout ++ rs ∧ RunResponses is failure rs := by
  induction is generalizing s with
  | nil =>
    obtain ⟨rfl, rfl⟩ : s = t ∧ none = failure := by simpa using h
    exact ⟨[], by simp, runResponses_nil⟩
  | cons i is ih =>
    cases hp : perform i s with
    | fault f => simp [hostRun, hp] at h
    | refused r => simp [hostRun, hp] at h
    | next u =>
      obtain ⟨r, hr⟩ := hperform i s u hp
      have hlast := lastFailure_of_rspout hr
      by_cases hst : statusField r = stOk
      · rw [if_pos hst] at hlast
        obtain ⟨rs, hrs, hres⟩ := ih ((hostRun_ok hp hlast).symm.trans h)
        exact ⟨r :: rs, by rw [hrs, hr, List.append_assoc, List.singleton_append], hres.cons hst⟩
      · rw [if_neg hst] at hlast
        obtain ⟨rfl, rfl⟩ : u = t ∧ some (statusField r) = failure := by simpa [hostRun_stop hp hlast] using h
        exact ⟨[r], hr, runResponses_stop hst⟩

/-- The responses of a run of this block's commands. -/
theorem performAll_responses {is : List Instr} {s t : State} {failure : Option (BitVec 8)} (h : performAll is s = .next ⟨t, failure⟩) :
    ∃ rs, t.rspout = s.rspout ++ rs ∧ RunResponses is failure rs :=
  hostRun_responses (fun _ _ _ hexec => (exec_responds hexec).imp fun _ => And.left) h

/-- From a state with the invariant a run ends, and the invariant holds at its end; on an unlocked block `ERR` is then what the host reports
(R220, R322). -/
theorem performAll_ends {is : List Instr} {s : State} (hinv : Inv s) :
    ∃ t failure, performAll is s = .next ⟨t, failure⟩ ∧ Inv t ∧ t.input = s.input ∧
      ((s.err = 0#8 ∨ ∃ rest, is = .rst :: rest) → t.err = failure.getD 0#8) := by
  induction is generalizing s with
  | nil => exact ⟨s, none, rfl, hinv, rfl, by simp⟩
  | cons i is ih =>
    obtain ⟨u, hexec, hinv'⟩ := exec_keeps hinv i
    have herr : (s.err = 0#8 ∨ ∃ rest, i :: is = .rst :: rest) → u.err = u.lastFailure.getD 0#8 := fun hopen =>
      exec_err_eq_lastFailure (hopen.imp_right (by rintro ⟨rest, hrest⟩; exact (List.cons.inj hrest).1)) hexec
    cases hlast : u.lastFailure with
    | some k => exact ⟨u, some k, performAll_stop hexec hlast, hinv', exec_input hexec, hlast ▸ herr⟩
    | none =>
      obtain ⟨t, failure, hrun, ht, hinput, herr'⟩ := ih hinv'
      exact ⟨t, failure, (performAll_cons hexec hlast).trans hrun, ht, hinput.trans (exec_input hexec), fun hopen =>
        herr' (.inl (by rw [herr hopen, hlast]; rfl))⟩

/-- Settles O49: a step with the invariant goes on, a command word is answered, and so is every command of a run. -/
theorem everyCommandIsAnswered : Obligations.EveryCommandIsAnswered := by
  unfold Obligations.EveryCommandIsAnswered
  intro s hinv
  refine ⟨(step_keeps hinv).imp fun _ => And.left, fun w rest hin => step_cmd_responds hinv hin, fun is => ?_⟩
  obtain ⟨t, failure, hrun, ht, hinput, herr⟩ := performAll_ends (is := is) hinv
  obtain ⟨rs, hrs, hok, hfail⟩ := performAll_responses hrun
  exact ⟨t, failure, rs, (runSequence_eq decode_encode is s).trans hrun, ht, hinput, hrs, hok, hfail, herr⟩

end Sys2Proof.Machine
end

section
/-! PROOF. Runs command by command, on the block and on a block with another tie-break (47_sequences.md R220, 49_properties.md R255). -/

namespace Sys2Proof.Machine

section

variable {perform : Instr → State → Result} {i : Instr} {is : List Instr} {s u : State} {a : BitVec 16} {d : BitVec 32} {k : ErrKind}

/-- The host goes on after a command that answers `ST_OK` (R220). -/
theorem hostRun_answered (h : perform i s = .next (u.answered a d)) : hostRun perform (i :: is) s = hostRun perform is (u.answered a d) :=
  hostRun_ok h (lastFailure_reply stOk a d u)

/-- The host stops after a command that faults, and reports its code (R220, R232). -/
theorem hostRun_faulted (h : perform i s = .next (u.faulted k.code)) :
    hostRun perform (i :: is) s = .next ⟨u.faulted k.code, some k.code⟩ :=
  hostRun_stop h ((lastFailure_reply k.code 0#16 0#32 { u with err := k.code }).trans (if_neg (code_ne_zero k)))

/-- `RST` leaves the cleared block and answers `ST_OK` (48_system.md R241). -/
theorem exec_rst (s : State) : exec .rst s = .next ((clearBlock s).answered 0#16 0#32) := rfl

end

/-! ## A block with some tie-break (R255) -/

/-- The block's own commands are those of the block with its own tie-break. -/
theorem execWith_block : execWith blockTieBreak = exec := by
  funext i s
  unfold execWith
  split
  · subst_vars; rfl
  · rfl

/-- A run on the block is a run on the block with its own tie-break. -/
theorem runSequence_eq_hostRun : runSequence = hostRun (execWith blockTieBreak) := by
  funext is s
  rw [runSequence_eq decode_encode, performAll, execWith_block]

/-- A run of the block itself or of a block with another lawful tie-break. -/
theorem exists_lawful_hostRun {run : List Instr → State → RunResult}
    (h : run = runSequence ∨ ∃ tb : TieBreak, tb.Lawful ∧ run = hostRun (execWith tb)) :
    ∃ tb : TieBreak, tb.Lawful ∧ run = hostRun (execWith tb) := by
  rcases h with rfl | h
  · exact ⟨blockTieBreak, blockTieBreak_lawful, runSequence_eq_hostRun⟩
  · exact h

section

variable {tb : TieBreak} {s t : State}

/-- Everything `TB_BUILD` can do under a tie-break. -/
theorem execTbBuildWith_cases (h : execTbBuildWith tb s = .next t) :
    (∃ b r, buildTree tb s.ft = .ok (b, r) ∧ t = { installTree b.tm r s with pq := b.pq }.answered 0#16 (lenResult b.tm.length)) ∨
    (∃ k : ErrKind, t = s.faulted k.code) ∨ (s.err ≠ 0#8 ∧ t = refuseLocked s) := by
  rcases whenUnlocked_next_iff.1 h with ⟨_, h⟩ | hlocked
  · cases hb : buildTree tb s.ft with
    | ok p => rw [hb] at h; exact .inl ⟨p.1, p.2, rfl, succeed_next_iff.1 h⟩
    | error k => rw [hb] at h; exact .inr (.inl ⟨k, raise_next_iff.1 h⟩)
  · exact .inr (.inr hlocked)

/-- A command under any tie-break returns one response (30_encoding.md R75). -/
theorem execWith_responds {i : Instr} (h : execWith tb i s = .next t) : ∃ r, t.rspout = s.rspout ++ [r] := by
  unfold execWith at h
  split at h
  · rcases execTbBuildWith_cases h with ⟨_, _, _, rfl⟩ | ⟨_, rfl⟩ | ⟨_, rfl⟩ <;> exact ⟨_, rfl⟩
  · exact (exec_responds h).imp fun _ => And.left

/-- A run without failure under any tie-break has one response of `ST_OK` per command (R220). -/
theorem hostRun_execWith_allOk {is : List Instr} (h : hostRun (execWith tb) is s = .next ⟨t, none⟩) :
    ∃ rs, t.rspout = s.rspout ++ rs ∧ rs.length = is.length ∧ ∀ r ∈ rs, statusField r = stOk := by
  obtain ⟨rs, hrs, hok, _⟩ := hostRun_responses (fun _ _ _ => execWith_responds) h
  exact ⟨rs, hrs, hok rfl⟩

/-- `TB_BUILD` under a tie-break installs the tree of the counts when there is a symbol and no sum can overflow (42_tree_builder.md
R132). -/
theorem execWith_tbBuild_built (htb : tb.Lawful) (herr : s.err = 0#8)
    (hfit : (presentSyms s.ft).length = 1 ∨ 2 ≤ (presentSyms s.ft).length ∧ totalCount s.ft ≤ Config.cmax) :
    ∃ b r tree, Built tb s.ft b r tree ∧
      execWith tb .tbBuild s = .next ({ installTree b.tm r s with pq := b.pq }.answered 0#16 (lenResult b.tm.length)) := by
  obtain ⟨b, r, tree, hbuild, hB⟩ := exists_built htb hfit
  exact ⟨b, r, tree, hB, by rw [execWith, if_pos rfl, execTbBuildWith, whenUnlocked_open herr, hbuild]; rfl⟩

end

end Sys2Proof.Machine
end

section
/-! PROOF. `COMPRESS`: the header of the tree and the code words of the input (47_sequences.md R221 to R223). -/

namespace Sys2Proof.Machine

/-- Every symbol at a leaf has a code word (44_code_table.md R171). -/
theorem CodeTree.exists_word (t : CodeTree) : ∃ word : Byte → List Digit, ∀ x ∈ t.leafSyms, (word x, x) ∈ t.codeWords := by
  have hex (x : Byte) : ∃ w, x ∈ t.leafSyms → (w, x) ∈ t.codeWords := by
    by_cases hx : x ∈ t.leafSyms
    · rw [← t.codeWords_map_snd, List.mem_map] at hx
      obtain ⟨⟨w, y⟩, hmem, rfl⟩ := hx
      exact ⟨w, fun _ => hmem⟩
    · exact ⟨[], fun h => absurd h hx⟩
  exact Classical.skolem.1 hex

/-- `RST` and one `FT_INC` per byte of an input that fits: the counts of a cleared block are the occurrences (R221,
40_frequency.md R100). -/
theorem rst_ftInc_run (bytes : List Byte) (s : State) (hlen : bytes.length ≤ Config.cmax) :
    ∃ ft rsp, performAll (Instr.rst :: bytes.map Instr.ftInc) s = .next ⟨{ clearBlock s with ft := ft, rspout := rsp }, none⟩ ∧
      ∀ x, (symGet ft x).toNat = bytes.count x := by
  have hzero (x : Byte) : (symGet ((clearBlock s).answered 0#16 0#32).ft x).toNat = 0 :=
    congrArg BitVec.toNat (symGet_replicate 0#32 x)
  obtain ⟨hrun, hget⟩ := ftInc_run (bytes := bytes) (s := (clearBlock s).answered 0#16 0#32) rfl
    (fun x => by rw [hzero, Nat.zero_add]; exact List.count_le_length.trans hlen)
  exact ⟨_, _, (hostRun_answered (exec_rst s)).trans hrun, fun x => by rw [hget, hzero, Nat.zero_add]⟩

section

variable {ft : SymTable Count} {bytes : List Byte} (hcount : ∀ x, (symGet ft x).toNat = bytes.count x)
include hcount

/-- The present symbols are those of the input. -/
theorem mem_presentSyms_of_counts {x : Byte} : x ∈ presentSyms ft ↔ x ∈ bytes := by
  rw [mem_presentSyms, ← List.count_pos_iff, ← hcount, Nat.pos_iff_ne_zero, Ne, Ne, ← BitVec.toNat_inj]
  rfl

/-- A nonempty input that fits has a tree (R223). -/
theorem counts_fit (hne : bytes ≠ []) (hlen : bytes.length ≤ Config.cmax) :
    (presentSyms ft).length = 1 ∨ 2 ≤ (presentSyms ft).length ∧ totalCount ft ≤ Config.cmax := by
  obtain ⟨x, hx⟩ := List.exists_mem_of_ne_nil _ hne
  have hpos := List.length_pos_of_mem ((mem_presentSyms_of_counts hcount).2 hx)
  rw [totalCount_eq_length hcount]
  omega

end

/-! ## The table and the code words (R221, R229) -/

section

variable {s : State} {tree : CodeTree} {word : Byte → List Digit} {bytes : List Byte} (herr : s.err = 0#8) (hrootv : s.rootv = true)
  (htree : HoldsTree s.tm s.root tree) (hnodup : tree.leafSyms.Nodup) (hword : ∀ x ∈ tree.leafSyms, (word x, x) ∈ tree.codeWords)
  (hbytes : ∀ x ∈ bytes, x ∈ tree.leafSyms)
include herr hrootv htree hnodup hword hbytes

/-- `CT_BUILD` and one `ENC_SYM` per byte with a leaf emit the code words of the bytes (44_code_table.md R172, 45_encoder.md R193). -/
theorem ctBuild_encSym_run :
    ∃ ct rsp, performAll (Instr.ctBuild :: bytes.map Instr.encSym) s =
        .next ⟨{ s with ct := ct, ctv := true, bitout := s.bitout ++ bytes.flatMap word, rspout := rsp }, none⟩ ∧
      ∀ x w, symGet ct x = some w ↔ (w, x) ∈ tree.codeWords := by
  obtain ⟨ct, hexec, hct⟩ := exec_ctBuild herr hrootv htree hnodup
  have henc := encSym_run (w := word) (bytes := bytes)
    (s := { s with ct := ct, ctv := true }.answered 0#16 (lenResult tree.leafCount)) herr rfl
    (fun x hx => (hct x (word x)).2 (hword x (hbytes x hx)))
  exact ⟨ct, _, (hostRun_answered hexec).trans henc, hct⟩

/-- With `HD_SER` first, the header of the tree is emitted too (43_header_codec.md R152). -/
theorem hdSer_ctBuild_encSym_run :
    ∃ ct rsp, performAll (.hdSer :: .ctBuild :: bytes.map Instr.encSym) s =
      .next ⟨{ s with hb := tree.ser, hdrout := s.hdrout ++ tree.ser, ct := ct, ctv := true,
                      bitout := s.bitout ++ bytes.flatMap word, rspout := rsp }, none⟩ := by
  obtain ⟨ct, rsp, hrun, _⟩ := ctBuild_encSym_run (bytes := bytes)
    (s := { s with hb := tree.ser, hdrout := s.hdrout ++ tree.ser }.answered 0#16 (lenResult tree.ser.length))
    herr hrootv htree hnodup hword hbytes
  exact ⟨ct, rsp, (hostRun_answered (exec_hdSer herr hrootv htree)).trans hrun⟩

end

/-! ## The whole run -/

/-- What `COMPRESS` leaves: the tree of the input's symbols, its header and the code words of the input emitted, and nothing else (R221,
R223). -/
structure Compressed (bytes : List Byte) (tree : CodeTree) (word : Byte → List Digit) (s t : State) : Prop where
  err : t.err = 0#8
  holds : HoldsTree t.tm t.root tree
  leaves : ∀ x, x ∈ tree.leafSyms ↔ x ∈ bytes
  nodup : tree.leafSyms.Nodup
  words : ∀ x ∈ bytes, (word x, x) ∈ tree.codeWords
  hdrout : t.hdrout = s.hdrout ++ tree.ser
  bitout : t.bitout = s.bitout ++ bytes.flatMap word
  symout : t.symout = s.symout

/-- `COMPRESS` as its two parts, the second one beginning with the build. -/
theorem compress_eq (bytes : List Byte) :
    compress bytes = (Instr.rst :: bytes.map Instr.ftInc) ++ (Instr.tbBuild :: .hdSer :: .ctBuild :: bytes.map Instr.encSym) := by
  simp [compress]

theorem compress_length (bytes : List Byte) : (compress bytes).length = 2 * bytes.length + 4 := by
  simp [compress]
  omega

/-- `COMPRESS` of a nonempty input that fits succeeds, under any lawful tie-break (R221, R223). -/
theorem compress_run {tb : TieBreak} (htb : tb.Lawful) {bytes : List Byte} (s : State) (hne : bytes ≠ [])
    (hlen : bytes.length ≤ Config.cmax) :
    ∃ t tree word, hostRun (execWith tb) (compress bytes) s = .next ⟨t, none⟩ ∧ Compressed bytes tree word s t := by
  obtain ⟨ft, rsp, hcounted, hcount⟩ := rst_ftInc_run bytes s hlen
  obtain ⟨b, r, tree, hB, hbuild⟩ := execWith_tbBuild_built (s := { clearBlock s with ft := ft, rspout := rsp }) htb rfl
    (counts_fit hcount hne hlen)
  have hleaves (x : Byte) : x ∈ tree.leafSyms ↔ x ∈ bytes := hB.leaves.mem_iff.trans (mem_presentSyms_of_counts hcount)
  have hnodup : tree.leafSyms.Nodup := hB.leaves.nodup_iff.2 (presentSyms_nodup ft)
  obtain ⟨word, hword⟩ := tree.exists_word
  obtain ⟨ct, rsp', hrest⟩ := hdSer_ctBuild_encSym_run (bytes := bytes)
    (s := { installTree b.tm r { clearBlock s with ft := ft, rspout := rsp } with pq := b.pq }.answered 0#16 (lenResult b.tm.length))
    rfl rfl hB.tree hnodup hword (fun x => (hleaves x).2)
  have htail := (hostRun_answered hbuild).trans ((hostRun_execWith (by simp)).trans hrest)
  have hrun := (hostRun_append ((hostRun_execWith (by simp)).trans hcounted)).trans htail
  rw [← compress_eq] at hrun
  exact ⟨_, tree, word, hrun, rfl, hB.tree, hleaves, hnodup, fun x hx => hword x ((hleaves x).2 hx), rfl, rfl, rfl⟩

/-- `COMPRESS` of the empty input ends with the fault of `TB_BUILD` on a cleared block (42_tree_builder.md R134, log entry 14). -/
theorem compress_nil_run (s : State) :
    performAll (compress []) s = .next ⟨((clearBlock s).answered 0#16 0#32).faulted 0x03#8, some 0x03#8⟩ := by
  have hzero (x : Byte) : symGet (clearBlock s).ft x = 0#32 := symGet_replicate 0#32 x
  have hbuild := emptyInputBuildsNothing.1 ((clearBlock s).answered 0#16 0#32) rfl hzero
  exact (hostRun_answered (exec_rst s)).trans (hostRun_faulted (k := .emptyInput) hbuild)

/-- Settles O57: the run of `COMPRESS`, with its responses counted. -/
theorem compressResult : Obligations.CompressResult := by
  unfold Obligations.CompressResult
  refine ⟨fun bytes s hne hlen => ?_, fun s => ?_⟩
  · rw [runSequence_eq_hostRun]
    obtain ⟨t, tree, word, hrun, hC⟩ := compress_run blockTieBreak_lawful s hne hlen
    have hrsp := hostRun_execWith_allOk hrun
    rw [compress_length] at hrsp
    exact ⟨t, tree, word, hrun, hC.err, hC.holds, hC.leaves, hC.nodup, hC.words, hC.hdrout, hC.bitout, hC.symout, hrsp⟩
  · refine ⟨_, (runSequence_eq decode_encode _ s).trans (compress_nil_run s), rfl, rfl, rfl, rfl, ?_⟩
    exact List.append_assoc _ _ _

end Sys2Proof.Machine
end

section
/-! PROOF. `DECOMPRESS`: the digits as code words in one way, and the run on them (47_sequences.md R226, R227, 49_properties.md R256,
R257). -/

namespace Sys2Proof.Machine

/-- The digits `ds` are the code words `ws` one after another, and a rest no beginning of which is a code word. -/
structure Parses (tree : CodeTree) (ds : List Digit) (ws : List (List Digit × Byte)) (rest : List Digit) : Prop where
  split : ds = ws.flatMap Prod.fst ++ rest
  words : ∀ c ∈ ws, c ∈ tree.codeWords
  stuck : ∀ p x, p <+: rest → (p, x) ∉ tree.codeWords

section

variable {tree : CodeTree} {ds rest : List Digit} {ws : List (List Digit × Byte)}

/-- One more code word in front. -/
theorem Parses.cons (h : Parses tree ds ws rest) {c : List Digit × Byte} (hc : c ∈ tree.codeWords) :
    Parses tree (c.1 ++ ds) (c :: ws) rest :=
  ⟨by rw [h.split, List.flatMap_cons, List.append_assoc], List.forall_mem_cons.2 ⟨hc, h.words⟩, h.stuck⟩

/-- Every digit sequence parses: take code words off its front while there is one. -/
theorem exists_parses (tree : CodeTree) (ds : List Digit) : ∃ ws rest, Parses tree ds ws rest := by
  by_cases h : ∃ p x, p <+: ds ∧ (p, x) ∈ tree.codeWords
  · obtain ⟨p, x, ⟨ds', hds⟩, hword⟩ := h
    have hpos : 0 < p.length := List.length_pos_iff.2 (CodeTree.codeWord_ne_nil hword)
    have hlt : ds'.length < ds.length := by rw [← hds, List.length_append]; omega
    obtain ⟨ws, rest, hparse⟩ := exists_parses tree ds'
    exact ⟨(p, x) :: ws, rest, hds ▸ hparse.cons hword⟩
  · exact ⟨[], ds, rfl, by simp, fun p x hp hword => h ⟨p, x, hp, hword⟩⟩
termination_by ds.length
decreasing_by exact hlt

/-- A digit sequence parses in one way, since no code word begins another (R256). -/
theorem Parses.unique {ws' : List (List Digit × Byte)} {rest' : List Digit} (h : Parses tree ds ws rest)
    (h' : Parses tree ds ws' rest') : ws' = ws ∧ rest' = rest := by
  induction ws generalizing ds ws' with
  | nil =>
    cases ws' with
    | nil => exact ⟨rfl, by simpa using h'.split.symm.trans h.split⟩
    | cons c ws' =>
      refine absurd (h'.words c (by simp)) (h.stuck c.1 c.2 ⟨ws'.flatMap Prod.fst ++ rest', ?_⟩)
      simpa using h'.split.symm.trans h.split
  | cons c ws ih =>
    have hc := h.words c (by simp)
    cases ws' with
    | nil =>
      refine absurd hc (h'.stuck c.1 c.2 ⟨ws.flatMap Prod.fst ++ rest, ?_⟩)
      simpa using h.split.symm.trans h'.split
    | cons c' ws' =>
      have hc' := h'.words c' (by simp)
      have hsplit : c.1 ++ (ws.flatMap Prod.fst ++ rest) = c'.1 ++ (ws'.flatMap Prod.fst ++ rest') := by
        simpa using h.split.symm.trans h'.split
      obtain rfl : c' = c := by
        have hpre := List.prefix_or_prefix_of_prefix (List.prefix_append c.1 _) (hsplit ▸ List.prefix_append c'.1 _)
        rcases hpre with hpre | hpre
        · obtain ⟨h1, h2⟩ := CodeTree.codeWords_prefix_eq hc hc' hpre
          exact (Prod.ext h1 h2).symm
        · obtain ⟨h1, h2⟩ := CodeTree.codeWords_prefix_eq hc' hc hpre
          exact Prod.ext h1 h2
      obtain ⟨rfl, rfl⟩ := ih ⟨rfl, fun d hd => h.words d (by simp [hd]), h.stuck⟩
        ⟨List.append_cancel_left hsplit, fun d hd => h'.words d (by simp [hd]), h'.stuck⟩
      exact ⟨rfl, rfl⟩

/-- The loop keeps digits in the candidate while no beginning of them is a code word (46_decoder.md R200). -/
theorem hufLoop_stuck {l : HufLoop} {q : List Digit} (h : ∀ p x, p <+: l.cand ++ q → (p, x) ∉ tree.codeWords) :
    hufLoop tree l q = ⟨l.cand ++ q, l.out⟩ := by
  induction q generalizing l with
  | nil => simp [hufLoop]
  | cons b q ih =>
    have hassoc : l.cand ++ b :: q = (l.cand ++ [b]) ++ q := by simp
    rw [hassoc] at h ⊢
    have hstep : hufLoop tree l (b :: q) = hufLoop tree (hufDigit tree l b) q := rfl
    rw [hstep, hufDigit_nomatch fun x => h _ x (List.prefix_append _ q)]
    exact ih h

/-- The loop on parsed digits emits the symbols of the code words and ends with the rest as its candidate (R257). -/
theorem Parses.hufLoop (h : Parses tree ds ws rest) : hufLoop tree ⟨[], []⟩ ds = ⟨rest, ws.map Prod.snd⟩ := by
  rw [h.split, hufLoop_append, hufLoop_codeWords h.words, hufLoop_stuck (by simpa using h.stuck)]
  simp

end

/-! ## The run (R226, R227) -/

/-- The beginning of `DECOMPRESS` and `ENCODE_WITH`: the header `h` is loaded into a cleared block and parsed (R224, R226, R229). -/
def loadHeader (h : List Byte) : List Instr := .rst :: (hdLoad h ++ [.hdParse])

theorem decompress_eq (h : List Byte) (ds : List Digit) : decompress h ds = loadHeader h ++ (ds.map Instr.decBit ++ [Instr.decEos]) := by
  simp [decompress, loadHeader]

theorem encodeWith_eq (h bytes : List Byte) : encodeWith h bytes = loadHeader h ++ Instr.ctBuild :: bytes.map Instr.encSym := by
  simp [encodeWith, loadHeader]

/-- The state after a tree's header has been loaded and parsed on a cleared block, with the responses `rsp` (R224,
43_header_codec.md R155). -/
def State.loaded (s : State) (tree : CodeTree) (rsp : List RspWord) : State :=
  { installTree (tree.layout 0) 0#9 (clearBlock s) with hb := tree.ser, rspout := rsp }

/-- `DEC_EOS` with an empty candidate ends the run without failure (46_decoder.md R205). -/
theorem decEos_run {u : State} (herr : u.err = 0#8) (hrootv : u.rootv = true) (h : u.dnode = u.root ∧ u.ddead = false) :
    performAll [.decEos] u = .next ⟨u.answered 0#16 0#32, none⟩ :=
  hostRun_answered (exec_of_succeeds herr ⟨hrootv, h.1, h.2, rfl, rfl, rfl⟩)

/-- `DEC_EOS` in a code word ends the run with `TruncatedStream` (R205, R209). -/
theorem decEos_run_truncated {u : State} (herr : u.err = 0#8) (hrootv : u.rootv = true) (h : ¬ (u.dnode = u.root ∧ u.ddead = false)) :
    performAll [.decEos] u = .next ⟨u.faulted 0x04#8, some 0x04#8⟩ := by
  have hmid : u.dnode ≠ u.root ∨ u.ddead = true := by rwa [not_and_or, Bool.not_eq_false] at h
  exact hostRun_faulted (k := .truncatedStream) (exec_of_faults herr (.inr ⟨rfl, hrootv, hmid⟩))

section

variable {tree : CodeTree} (hfit : tree.nodeCount ≤ 511)
include hfit

/-- The header of a tree that fits is parsed to that tree (R224, 43_header_codec.md R160). -/
theorem loadHeader_run (s : State) : ∃ rsp, performAll (loadHeader tree.ser) s = .next ⟨s.loaded tree rsp, none⟩ := by
  have hload := hdLoad_run (s := (clearBlock s).answered 0#16 0#32) rfl (ser_fits (holdsTree_layout hfit))
  exact ⟨_, (hostRun_answered (exec_rst s)).trans ((hostRun_append hload).trans (hostRun_answered (exec_hdParse rfl rfl hfit)))⟩

/-- `DECOMPRESS` before its `DEC_EOS`: the symbols of the code words are emitted, and the rest is the decoder's candidate (R226, R257). -/
theorem decompress_digits_run {ds rest : List Digit} {ws : List (List Digit × Byte)} (hparse : Parses tree ds ws rest) (s : State) :
    ∃ u, performAll (decompress tree.ser ds) s = performAll [.decEos] u ∧ u.err = 0#8 ∧ u.rootv = true ∧
      (rest = [] ↔ u.dnode = u.root ∧ u.ddead = false) ∧
      u.symout = s.symout ++ ws.map Prod.snd ∧ u.hdrout = s.hdrout ∧ u.bitout = s.bitout := by
  obtain ⟨rsp, hload⟩ := loadHeader_run hfit s
  have htree : HoldsTree (s.loaded tree rsp).tm (s.loaded tree rsp).root tree := holdsTree_layout hfit
  obtain ⟨u, out, hbits, hframe, hstands, hsym, hout⟩ := decBit_run (ds := ds) rfl rfl htree (stands_fresh htree rfl rfl [])
  rw [hparse.hufLoop] at hstands hout
  obtain rfl : ws.map Prod.snd = out := hout
  have htree' : HoldsTree u.tm u.root tree := by rw [hframe]; exact htree
  refine ⟨u, ?_, ?_, ?_, hstands.cand_nil_iff htree', hsym, ?_, ?_⟩
  · rw [decompress_eq, performAll_append hload, performAll_append hbits]
  all_goals rw [hframe]; rfl

/-- `DECOMPRESS` emits the symbols of the code words, and ends with `TruncatedStream` when a rest is left (R226, R227). -/
theorem decompress_run {ds rest : List Digit} {ws : List (List Digit × Byte)} (hparse : Parses tree ds ws rest) (s : State) :
    ∃ t, performAll (decompress tree.ser ds) s = .next ⟨t, if rest = [] then none else some 0x04#8⟩ ∧
      t.err = (if rest = [] then 0#8 else 0x04#8) ∧
      t.symout = s.symout ++ ws.map Prod.snd ∧ t.hdrout = s.hdrout ∧ t.bitout = s.bitout := by
  obtain ⟨u, hrun, herr, hrootv, hrest, hout⟩ := decompress_digits_run hfit hparse s
  rw [hrun]
  by_cases hnil : rest = []
  · simp only [if_pos hnil]
    exact ⟨_, decEos_run herr hrootv (hrest.1 hnil), herr, hout⟩
  · simp only [if_neg hnil]
    exact ⟨_, decEos_run_truncated herr hrootv (mt hrest.2 hnil), rfl, hout⟩

end

/-- Settles O58: the one parse of the digits, and the run on it. -/
theorem decompressResult : Obligations.DecompressResult := by
  unfold Obligations.DecompressResult
  intro tree ds s hfit
  obtain ⟨ws, rest, hparse⟩ := exists_parses tree ds
  obtain ⟨t, hrun, herr, hsym, hhdr, hbit⟩ := decompress_run hfit hparse s
  exact ⟨ws, rest, t, hparse.split, hparse.words, hparse.stuck,
    fun ws' rest' hsplit hwords hstuck => hparse.unique ⟨hsplit, hwords, hstuck⟩,
    (runSequence_eq decode_encode _ s).trans hrun, hsym, hhdr, hbit,
    fun h => herr.trans (if_pos h), fun h => herr.trans (if_neg h)⟩

end Sys2Proof.Machine
end

section
/-! PROOF. `ENCODE_WITH`: encoding under a received header (47_sequences.md R229). -/

namespace Sys2Proof.Machine

section

variable {tree : CodeTree} (hfit : tree.nodeCount ≤ 511)
include hfit

/-- `ENCODE_WITH` goes on behind the loaded tree with `CT_BUILD` (R229). -/
theorem encodeWith_run (bytes : List Byte) (s : State) :
    ∃ rsp, performAll (encodeWith tree.ser bytes) s = performAll (Instr.ctBuild :: bytes.map Instr.encSym) (s.loaded tree rsp) := by
  obtain ⟨rsp, hload⟩ := loadHeader_run hfit s
  exact ⟨rsp, by rw [encodeWith_eq, performAll_append hload]⟩

/-- A header that repeats a symbol ends the run at `CT_BUILD` (44_code_table.md R176). -/
theorem encodeWith_dup_run (hdup : ¬ tree.leafSyms.Nodup) (bytes : List Byte) (s : State) :
    ∃ rsp, performAll (encodeWith tree.ser bytes) s = .next ⟨(s.loaded tree rsp).faulted 0x15#8, some 0x15#8⟩ := by
  obtain ⟨rsp, hrun⟩ := encodeWith_run hfit bytes s
  have hbuild := exec_ctBuild_dup (s := s.loaded tree rsp) rfl rfl (holdsTree_layout hfit) hdup
  exact ⟨rsp, hrun.trans (hostRun_faulted (k := .dupSymbol) hbuild)⟩

variable (hnodup : tree.leafSyms.Nodup) {word : Byte → List Digit} (hword : ∀ x ∈ tree.leafSyms, (word x, x) ∈ tree.codeWords)
  {pre : List Byte} (hpre : ∀ y ∈ pre, y ∈ tree.leafSyms)
include hnodup hword hpre

/-- Bytes with leaves are emitted as their code words (45_encoder.md R193). -/
theorem encodeWith_ok_run (s : State) :
    ∃ rsp ct rsp', performAll (encodeWith tree.ser pre) s =
      .next ⟨{ s.loaded tree rsp with ct := ct, ctv := true, bitout := s.bitout ++ pre.flatMap word, rspout := rsp' }, none⟩ ∧
      ∀ x w, symGet ct x = some w ↔ (w, x) ∈ tree.codeWords := by
  obtain ⟨rsp, hrun⟩ := encodeWith_run hfit pre s
  obtain ⟨ct, rsp', henc, hct⟩ := ctBuild_encSym_run (s := s.loaded tree rsp) rfl rfl (holdsTree_layout hfit) hnodup hword hpre
  exact ⟨rsp, ct, rsp', hrun.trans henc, hct⟩

/-- The first byte without a leaf ends the run, and what was emitted before it stays emitted (60_exceptions.md R278). -/
theorem encodeWith_noCode_run {x : Byte} (hx : x ∉ tree.leafSyms) (post : List Byte) (s : State) :
    ∃ t, performAll (encodeWith tree.ser (pre ++ x :: post)) s = .next ⟨t, some 0x14#8⟩ ∧ t.err = 0x14#8 ∧ t.hdrout = s.hdrout ∧
      t.bitout = s.bitout ++ pre.flatMap word ∧ t.symout = s.symout := by
  obtain ⟨rsp, ct, rsp', hrun, hct⟩ := encodeWith_ok_run hfit hnodup hword hpre s
  have hnone : symGet ct x = none := Option.eq_none_iff_forall_ne_some.2 fun w hw =>
    hx (tree.codeWords_map_snd ▸ List.mem_map_of_mem (f := Prod.snd) ((hct x w).1 hw))
  have hfault := exec_of_faults (i := .encSym x) (k := .noCode)
    (s := { s.loaded tree rsp with ct := ct, ctv := true, bitout := s.bitout ++ pre.flatMap word, rspout := rsp' }) rfl
    (.inr ⟨rfl, rfl, hnone⟩)
  have hshape : encodeWith tree.ser (pre ++ x :: post) = encodeWith tree.ser pre ++ (Instr.encSym x :: post.map Instr.encSym) := by
    simp [encodeWith]
  rw [hshape, performAll_append hrun]
  exact ⟨_, hostRun_faulted hfault, rfl, rfl, rfl, rfl⟩

end

/-- Settles O59: the three ends of a run of `ENCODE_WITH`. -/
theorem encodeWithReceivedCodebook : Obligations.EncodeWithReceivedCodebook := by
  unfold Obligations.EncodeWithReceivedCodebook
  intro tree bytes s hfit
  rw [runSequence_eq decode_encode]
  refine ⟨fun hdup => ?_, fun hnodup => ?_⟩
  · obtain ⟨rsp, hrun⟩ := encodeWith_dup_run hfit hdup bytes s
    exact ⟨_, hrun, rfl, rfl, rfl, rfl⟩
  obtain ⟨word, hword⟩ := tree.exists_word
  refine ⟨word, hword, fun hbytes => ?_, ?_⟩
  · obtain ⟨rsp, ct, rsp', hrun, _⟩ := encodeWith_ok_run hfit hnodup hword hbytes s
    exact ⟨_, hrun, rfl, rfl, rfl, rfl⟩
  · rintro pre post x rfl hpre hx
    exact encodeWith_noCode_run hfit hnodup hword hpre hx post s

end Sys2Proof.Machine
end

section
/-! PROOF. The round trip (49_properties.md R250, R255). -/

namespace Sys2Proof.Machine

/-- The code words of a string parse as those code words, without a rest. -/
theorem parses_flatMap_word {tree : CodeTree} {word : Byte → List Digit} {bytes : List Byte}
    (hword : ∀ x ∈ bytes, (word x, x) ∈ tree.codeWords) :
    Parses tree (bytes.flatMap word) (bytes.map fun x => (word x, x)) [] where
  split := by rw [List.flatMap_map, List.append_nil]
  words := List.forall_mem_map.2 hword
  stuck p x hp hcode := CodeTree.codeWord_ne_nil hcode (List.prefix_nil.1 hp)

theorem tbBuild_not_mem_decompress (h : List Byte) (d : List Digit) : .tbBuild ∉ decompress h d := by
  simp [decompress, hdLoad]

/-- Settles O60: `DECOMPRESS` parses the digits as the code words that `COMPRESS` emitted, under the tree of its header. -/
theorem compressDecompressRoundTrip : Obligations.CompressDecompressRoundTrip := by
  unfold Obligations.CompressDecompressRoundTrip
  intro run hrun bytes s u hne hlen
  obtain ⟨tb, htb, rfl⟩ := exists_lawful_hostRun hrun
  obtain ⟨t, tree, word, hcompress, hC⟩ := compress_run htb s hne hlen
  have hfit : tree.nodeCount ≤ 511 := hC.holds.nodeCount.trans_le hC.holds.length_le
  obtain ⟨v, hdecompress, herr, hsym, hhdr, hbit⟩ := decompress_run hfit (parses_flatMap_word hC.words) u
  rw [← hostRun_execWith (tb := tb) (tbBuild_not_mem_decompress _ _), if_pos rfl] at hdecompress
  obtain ⟨rs, hrs, _, hok⟩ := hostRun_execWith_allOk hcompress
  obtain ⟨rs', hrs', _, hok'⟩ := hostRun_execWith_allOk hdecompress
  refine ⟨tree.ser, bytes.flatMap word, t, v, hcompress, hC.err, hC.hdrout, hC.bitout, hC.symout, ⟨rs, hrs, hok⟩,
    hdecompress, herr, ?_, hhdr, hbit, rs', hrs', hok'⟩
  simpa [Function.comp_def] using hsym

end Sys2Proof.Machine
end

section
/-! PROOF. A symbol of a lower count never has the shorter code word (49_properties.md R253, R255). -/

namespace Sys2Proof.Machine

/-- A build that leaves `ERR` = 0 installed the tree of the counts (42_tree_builder.md R136, R137). -/
theorem execTbBuildWith_tree {tb : TieBreak} (htb : tb.Lawful) {s t : State} (h : execTbBuildWith tb s = .next t) (hok : t.err = 0#8) :
    ∃ b r tree, Built tb s.ft b r tree ∧ t.rootv = true ∧ HoldsTree t.tm t.root tree := by
  rcases execTbBuildWith_cases h with ⟨b, r, hbuild, rfl⟩ | ⟨k, rfl⟩ | ⟨hlock, rfl⟩
  · rcases buildTree_spec htb s.ft with ⟨_, hb⟩ | ⟨_, _, b', r', tree, hb, hB⟩ | ⟨_, _, hb⟩ <;> cases hb.symm.trans hbuild
    exact ⟨b, r, tree, hB, rfl, hB.tree⟩
  · exact absurd hok (code_ne_zero k)
  · exact absurd hok hlock

/-- In the tree of a build the code word of a symbol of a greater count is not longer (R253). -/
theorem Built.codeWord_length_le {tb : TieBreak} {ft : SymTable Count} {b : Build} {r : NodeId} {t : CodeTree} (hB : Built tb ft b r t)
    {x y : Byte} {v w : List Digit} (hv : (v, x) ∈ t.codeWords) (hw : (w, y) ∈ t.codeWords) (hlt : symGet ft x < symGet ft y) :
    w.length ≤ v.length := by
  cases t with
  | leaf z =>
    obtain ⟨rfl, _⟩ := Prod.mk.inj (List.mem_singleton.1 hv)
    obtain ⟨rfl, _⟩ := Prod.mk.inj (List.mem_singleton.1 hw)
    exact Nat.le_refl _
  | internal z o => exact built_monotone hB hv hw hlt

/-- Settles O27: both symbols are at leaves of the built tree, and their code words are those of the tree. -/
theorem codeLengthMonotone : Obligations.CodeLengthMonotone := by
  unfold Obligations.CodeLengthMonotone
  intro build hbuild s t u _ ht hok hu
  obtain ⟨tb, htb, rfl⟩ : ∃ tb : TieBreak, tb.Lawful ∧ build = execTbBuildWith tb := by
    rcases hbuild with rfl | h
    · exact ⟨blockTieBreak, blockTieBreak_lawful, rfl⟩
    · exact h
  obtain ⟨b, r, tree, hB, hrootv, htree⟩ := execTbBuildWith_tree htb ht hok
  obtain ⟨ct, hexec, hct⟩ := exec_ctBuild hok hrootv htree (hB.leaves.nodup_iff.2 (presentSyms_nodup s.ft))
  obtain rfl := next_comm.1 (hexec.symm.trans hu)
  obtain ⟨word, hword⟩ := tree.exists_word
  have hmem {x : Byte} (hx : 0 < (symGet s.ft x).toNat) : (word x, x) ∈ tree.codeWords :=
    hword x (hB.leaves.mem_iff.2 (mem_presentSyms.2 fun h0 => by simp [h0] at hx))
  refine ⟨hok, fun x y hx hlt => ?_⟩
  have hwx := hmem hx
  have hwy := hmem (hx.trans hlt)
  exact ⟨word x, word y, (hct x _).2 hwx, (hct y _).2 hwy, hB.codeWord_length_le hwx hwy (BitVec.lt_def.2 hlt)⟩

end Sys2Proof.Machine
end

section
/-! PROOF. Faults, the order of checks, and the sequence errors (60_exceptions.md R270 to R281). -/

namespace Sys2Proof.Machine

variable {i : Instr} {s t : State} {k : ErrKind}

/-! ## What a command on an unlocked block can do -/

/-- On an unlocked block a command takes one of its faults, or succeeds and leaves `ERR` = 0. -/
theorem exec_unlocked_cases (herr : s.err = 0#8) (h : exec i s = .next t) :
    (∃ k, Faults i s k ∧ t = s.faulted k.code) ∨ t.err = 0#8 := by
  rcases exec_next_iff.1 h with ⟨_, hfault | ⟨u, a, d, hs, rfl⟩⟩ | ⟨hlock, _⟩
  · exact .inl hfault
  · exact .inr (by rw [reply_err, hs.err, herr, ite_self])
  · exact absurd herr hlock

/-- Which fault a command took, told by a nonzero `ERR`. -/
theorem exec_fault_of_err (herr : s.err = 0#8) (h : exec i s = .next t) (hne : t.err ≠ 0#8) :
    ∃ k, Faults i s k ∧ t = s.faulted k.code :=
  (exec_unlocked_cases herr h).resolve_right hne

/-- The faults of a command are those listed for it (R275). -/
theorem Faults.mem_faults (h : Faults i s k) : k ∈ i.faults := by
  cases i with
  | rst | stat | ftClr | ftRd | pqClr | pqLen | hdClr | hdLen => exact h.elim
  | ftInc | pqPush | pqPop | hdWr | hdSer | ctLen | decBit =>
    obtain ⟨rfl, _⟩ := h
    exact List.mem_singleton.2 rfl
  | tbBuild | hdParse =>
    obtain ⟨rfl | rfl, _⟩ := h
    · exact List.mem_cons_self
    · exact List.mem_cons_of_mem _ List.mem_cons_self
  | ctBuild | encSym | decEos =>
    obtain ⟨rfl, _⟩ | ⟨rfl, _⟩ := h
    · exact List.mem_cons_self
    · exact List.mem_cons_of_mem _ List.mem_cons_self

/-- No command is listed with `DuplicateCode` or `IllegalCmd` (R275). -/
theorem not_mem_faults (i : Instr) : ErrKind.duplicateCode ∉ i.faults ∧ ErrKind.illegalCmd ∉ i.faults := by
  cases i <;> simp [Instr.faults]

/-- Settles O43: the fault of an unlocked block leaves exactly the faulted state. -/
theorem faultsArePrecise : Obligations.FaultsArePrecise := by
  unfold Obligations.FaultsArePrecise
  intro i s t herr h hne
  obtain ⟨k, _, rfl⟩ := exec_fault_of_err herr h hne
  rfl

/-- Settles O44: the fault taken is one of those listed. -/
theorem faultsByCommand : Obligations.FaultsByCommand := by
  unfold Obligations.FaultsByCommand
  refine ⟨fun i s t herr h hne => ?_, not_mem_faults⟩
  obtain ⟨k, hfault, rfl⟩ := exec_fault_of_err herr h hne
  exact ⟨k, hfault.mem_faults, rfl⟩

/-! ## The sequence check (R273) -/

/-- The flag that the command needs is 0. -/
def FlagMissing (i : Instr) (s : State) : Prop := i.needsTree = true ∧ s.rootv = false ∨ i.needsTable = true ∧ s.ctv = false

/-- A command raises `SeqError` exactly when the flag it needs is 0 (R273). -/
theorem faults_seqError_iff : Faults i s .seqError ↔ FlagMissing i s := by
  cases i <;> simp [Faults, FlagMissing, Instr.needsTree, Instr.needsTable]

theorem needsTree_iff (i : Instr) : i.needsTree = true ↔ i.mnemonic ∈ ["HD_SER", "CT_BUILD", "DEC_BIT", "DEC_EOS"] := by
  cases i <;> simp [Instr.needsTree, Instr.mnemonic]

theorem needsTable_iff (i : Instr) : i.needsTable = true ↔ i.mnemonic ∈ ["CT_LEN", "ENC_SYM"] := by
  cases i <;> simp [Instr.needsTable, Instr.mnemonic]

/-- Settles O42: `SeqError` is the fault of a missing flag, and the code tells the fault. -/
theorem sequenceErrors : Obligations.SequenceErrors := by
  unfold Obligations.SequenceErrors
  refine ⟨fun i s herr hmiss => exec_of_faults herr (faults_seqError_iff.2 hmiss), fun i s t herr h hcode => ?_,
    fun i => ⟨needsTree_iff i, needsTable_iff i⟩⟩
  obtain ⟨k, hfault, rfl⟩ := exec_fault_of_err herr h (by rw [hcode]; decide)
  obtain rfl : k = .seqError := code_injective hcode
  exact faults_seqError_iff.1 hfault

/-! ## The order of checks (R281) -/

/-- A refusal, as the statements write it (R280). -/
theorem refuseLocked_eq_lockedOut (s : State) : refuseLocked s = s.lockedOut := by
  rw [refuseLocked, errResult_eq]
  rfl

/-- While locked, any word but a legal `RST` or `STAT` is refused (R280, R281). -/
theorem step_locked {w : CmdWord} {rest : List PortEvent} (hin : s.input = .cmd w :: rest) (hrst : decode w ≠ some .rst)
    (hstat : decode w ≠ some .stat) (hlock : s.err ≠ 0#8) : step s = .next { s with input := rest }.lockedOut := by
  rw [← refuseLocked_eq_lockedOut]
  cases hdec : decode w with
  | none => exact (step_illegal hin hdec).trans (illegalWord_next_iff.2 (.inr ⟨hlock, rfl⟩))
  | some i =>
    have hi : i.accepted = false := by
      cases i with
      | rst => exact absurd hdec hrst
      | stat => exact absurd hdec hstat
      | _ => rfl
    exact (step_legal hin hdec).trans (exec_locked hlock hi)

/-- A command whose flag is not missing takes a fault that is neither `IllegalCmd` nor `SeqError`, or none (R281 step 5). -/
theorem exec_err_of_flags (herr : s.err = 0#8) (hflags : ¬ FlagMissing i s) (h : exec i s = .next t) :
    t.err ≠ 0x10#8 ∧ t.err ≠ 0x11#8 := by
  rcases exec_unlocked_cases herr h with ⟨k, hfault, rfl⟩ | hok
  · have hillegal : k ≠ .illegalCmd := by
      rintro rfl
      exact (not_mem_faults i).2 hfault.mem_faults
    have hseq : k ≠ .seqError := by
      rintro rfl
      exact hflags (faults_seqError_iff.1 hfault)
    exact ⟨mt (code_injective (k := .illegalCmd)) hillegal, mt (code_injective (k := .seqError)) hseq⟩
  · rw [hok]
    decide

/-- Settles O7: the five steps of R281 in their order. -/
theorem checkOrder : Obligations.CheckOrder := by
  unfold Obligations.CheckOrder
  intro s w rest hin
  refine ⟨fun hdec => ⟨_, (step_legal hin hdec).trans (exec_rst _), exec_rst _, rfl⟩, fun hdec => ⟨_, step_legal hin hdec⟩,
    step_locked hin, fun herr hdec => ?_, fun i herr hdec hmiss => ?_, fun i t herr hdec htree htable hstep => ?_⟩
  · exact (step_illegal hin hdec).trans (illegalWord_next_iff.2 (.inl ⟨herr, rfl⟩))
  · exact (step_legal hin hdec).trans (sequenceErrors.1 i { s with input := rest } herr hmiss)
  · have hexec : exec i { s with input := rest } = .next t := (step_legal hin hdec).symm.trans hstep
    refine ⟨hexec, exec_err_of_flags (s := { s with input := rest }) herr ?_ hexec⟩
    rintro (⟨hneeds, hno⟩ | ⟨hneeds, hno⟩)
    · simp [htree hneeds] at hno
    · simp [htable hneeds] at hno

end Sys2Proof.Machine
end

section
/-! PROOF. The system commands `RST` and `STAT`, and waiting (48_system.md R241, R242, 60_exceptions.md R295). -/

namespace Sys2Proof.Machine

/-- Settles O8, by induction on the number of steps: each one waits. -/
theorem waitingKeepsAllState : Obligations.WaitingKeepsAllState := by
  unfold Obligations.WaitingKeepsAllState
  intro s hin n
  induction n with
  | zero => rfl
  | succ n ih => exact (core_run_next (step_waiting hin)).trans ih

/-- Settles O10: `RST` answers with the cleared block, and a locked block keeps `ERR` over any other command. -/
theorem rstClearsTheBlock : Obligations.RstClearsTheBlock := by
  unfold Obligations.RstClearsTheBlock
  refine ⟨rfl, fun s => ⟨_, exec_rst s, rfl, symGet_replicate _, rfl, rfl, rfl, rfl, rfl, rfl, symGet_replicate _, rfl, rfl,
    rfl, rfl, rfl, rfl, rfl⟩, fun i s t hlock h hopen => ?_⟩
  refine (exec_of_locked hlock h).resolve_right fun ht => hlock ?_
  rw [← hopen, ht]

/-- Bits 7 to 0 of the status word are `ERR` (10_state.md R37). -/
theorem statw_err (s : State) : (statw s).extractLsb' 0 8 = s.err := by
  apply BitVec.eq_of_getLsbD_eq
  intro i hi
  rw [BitVec.getLsbD_extractLsb', statw_getLsbD]
  simp [hi]

/-- Bits 31 to 13 of the status word are 0 (R37). -/
theorem statw_high (s : State) : (statw s).extractLsb' 13 19 = 0#19 := by
  apply BitVec.eq_of_getLsbD_eq
  intro i hi
  rw [BitVec.getLsbD_extractLsb', statw_getLsbD, BitVec.getLsbD_zero]
  simp only [hi, decide_true, Bool.true_and]
  iterate 6 rw [if_neg (by omega)]

/-- Settles O11: `STAT` answers with the status word, whose bits are those of R37. -/
theorem statReportsTheStatusWord : Obligations.StatReportsTheStatusWord := by
  unfold Obligations.StatReportsTheStatusWord
  refine ⟨rfl, fun s => ⟨statw s, rfl, statw_err s, statw_getLsbD s 8, statw_getLsbD s 9, ?_, ?_, ?_, statw_high s⟩⟩
  · rw [← dmid_iff]; exact Bool.eq_iff_iff.1 (statw_getLsbD s 10)
  · rw [← deadBit_iff]; exact Bool.eq_iff_iff.1 (statw_getLsbD s 11)
  · rw [← rootLeaf_iff]; exact Bool.eq_iff_iff.1 (statw_getLsbD s 12)

end Sys2Proof.Machine
end
